-- ==== Sys2Proof/Word.lean ====
section
/-! DEFINITION. The word types of the ringlog frame FIFO, spec/00_scope.md R8 and R9: every quantity is unsigned. -/

namespace Sys2Proof

/-- A byte of the region or of a transaction (R9). -/
abbrev Byte := BitVec 8

/-- `payload_len` (R104). -/
abbrev Half := BitVec 16

/-- The four `_reserved` bytes of a header as header bits 127:96 (R100, R105). -/
abbrev Reserved := BitVec 32

/-- Pointers, capacities and 64-bit response fields (R22, R27, R110; decision D15). -/
abbrev Word := BitVec 64

/-- The 16 header bytes read as one little-endian value `H` (R100). -/
abbrev HeaderBits := BitVec 128

end Sys2Proof
end

