-- ==== Sys2Proof/Config.lean ====
section
/-! DEFINITION. What an implementation fixes (the parameters of spec/00_scope.md R7) and the FREE VALUES: what the
spec leaves open. A free value is an opaque constant without a body, so no proof can see what it is. -/

namespace Sys2Proof.Config

/-- `HEADER_SIZE` (R7, R130). -/
def headerSize : Nat := 16

/-- `MAX_PAYLOAD` (R7, R104). -/
def maxPayload : Nat := 65535

/-- `MAX_FRAME` (R7). -/
def maxFrame : Nat := headerSize + maxPayload

/-- `MIN_CAPACITY` (R7, R140). -/
def minCapacity : Word := 16#64

/-- `CACHE_LINE`: the two pointer registers stand this far apart (R7, R31; decision D13). -/
def cacheLine : Nat := 128

/-- The open parameter `K_MAX`, less 4: any of its sixty values (R7, decision D8; log entry 11). -/
opaque kMaxOffset : Fin 60

/-- `K_MAX`, the largest `log2 capacity` of this block: 4 to 63, not known to any proof (R7, D8; log entry 11). -/
def kMax : Nat := 4 + kMaxOffset.val

/-- Which permitted value an acquire-load returns: the draw of the `n`-th use of a free value
(20_memory.md R80, 93 U10; log entry 10). -/
opaque acqDraw : Nat → Nat

/-- The content a region byte has from `NEW` on until it is first written, by ring and physical offset
(93 U1, 10_state.md R38; log entry 9). -/
opaque unwrittenByte : Nat → Nat → Byte

/-- What a 64-bit register holds once the ring is gone, by use and register (10_state.md R30, 93 U16; log entry 8). -/
opaque lostWord : Nat → Nat → Word

/-- What `mode` holds once the ring is gone (10_state.md R30, 93 U16; log entry 8). -/
opaque lostBit : Nat → Bool

end Sys2Proof.Config
end

