-- ==== Sys2Proof/Machine/Bytes.lean ====
section
/-! DEFINITION. Byte order: `le_n` and `from_le` of spec/00_scope.md R9; everything in the block is little-endian
(20_memory.md R61). -/

namespace Sys2Proof.Machine

/-- `le_n(v)`: the `n` low bytes of `v`, least significant first (R9). -/
def leBytes : Nat → Nat → List Byte
  | 0, _ => []
  | n + 1, v => BitVec.ofNat 8 v :: leBytes n (v / 256)

/-- `from_le(s)`: the sum of `s[i] * 2^(8i)` (R9). -/
def fromLe : List Byte → Nat
  | [] => 0
  | b :: bs => b.toNat + 256 * fromLe bs

/-- The value of the first `n` bytes and the bytes after them; none where there are fewer. -/
def takeLe : Nat → List Byte → Option (Nat × List Byte)
  | 0, bs => some (0, bs)
  | _ + 1, [] => none
  | n + 1, b :: bs =>
    match takeLe n bs with
    | some (v, rest) => some (b.toNat + 256 * v, rest)
    | none => none

end Sys2Proof.Machine
end

