-- ==== Sys2Proof/Syntax.lean ====
section
/-! DEFINITION. The operations and transfers of the block as syntax: one constructor of `Instr` for every row of
spec/opcode_table.json, and one more for the reserved command codes (which the `BAD_COMMAND` row answers). -/

namespace Sys2Proof

/-- `mode` (10_state.md R28): RINGLOG's RingBuffer or SpscRingBuffer. -/
inductive Mode where
  | single
  | spsc
deriving DecidableEq, Repr

/-- The reason codes of `INVALID_CAPACITY` (30_encoding.md R112); there are no others. -/
inductive Reason where
  | tooSmall
  | notPowerOfTwo
deriving DecidableEq, Repr

/-- The success fields of an `OK` response (30_encoding.md R110, last but one column). -/
inductive OkFields where
  /-- `NEW`, `SPLIT`, `DROP_RING`, `WRITE_EVENT`, `DROP_PRODUCER`, `DROP_CONSUMER`: no fields. -/
  | empty
  /-- `READ_EVENT`: the 16 stored header bytes and the payload. -/
  | event (header : HeaderBits) (payload : List Byte)
  /-- `HEADER_SIZE`, `TOTAL_SIZE`. -/
  | size (size : Word)
  /-- `HEADER_NEW`. -/
  | header (timestamp : Word) (eventType flags : Byte) (payloadLen : Half)
  /-- `ENCODE_HEADER`. -/
  | encoded (header : HeaderBits)
  /-- `DECODE_HEADER`. -/
  | decoded (timestamp : Word) (eventType flags : Byte) (payloadLen : Half) (reserved : Reserved)
  /-- `USED`, `FREE`. -/
  | value (value : Word)
  /-- `IS_EMPTY`: one bit. -/
  | bit (value : Bool)
deriving DecidableEq, Repr

/-- Which success fields a command's `OK` response has. -/
inductive OkShape where
  | empty | event | size | header | encoded | decoded | value | bit
deriving DecidableEq, Repr

/-- A response: a status with its fields (30_encoding.md R111). -/
inductive Response where
  | ok (fields : OkFields)
  | none
  | invalidCapacity (capacity : Word) (reason : Reason)
  | notEnoughSpace (required available : Word)
  | badCommand (cmd : Byte)
deriving DecidableEq, Repr

/-- The rows of spec/opcode_table.json. The first fifteen are the commands (R110); `reservedCode` is a request whose code
is in no row (R113); `frameHeader` is the frame header a reader meets at `read_pos` (format HDR, R100, R107); the `rsp…` are
the response statuses (R111) and the `reason…` the reason codes (R112) as they are handed over at a port (log entries 4, 5). -/
inductive Instr where
  | new (mode : Mode) (capacity : Word)
  | split
  | dropRing
  | writeEvent (timestamp : Word) (eventType flags : Byte) (payloadLen : Half) (payload : List Byte)
  | dropProducer
  | readEvent
  | dropConsumer
  | headerSize
  | totalSize (payloadLen : Half)
  | headerNew (timestamp : Word) (eventType : Byte) (payloadLen : Half)
  | encodeHeader (timestamp : Word) (eventType flags : Byte) (payloadLen : Half)
  | decodeHeader (header : HeaderBits)
  | used
  | free
  | isEmpty
  | reservedCode (code : Byte)
  | frameHeader (timestamp : Word) (eventType flags : Byte) (payloadLen : Half) (reserved : Reserved)
  | rspOk (fields : OkFields)
  | rspNone
  | rspInvalidCapacity (capacity : Word) (reason : Reason)
  | rspNotEnoughSpace (required available : Word)
  | rspBadCommand (cmd : Byte)
  | reasonTooSmall
  | reasonNotPowerOfTwo
deriving DecidableEq, Repr

/-- The ports (30_encoding.md R109). -/
inductive Port where
  | cfg
  | prod
  | cons
deriving DecidableEq, Repr

end Sys2Proof
end

