-- ==== Sys2Proof/Machine/Operands.lean ====
section
/-! DEFINITION. Operand assembly: the header's fields and its 128-bit value (spec/30_encoding.md R100, R108), the frame
(R106), and `need`, the one derived operand. -/

namespace Sys2Proof.Machine

/-- The header value `H`: `timestamp = H[63:0]`, `event_type = H[71:64]`, `flags = H[79:72]`, `payload_len = H[95:80]`,
`_reserved = H[127:96]` (R100). -/
def packHeader (timestamp : Word) (eventType flags : Byte) (payloadLen : Half) (reserved : Reserved) : HeaderBits :=
  reserved ++ payloadLen ++ flags ++ eventType ++ timestamp

/-- `ENCODE_HEADER` of 40_framing.md R133 as a 128-bit value: the reserved bytes are zero (R105). -/
def encodeHeader (timestamp : Word) (eventType flags : Byte) (payloadLen : Half) : HeaderBits :=
  packHeader timestamp eventType flags payloadLen 0#32

/-- R108. -/
def headerTimestamp (h : HeaderBits) : Word := h.extractLsb' 0 64

/-- R108. -/
def headerEventType (h : HeaderBits) : Byte := h.extractLsb' 64 8

/-- R108. -/
def headerFlags (h : HeaderBits) : Byte := h.extractLsb' 72 8

/-- R108. -/
def headerPayloadLen (h : HeaderBits) : Half := h.extractLsb' 80 16

/-- R108. -/
def headerReserved (h : HeaderBits) : Reserved := h.extractLsb' 96 32

/-- The 16 bytes of a header, the byte at the lowest offset first (R61, R100). -/
def headerBytes (h : HeaderBits) : List Byte := leBytes 16 h.toNat

/-- The header value of 16 bytes (R100: `H = from_le(header bytes)`). -/
def headerOfBytes (bs : List Byte) : HeaderBits := BitVec.ofNat 128 (fromLe bs)

/-- `need = 16 + zext_64(payload_len)` (R108, 20_memory.md R70). -/
def needOf (payloadLen : Half) : Word := 16#64 + payloadLen.setWidth 64

/-- The operands of `WRITE_EVENT`: the four meaningful header fields and the payload (R110, R146). -/
structure Frame where
  timestamp : Word
  eventType : Byte
  flags : Byte
  payloadLen : Half
  payload : List Byte
deriving DecidableEq, Repr

/-- The precondition of `WRITE_EVENT`: `payload_len = len(payload)` (R146, R232). -/
def Frame.agrees (f : Frame) : Bool := decide (f.payloadLen.toNat = f.payload.length)

/-- The header of a frame as the block stores it (R146: `ENCODE_HEADER(...)`). -/
def Frame.header (f : Frame) : HeaderBits := encodeHeader f.timestamp f.eventType f.flags f.payloadLen

/-- `frame = header ++ payload` (R106, R146). -/
def Frame.bytes (f : Frame) : List Byte := headerBytes f.header ++ f.payload

/-- `need` of a frame (R146). -/
def Frame.need (f : Frame) : Word := needOf f.payloadLen

end Sys2Proof.Machine
end

