-- ==== Sys2Proof/WellFormed.lean ====
section
/-! DEFINITION. Which terms of `Instr` are requests, headers or responses of the block. The widths are in the types;
what is left is checked here: the length of a payload against `payload_len`, and that a reserved code is in no row. -/

namespace Sys2Proof

/-- The codes of the command map (spec/30_encoding.md R110). -/
def commandCodes : List Byte :=
  [0x00#8, 0x01#8, 0x02#8, 0x10#8, 0x11#8, 0x20#8, 0x21#8, 0x30#8, 0x31#8, 0x32#8, 0x33#8, 0x34#8, 0x40#8, 0x41#8, 0x42#8]

/-- The payload an `OK` response to `READ_EVENT` carries has the length its header says (R110: "byte sequence of
`payload_len` bytes"); `payload_len = H[95:80]` (R100). -/
def OkFields.wf : OkFields → Bool
  | .event h payload => decide ((h.extractLsb' 80 16).toNat = payload.length)
  | .empty => true
  | .size _ => true
  | .header _ _ _ _ => true
  | .encoded _ => true
  | .decoded _ _ _ _ _ => true
  | .value _ => true
  | .bit _ => true

/-- Well-formed: `WRITE_EVENT` keeps its precondition (41_ring_ops.md R146), a reserved code is none of R110's
(30_encoding.md R113), a read response carries its whole payload. -/
def Instr.wf : Instr → Bool
  | .writeEvent _ _ _ payloadLen payload => decide (payloadLen.toNat = payload.length)
  | .reservedCode code => !commandCodes.contains code
  | .rspOk fields => fields.wf
  | .new _ _ => true
  | .split => true
  | .dropRing => true
  | .dropProducer => true
  | .readEvent => true
  | .dropConsumer => true
  | .headerSize => true
  | .totalSize _ => true
  | .headerNew _ _ _ => true
  | .encodeHeader _ _ _ _ => true
  | .decodeHeader _ => true
  | .used => true
  | .free => true
  | .isEmpty => true
  | .frameHeader _ _ _ _ _ => true
  | .rspNone => true
  | .rspInvalidCapacity _ _ => true
  | .rspNotEnoughSpace _ _ => true
  | .rspBadCommand _ => true
  | .reasonTooSmall => true
  | .reasonNotPowerOfTwo => true

end Sys2Proof
end

