-- ==== Sys2Proof/Decode.lean ====
section
/-! DEFINITION. From bytes to `Instr` and back. The spec encodes four things with numbers of their own: a request (format
CMD), a response (RSP), the reason code of `INVALID_CAPACITY` (RSP.reason) and a frame header (HDR); the reader knows which
of them it reads (`Format`). Codes: spec/30_encoding.md R110 to R112. The fields of a transaction have no packing of
their own in the spec (R109); here they follow the code in the order of R110 and R111, each in its width in whole bytes,
little-endian (log entry 1). -/

namespace Sys2Proof

open Machine

/-- Which encoding the bytes are read in. -/
inductive Format where
  | cmd
  | hdr
  | rsp (shape : OkShape)
  | reason
deriving DecidableEq, Repr

/-- Why bytes are no request, response, reason code or header. -/
inductive DecodeError where
  /-- There is no byte at all, so no code. -/
  | empty
  /-- Operand or response fields are missing. -/
  | truncated
  /-- Bytes follow the last field. -/
  | trailing
  /-- The one-bit operand `mode` has another value than 0 and 1 (R110). -/
  | badMode
  /-- The one-bit response field of `IS_EMPTY` has another value than 0 and 1 (R110). -/
  | badBit
  /-- A reserved status (R111). -/
  | reservedStatus
  /-- A reserved reason code (R112). -/
  | reservedReason
deriving DecidableEq, Repr

/-! ## Codes -/

/-- The command code of a request (R110, R113); the other rows have their status or reason code (R111, R112). -/
def Instr.code : Instr → Byte
  | .new _ _ => 0x00#8
  | .split => 0x01#8
  | .dropRing => 0x02#8
  | .writeEvent _ _ _ _ _ => 0x10#8
  | .dropProducer => 0x11#8
  | .readEvent => 0x20#8
  | .dropConsumer => 0x21#8
  | .headerSize => 0x30#8
  | .totalSize _ => 0x31#8
  | .headerNew _ _ _ => 0x32#8
  | .encodeHeader _ _ _ _ => 0x33#8
  | .decodeHeader _ => 0x34#8
  | .used => 0x40#8
  | .free => 0x41#8
  | .isEmpty => 0x42#8
  | .reservedCode code => code
  | .frameHeader timestamp _ _ _ _ => timestamp.setWidth 8
  | .rspOk _ => 0x00#8
  | .rspNone => 0x01#8
  | .rspInvalidCapacity _ _ => 0x02#8
  | .rspNotEnoughSpace _ _ => 0x03#8
  | .rspBadCommand _ => 0xFF#8
  | .reasonTooSmall => 0x00#8
  | .reasonNotPowerOfTwo => 0x01#8

/-- The reason codes (R112). -/
def Reason.code : Reason → Byte
  | .tooSmall => 0x00#8
  | .notPowerOfTwo => 0x01#8

/-- The success fields of each command (R110). -/
def OkFields.shape : OkFields → OkShape
  | .empty => .empty
  | .event _ _ => .event
  | .size _ => .size
  | .header _ _ _ _ => .header
  | .encoded _ => .encoded
  | .decoded _ _ _ _ _ => .decoded
  | .value _ => .value
  | .bit _ => .bit

/-- Which success fields the `OK` response to a command code has (R110). -/
def okShapeOf (code : Byte) : OkShape :=
  if code = 0x20#8 then .event
  else if code = 0x30#8 then .size
  else if code = 0x31#8 then .size
  else if code = 0x32#8 then .header
  else if code = 0x33#8 then .encoded
  else if code = 0x34#8 then .decoded
  else if code = 0x40#8 then .value
  else if code = 0x41#8 then .value
  else if code = 0x42#8 then .bit
  else .empty

/-- Which encoding a term is written in. -/
def Instr.format : Instr → Format
  | .new _ _ => .cmd
  | .split => .cmd
  | .dropRing => .cmd
  | .writeEvent _ _ _ _ _ => .cmd
  | .dropProducer => .cmd
  | .readEvent => .cmd
  | .dropConsumer => .cmd
  | .headerSize => .cmd
  | .totalSize _ => .cmd
  | .headerNew _ _ _ => .cmd
  | .encodeHeader _ _ _ _ => .cmd
  | .decodeHeader _ => .cmd
  | .used => .cmd
  | .free => .cmd
  | .isEmpty => .cmd
  | .reservedCode _ => .cmd
  | .frameHeader _ _ _ _ _ => .hdr
  | .rspOk fields => .rsp fields.shape
  | .rspNone => .rsp .event
  | .rspInvalidCapacity _ _ => .rsp .empty
  | .rspNotEnoughSpace _ _ => .rsp .empty
  | .rspBadCommand _ => .rsp .empty
  | .reasonTooSmall => .reason
  | .reasonNotPowerOfTwo => .reason

/-! ## Decoding -/

/-- Nothing may follow the last field. -/
def atEnd (rest : List Byte) (i : Instr) : Except DecodeError Instr :=
  match rest with
  | [] => .ok i
  | _ :: _ => .error .trailing

/-- Read one field of `n` bytes, then go on. -/
def field (n : Nat) (bs : List Byte) (k : Nat → List Byte → Except DecodeError Instr) : Except DecodeError Instr :=
  match takeLe n bs with
  | some (v, rest) => k v rest
  | none => .error .truncated

/-- `NEW`: `mode` (1 bit), `capacity` (64) (R110). -/
def decodeNew (bs : List Byte) : Except DecodeError Instr :=
  field 1 bs fun m rest => field 8 rest fun c rest =>
    if m = 0 then atEnd rest (.new .single (BitVec.ofNat 64 c))
    else if m = 1 then atEnd rest (.new .spsc (BitVec.ofNat 64 c))
    else .error .badMode

/-- `WRITE_EVENT`: `timestamp` (64), `event_type` (8), `flags` (8), `payload_len` (16), `payload`; the payload carries its
own length, so it is every byte that is left (R109, R110). -/
def decodeWriteEvent (bs : List Byte) : Except DecodeError Instr :=
  field 8 bs fun t rest => field 1 rest fun e rest => field 1 rest fun f rest => field 2 rest fun n rest =>
    .ok (.writeEvent (BitVec.ofNat 64 t) (BitVec.ofNat 8 e) (BitVec.ofNat 8 f) (BitVec.ofNat 16 n) rest)

/-- `TOTAL_SIZE`: `payload_len` (16) (R110). -/
def decodeTotalSize (bs : List Byte) : Except DecodeError Instr :=
  field 2 bs fun n rest => atEnd rest (.totalSize (BitVec.ofNat 16 n))

/-- `HEADER_NEW`: `timestamp` (64), `event_type` (8), `payload_len` (16) (R110). -/
def decodeHeaderNew (bs : List Byte) : Except DecodeError Instr :=
  field 8 bs fun t rest => field 1 rest fun e rest => field 2 rest fun n rest =>
    atEnd rest (.headerNew (BitVec.ofNat 64 t) (BitVec.ofNat 8 e) (BitVec.ofNat 16 n))

/-- `ENCODE_HEADER`: `timestamp` (64), `event_type` (8), `flags` (8), `payload_len` (16) (R110). -/
def decodeEncodeHeader (bs : List Byte) : Except DecodeError Instr :=
  field 8 bs fun t rest => field 1 rest fun e rest => field 1 rest fun f rest => field 2 rest fun n rest =>
    atEnd rest (.encodeHeader (BitVec.ofNat 64 t) (BitVec.ofNat 8 e) (BitVec.ofNat 8 f) (BitVec.ofNat 16 n))

/-- `DECODE_HEADER`: `header` (16 bytes) (R110). -/
def decodeDecodeHeader (bs : List Byte) : Except DecodeError Instr :=
  field 16 bs fun h rest => atEnd rest (.decodeHeader (BitVec.ofNat 128 h))

/-- The operands of a command code (R110). A code of no row is a request of its own, whatever follows it (R113). -/
def decodeOperands (code : Byte) (bs : List Byte) : Except DecodeError Instr :=
  if code = 0x00#8 then decodeNew bs
  else if code = 0x01#8 then atEnd bs .split
  else if code = 0x02#8 then atEnd bs .dropRing
  else if code = 0x10#8 then decodeWriteEvent bs
  else if code = 0x11#8 then atEnd bs .dropProducer
  else if code = 0x20#8 then atEnd bs .readEvent
  else if code = 0x21#8 then atEnd bs .dropConsumer
  else if code = 0x30#8 then atEnd bs .headerSize
  else if code = 0x31#8 then decodeTotalSize bs
  else if code = 0x32#8 then decodeHeaderNew bs
  else if code = 0x33#8 then decodeEncodeHeader bs
  else if code = 0x34#8 then decodeDecodeHeader bs
  else if code = 0x40#8 then atEnd bs .used
  else if code = 0x41#8 then atEnd bs .free
  else if code = 0x42#8 then atEnd bs .isEmpty
  else .ok (.reservedCode code)

/-- A request (format CMD, R109, R110). -/
def decodeRequest : List Byte → Except DecodeError Instr
  | [] => .error .empty
  | code :: bs => decodeOperands code bs

/-- A frame header (format HDR, R100, R108); every 16 bytes decode (R115). -/
def decodeFrameHeader (bs : List Byte) : Except DecodeError Instr :=
  field 8 bs fun t rest => field 1 rest fun e rest => field 1 rest fun f rest => field 2 rest fun n rest =>
    field 4 rest fun r rest =>
      atEnd rest (.frameHeader (BitVec.ofNat 64 t) (BitVec.ofNat 8 e) (BitVec.ofNat 8 f) (BitVec.ofNat 16 n) (BitVec.ofNat 32 r))

/-- The success fields of an `OK` response (R110, R111). -/
def decodeOkFields (shape : OkShape) (bs : List Byte) : Except DecodeError Instr :=
  match shape with
  | .empty => atEnd bs (.rspOk .empty)
  | .event => field 16 bs fun h rest => .ok (.rspOk (.event (BitVec.ofNat 128 h) rest))
  | .size => field 8 bs fun v rest => atEnd rest (.rspOk (.size (BitVec.ofNat 64 v)))
  | .header =>
    field 8 bs fun t rest => field 1 rest fun e rest => field 1 rest fun f rest => field 2 rest fun n rest =>
      atEnd rest (.rspOk (.header (BitVec.ofNat 64 t) (BitVec.ofNat 8 e) (BitVec.ofNat 8 f) (BitVec.ofNat 16 n)))
  | .encoded => field 16 bs fun h rest => atEnd rest (.rspOk (.encoded (BitVec.ofNat 128 h)))
  | .decoded =>
    field 8 bs fun t rest => field 1 rest fun e rest => field 1 rest fun f rest => field 2 rest fun n rest =>
      field 4 rest fun r rest =>
        atEnd rest (.rspOk (.decoded (BitVec.ofNat 64 t) (BitVec.ofNat 8 e) (BitVec.ofNat 8 f) (BitVec.ofNat 16 n)
          (BitVec.ofNat 32 r)))
  | .value => field 8 bs fun v rest => atEnd rest (.rspOk (.value (BitVec.ofNat 64 v)))
  | .bit =>
    field 1 bs fun v rest =>
      if v = 0 then atEnd rest (.rspOk (.bit false))
      else if v = 1 then atEnd rest (.rspOk (.bit true))
      else .error .badBit

/-- `INVALID_CAPACITY`: `capacity` (64), `reason` (8) (R111). -/
def decodeInvalidCapacity (bs : List Byte) : Except DecodeError Instr :=
  field 8 bs fun c rest => field 1 rest fun r rest =>
    if r = 0 then atEnd rest (.rspInvalidCapacity (BitVec.ofNat 64 c) .tooSmall)
    else if r = 1 then atEnd rest (.rspInvalidCapacity (BitVec.ofNat 64 c) .notPowerOfTwo)
    else .error .reservedReason

/-- `NOT_ENOUGH_SPACE`: `required` (64), `available` (64) (R111). -/
def decodeNotEnoughSpace (bs : List Byte) : Except DecodeError Instr :=
  field 8 bs fun q rest => field 8 rest fun a rest =>
    atEnd rest (.rspNotEnoughSpace (BitVec.ofNat 64 q) (BitVec.ofNat 64 a))

/-- A response (format RSP, R111) to a command whose success fields have the given shape. -/
def decodeResponse (shape : OkShape) : List Byte → Except DecodeError Instr
  | [] => .error .empty
  | status :: bs =>
    if status = 0x00#8 then decodeOkFields shape bs
    else if status = 0x01#8 then atEnd bs .rspNone
    else if status = 0x02#8 then decodeInvalidCapacity bs
    else if status = 0x03#8 then decodeNotEnoughSpace bs
    else if status = 0xFF#8 then field 1 bs fun c rest => atEnd rest (.rspBadCommand (BitVec.ofNat 8 c))
    else .error .reservedStatus

/-- A reason code (format RSP.reason, R112). -/
def decodeReason : List Byte → Except DecodeError Instr
  | [] => .error .empty
  | code :: rest =>
    if code = 0x00#8 then atEnd rest .reasonTooSmall
    else if code = 0x01#8 then atEnd rest .reasonNotPowerOfTwo
    else .error .reservedReason

/-- The decoder: total on any bytes. -/
def decode (format : Format) (bs : List Byte) : Except DecodeError Instr :=
  match format with
  | .cmd => decodeRequest bs
  | .hdr => decodeFrameHeader bs
  | .rsp shape => decodeResponse shape bs
  | .reason => decodeReason bs

/-! ## Encoding -/

/-- A 64-bit field. -/
def bytesOfWord (w : Word) : List Byte := leBytes 8 w.toNat

/-- A 16-bit field. -/
def bytesOfHalf (h : Half) : List Byte := leBytes 2 h.toNat

/-- The four `_reserved` bytes. -/
def bytesOfReserved (r : Reserved) : List Byte := leBytes 4 r.toNat

/-- `mode`: 0 `SINGLE`, 1 `SPSC` (R110). -/
def Mode.byte : Mode → Byte
  | .single => 0x00#8
  | .spsc => 0x01#8

/-- The success fields as bytes (R110). -/
def OkFields.bytes : OkFields → List Byte
  | .empty => []
  | .event h payload => headerBytes h ++ payload
  | .size v => bytesOfWord v
  | .header t e f n => bytesOfWord t ++ [e] ++ [f] ++ bytesOfHalf n
  | .encoded h => headerBytes h
  | .decoded t e f n r => bytesOfWord t ++ [e] ++ [f] ++ bytesOfHalf n ++ bytesOfReserved r
  | .value v => bytesOfWord v
  | .bit b => [if b then 0x01#8 else 0x00#8]

/-- The bytes after the code (R110, R111); for a header, the bytes after its first. -/
def Instr.operandBytes : Instr → List Byte
  | .new mode capacity => [mode.byte] ++ bytesOfWord capacity
  | .split => []
  | .dropRing => []
  | .writeEvent t e f n payload => bytesOfWord t ++ [e] ++ [f] ++ bytesOfHalf n ++ payload
  | .dropProducer => []
  | .readEvent => []
  | .dropConsumer => []
  | .headerSize => []
  | .totalSize n => bytesOfHalf n
  | .headerNew t e n => bytesOfWord t ++ [e] ++ bytesOfHalf n
  | .encodeHeader t e f n => bytesOfWord t ++ [e] ++ [f] ++ bytesOfHalf n
  | .decodeHeader header => headerBytes header
  | .used => []
  | .free => []
  | .isEmpty => []
  | .reservedCode _ => []
  | .frameHeader t e f n r => leBytes 7 (t.toNat / 256) ++ [e] ++ [f] ++ bytesOfHalf n ++ bytesOfReserved r
  | .rspOk fields => fields.bytes
  | .rspNone => []
  | .rspInvalidCapacity capacity reason => bytesOfWord capacity ++ [reason.code]
  | .rspNotEnoughSpace required available => bytesOfWord required ++ bytesOfWord available
  | .rspBadCommand cmd => [cmd]
  | .reasonTooSmall => []
  | .reasonNotPowerOfTwo => []

/-- The encoder, written from the same tables (R100, R110, R111, R112). -/
def encode (i : Instr) : List Byte := i.code :: i.operandBytes

/-! ## The opcode table's own numbering -/

/-- How many bytes a request has from its code on, when its operand fields are all there; the payload of `WRITE_EVENT`
is as long as its `payload_len` says (R110). -/
def requestLength (w : Nat) : Nat :=
  if w % 256 = 0x00 then 10
  else if w % 256 = 0x10 then 13 + w / 2 ^ 88 % 65536
  else if w % 256 = 0x31 then 3
  else if w % 256 = 0x32 then 12
  else if w % 256 = 0x33 then 13
  else if w % 256 = 0x34 then 17
  else 1

/-- The bytes of an instruction whose bits are `w`, first byte lowest; the bits above `nbits` are zero. -/
def tableBytes (nbits w : Nat) : List Byte := leBytes (max (requestLength w) (nbits / 8)) w

/-- The table gives 128 bits to one row, `FRAME_HEADER`; every other row is 8 bits, and a request has no bits of the table
beyond its code (R109). -/
def tableFormat (nbits : Nat) : Format := if nbits = 128 then .hdr else .cmd

/-- The instruction the decoder reads from the opcode table's numbering. A status or reason code has no word of its own
there: the same number is read as a command code (log entry 6). -/
def decodeTableWord (nbits w : Nat) : Option Instr :=
  match tableFormat nbits with
  | .hdr => (decode .hdr (leBytes 16 w)).toOption
  | _ => (decode .cmd (tableBytes nbits w)).toOption

end Sys2Proof
end

