-- ==== Sys2Proof/Machine/State.lean ====
section
/-! DEFINITION. The state of the block (spec/10_state.md), as plain data: the configuration, the two pointers, the
region, the hidden state of mode `SPSC`, and at each port the operation or response in progress; with it what stands for
the outside world (the inputs still to come) and the event record of 42_spsc_ops.md R164. -/

namespace Sys2Proof.Machine

/-- `phase` (10_state.md R30). -/
inductive Phase where
  | unconfigured
  | whole
  | split
deriving DecidableEq, Repr

/-- The two pointers (R22, R23). -/
inductive Pointer where
  | writePos
  | readPos
deriving DecidableEq, Repr

/-- The status queries (41_ring_ops.md R148 to R150). -/
inductive Query where
  | used
  | free
  | isEmpty
deriving DecidableEq, Repr

/-- What a port is doing. `p1` to `p4` are the steps P1 to P4 of a `WRITE_EVENT` in mode `SPSC` that are still to be done
(42_spsc_ops.md R168), `c1` to `c5` the steps C1 to C5 of a `READ_EVENT` (R169), `q1` and `q2` the two loads of a status
query (R172), each with what the steps before it obtained. -/
inductive PortState where
  /-- No request is in progress and no response is due. -/
  | idle
  /-- The operation is over; its response is to be handed over (41_ring_ops.md R141). -/
  | responding (r : Response)
  /-- Status and capacity of an `INVALID_CAPACITY` response are handed over, its reason code is due (R111, R112). -/
  | reasonDue (capacity : Word) (reason : Reason)
  /-- P1 is next. -/
  | p1 (f : Frame)
  /-- P2 is next; P1 returned `r`. -/
  | p2 (f : Frame) (r : Word)
  /-- P3 is next; the frame fits and P2 returned `w`. -/
  | p3 (f : Frame) (w : Word)
  /-- P4 is next: the frame's bytes are stored and not published (10_state.md R35, R39 `Reserved`). -/
  | p4 (f : Frame) (w : Word)
  /-- C1 is next. -/
  | c1
  /-- C2 is next; C1 returned `w`. -/
  | c2 (w : Word)
  /-- C3 is next: the header at `r` is to be read; `w` is C1's value. -/
  | c3 (w r : Word)
  /-- C4 is next: the header is read, the payload of `n` bytes is to be read. -/
  | c4 (r : Word) (header : HeaderBits) (n : Half)
  /-- C5 is next: the frame is copied, its space is not released. -/
  | c5 (r : Word) (header : HeaderBits) (n : Half) (payload : List Byte)
  /-- A status query's acquire-load is next. -/
  | q1 (q : Query)
  /-- A status query's own load is next; the acquire-load returned `v`. -/
  | q2 (q : Query) (v : Word)
deriving DecidableEq, Repr

/-- What the outside world does next. `request`: the agent at a port presents a request, as bytes. `advance`: the block
does the next step of what is in progress at a port. The order of the inputs is the order in which the two sides' steps
interleave (42_spsc_ops.md R163). -/
inductive Input where
  | request (port : Port) (bytes : List Byte)
  | advance (port : Port)
deriving DecidableEq, Repr

/-- The step vocabulary of 42_spsc_ops.md R164. -/
inductive Action where
  | request (i : Instr)
  | acqLoad (ptr : Pointer) (v : Word)
  | ownLoad (ptr : Pointer) (v : Word)
  | relStore (ptr : Pointer) (v : Word)
  | memWrite (pos : Word) (bytes : List Byte)
  | memRead (pos : Word) (bytes : List Byte)
  | response (r : Response)
deriving DecidableEq, Repr

/-- An event, tagged with the port it happened at: the port is the agent's identity (R164, 60_exceptions.md R210). -/
structure Event where
  port : Port
  action : Action
deriving DecidableEq, Repr

/-- The byte region (R26): physical offset and byte, offsets strictly rising; an offset that is not listed holds no
value (R38). -/
abbrev Region := List Host.Cell

/-- The state of the block. -/
structure State where
  /-- R30. -/
  phase : Phase
  /-- R28. -/
  mode : Mode
  /-- R27. -/
  capacity : Word
  /-- R27. -/
  mask : Word
  /-- R22. -/
  writePos : Word
  /-- R23. -/
  readPos : Word
  /-- R29. -/
  prodAlive : Bool
  /-- R29. -/
  consAlive : Bool
  /-- R26. -/
  region : Region
  /-- `p_seen_r` (R33). -/
  pSeenR : Word
  /-- `c_seen_w` (R33). -/
  cSeenW : Word
  /-- `hist_w` (R34), oldest first. -/
  histW : List Word
  /-- `hist_r` (R34), oldest first. -/
  histR : List Word
  /-- Which element of `hist_r` the producer side's snapshot is (20_memory.md R80: `hj`). The model's own field. -/
  pSeenAt : Nat
  /-- Which element of `hist_w` the consumer side's snapshot is. The model's own field. -/
  cSeenAt : Nat
  /-- How many bytes this ring has published since `NEW`: `write_pos` as a counter that does not wrap (R22, R24, R39 "at or past"; log
  entry 24). The model's own field. -/
  published : Nat
  /-- How many bytes this ring has released since `NEW`: `read_pos` likewise. The model's own field. -/
  released : Nat
  /-- Port `CFG` (30_encoding.md R109). -/
  cfg : PortState
  /-- Port `PROD`. -/
  prod : PortState
  /-- Port `CONS`. -/
  cons : PortState
  /-- The port of the step being taken. The model's own field. -/
  port : Port
  /-- What the outside world does next. The model's own field. -/
  inbox : List Input
  /-- Which permitted value each acquire-load to come returns, the next first; when none is left, a free value (20_memory.md R80; log
  entry 10). The model's own field. -/
  draws : List Nat
  /-- The event record (42_spsc_ops.md R164), oldest first. -/
  events : List Event
  /-- How many free values have been used. The model's own field. -/
  freeCount : Nat
  /-- Which arbitrary content the never-written bytes of this ring have (93 U1). The model's own field. -/
  regionSeed : Nat
deriving DecidableEq, Repr

/-- Why the machine stops with a fault. -/
inductive Fault where
  /-- Raised by the region access primitives when more bytes than `capacity` are to be moved: outside the precondition of
  `MemRead` and `MemWrite` (20_memory.md R72, R73), in states with `used > capacity` only. Safe: the model stops. -/
  | accessLongerThanRegion
deriving DecidableEq, Repr

/-- Why a step has no meaning. -/
inductive Refusal where
  /-- Raised by the dispatch for an instruction without a meaning yet. Safe. -/
  | notModelled (mnemonic : String)
  /-- Raised by `WRITE_EVENT` with `payload_len` different from `len(payload)`: `refuse` (41_ring_ops.md R146, 93 U2). Safe. -/
  | payloadLengthMismatch
  /-- Raised by `NEW` with a power of two above `2^K_MAX`: `refuse` (41_ring_ops.md R140, 93 U8). Safe. -/
  | capacityBeyondInstance
  /-- Raised by the step for a request that comes before the response to the one before it: `refuse`
  (70_reset_and_hazards.md R226, 93 U9). Safe. -/
  | requestBeforeResponse
  /-- Raised by the step for bytes that are no request: operand fields missing or left over. Safe (log entry 2). -/
  | malformedRequest
  /-- Raised by a response or reason code that the port does not owe: one request has exactly one response
  (41_ring_ops.md R141). Safe (log entry 4). -/
  | responseNotDue
  /-- Raised by a frame header when no `READ_EVENT` is at step C3: a header means nothing elsewhere (30_encoding.md R107,
  42_spsc_ops.md R169). Safe (log entry 5). -/
  | headerNotDue
deriving DecidableEq, Repr

/-- After power-on reset (R38, 70_reset_and_hazards.md R220): phase `Unconfigured`, both handle flags false, no request
in progress; for the elements the spec gives no value, log entry 7. -/
def State.reset : State where
  phase := .unconfigured
  mode := .single
  capacity := 0#64
  mask := 0#64
  writePos := 0#64
  readPos := 0#64
  prodAlive := false
  consAlive := false
  region := []
  pSeenR := 0#64
  cSeenW := 0#64
  histW := []
  histR := []
  pSeenAt := 0
  cSeenAt := 0
  published := 0
  released := 0
  cfg := .idle
  prod := .idle
  cons := .idle
  port := .cfg
  inbox := []
  draws := []
  events := []
  freeCount := 0
  regionSeed := 0

end Sys2Proof.Machine
end

