-- ==== Sys2Proof/Machine/Flags.lean ====
section
/-! DEFINITION. The block stores no flags (spec/10_state.md R25): the derived quantities `used`, `free`, `is_empty`, the
tests the operations make on them (20_memory.md R70), and the power-of-two test (R71). -/

namespace Sys2Proof.Machine

/-- `used = write_pos -_64 read_pos` (R25, R70). -/
def usedOf (w r : Word) : Word := w - r

/-- `free = capacity - used` (R25, R70). -/
def freeOf (capacity w r : Word) : Word := capacity - usedOf w r

/-- `is_empty = (write_pos = read_pos)` (R25). -/
def isEmptyOf (w r : Word) : Bool := decide (w = r)

/-- `used` by the block's own pointers. -/
def State.used (s : State) : Word := usedOf s.writePos s.readPos

/-- `free` by the block's own pointers. -/
def State.free (s : State) : Word := freeOf s.capacity s.writePos s.readPos

/-- `is_empty` by the block's own pointers. -/
def State.isEmpty (s : State) : Bool := isEmptyOf s.writePos s.readPos

/-- `c & (c - 1) = 0` (R71; 41_ring_ops.md R140 applies it to capacities of at least 16, so `c` is not 0). -/
def isPowerOfTwo (c : Word) : Bool := decide (c &&& (c - 1#64) = 0#64)

/-- `capacity > 2^K_MAX` (41_ring_ops.md R140). -/
def beyondInstance (c : Word) : Bool := decide (2 ^ Config.kMax < c.toNat)

/-- The answer to a status query (41_ring_ops.md R148, R149, R150). -/
def queryResult (q : Query) (capacity w r : Word) : OkFields :=
  match q with
  | .used => .value (usedOf w r)
  | .free => .value (freeOf capacity w r)
  | .isEmpty => .bit (isEmptyOf w r)

end Sys2Proof.Machine
end

