-- ==== Sys2Proof/Machine/Region.lean ====
section
/-! DEFINITION. The byte region (spec/10_state.md R26) as a list of cells in one canonical form, and the two region access
primitives `MemWrite` and `MemRead` (20_memory.md R72, R73), byte by byte. -/

namespace Sys2Proof.Machine

/-- The byte listed at a physical offset, if one is. -/
def Region.get? : Region → Nat → Option Byte
  | [], _ => none
  | (a, b) :: rest, o => if a = o then some b else Region.get? rest o

/-- Store one byte; the offsets stay strictly rising. -/
def Region.set : Region → Nat → Byte → Region
  | [], o, v => [(o, v)]
  | (a, b) :: rest, o, v =>
    if o < a then (o, v) :: (a, b) :: rest
    else if o = a then (o, v) :: rest
    else (a, b) :: Region.set rest o v

/-- Every listed offset is above `lo`, and they rise. -/
def Region.above (lo : Nat) : Region → Bool
  | [] => true
  | (a, _) :: rest => decide (lo < a) && Region.above a rest

/-- The canonical form: offsets strictly rising (so none is listed twice). An unlisted offset holds no value, so no
entry can equal what an unlisted one reads as. -/
def Memory.wf : Region → Bool
  | [] => true
  | (a, _) :: rest => Region.above a rest

/-- The physical offset of a logical position: `p & mask` (20_memory.md R68). -/
def State.offsetOf (s : State) (p : Word) : Nat := (p &&& s.mask).toNat

/-- The byte at a physical offset. A byte that no `WRITE_EVENT` since `NEW` has stored has an arbitrary content that is
fixed at `NEW`: a free value (93 U1; log entry 9). -/
def State.byteAt (s : State) (o : Nat) : Byte :=
  match Region.get? s.region o with
  | some b => b
  | none => Config.unwrittenByte s.regionSeed o

/-- The loop of `MemWrite`: `region[(pos +_64 i) & mask] <- v[i]` (R72). -/
def writeFrom (mask pos : Word) : List Byte → Region → Region
  | [], m => m
  | b :: bs, m => writeFrom mask (pos + 1#64) bs (Region.set m (pos &&& mask).toNat b)

/-- The loop of `MemRead`: `[region[(pos +_64 i) & mask] for i = 0 .. n-1]` (R73). -/
def State.readFrom (s : State) (pos : Word) : Nat → List Byte
  | 0 => []
  | n + 1 => s.byteAt (s.offsetOf pos) :: State.readFrom s (pos + 1#64) n

end Sys2Proof.Machine
end

