-- ==== Sys2Proof/Machine/Ops.lean ====
section
/-! DEFINITION. The operations the meanings share: ports and responses (an error response is this block's exception,
spec/60_exceptions.md R201), the legality conditions of 30_encoding.md R110, the region access primitives with their
preconditions, and the pointer access primitives of 20_memory.md R78 to R80. -/

namespace Sys2Proof.Machine

/-- How a step ends. -/
abbrev Result := Host.Outcome State Fault Refusal

/-! ## Ports -/

/-- What a port is doing. -/
def State.portState (s : State) : Port → PortState
  | .cfg => s.cfg
  | .prod => s.prod
  | .cons => s.cons

/-- Set what a port is doing. -/
def State.setPort (s : State) (p : Port) (x : PortState) : State :=
  match p with
  | .cfg => { s with cfg := x }
  | .prod => { s with prod := x }
  | .cons => { s with cons := x }

/-- Record an event at the port of the step (42_spsc_ops.md R164). -/
def State.log (s : State) (a : Action) : State := { s with events := s.events ++ [Event.mk s.port a] }

/-! ## Responses: the exception of this block, and the return from it -/

/-- The operation ends with this response, due at its port (41_ring_ops.md R141). -/
def State.post (s : State) (r : Response) : State := s.setPort s.port (.responding r)

/-- End the operation with success (00_scope.md R13: `return Ok`). -/
def finish (fields : OkFields) (s : State) : Result := .next (s.post (.ok fields))

/-- `raise`: end the operation with an error response, or with `None`. Nothing is saved, no mode changes, no handler is
entered: the response carries everything recorded (60_exceptions.md R190, R201; 00_scope.md R13). -/
def raise (r : Response) (s : State) : Result := .next (s.post r)

/-- The response is handed over and the port is ready for the next request at once; nothing is restored (60_exceptions.md
R202, 42_spsc_ops.md R164). -/
def State.deliver (s : State) (r : Response) : State := (s.log (.response r)).setPort s.port .idle

/-- Hand over a response that is due in the given form; none other can be (41_ring_ops.md R141). -/
def handOver (due : PortState) (r : Response) (s : State) : Result :=
  if s.portState s.port = due then .next (s.deliver r) else .refused .responseNotDue

/-! ## Legality (30_encoding.md R110, R113; 41_ring_ops.md R141) -/

/-- The producer-side commands are legal in this phase, mode and with this handle flag. -/
def State.prodMay (s : State) : Bool :=
  (decide (s.phase = .whole) && decide (s.mode = .single)) || (decide (s.phase = .split) && s.prodAlive)

/-- The consumer-side commands are legal in this phase, mode and with this handle flag. -/
def State.consMay (s : State) : Bool :=
  (decide (s.phase = .whole) && decide (s.mode = .single)) || (decide (s.phase = .split) && s.consAlive)

/-- `NEW`: port `CFG`, phase `Unconfigured`. -/
def State.newLegal (s : State) : Bool := decide (s.port = .cfg) && decide (s.phase = .unconfigured)

/-- `SPLIT`: port `CFG`, phase `Whole`, mode `SPSC`. -/
def State.splitLegal (s : State) : Bool :=
  decide (s.port = .cfg) && decide (s.phase = .whole) && decide (s.mode = .spsc)

/-- `DROP_RING`: port `CFG`, phase `Whole`. -/
def State.dropRingLegal (s : State) : Bool := decide (s.port = .cfg) && decide (s.phase = .whole)

/-- `WRITE_EVENT`: port `PROD`. -/
def State.writeLegal (s : State) : Bool := decide (s.port = .prod) && s.prodMay

/-- `DROP_PRODUCER`: port `PROD`, phase `Split`, `prod_alive`. -/
def State.dropProducerLegal (s : State) : Bool :=
  decide (s.port = .prod) && decide (s.phase = .split) && s.prodAlive

/-- `READ_EVENT`: port `CONS`. -/
def State.readLegal (s : State) : Bool := decide (s.port = .cons) && s.consMay

/-- `DROP_CONSUMER`: port `CONS`, phase `Split`, `cons_alive`. -/
def State.dropConsumerLegal (s : State) : Bool :=
  decide (s.port = .cons) && decide (s.phase = .split) && s.consAlive

/-- `USED`, `FREE`, `IS_EMPTY`: as `WRITE_EVENT` on `PROD`, as `READ_EVENT` on `CONS`. -/
def State.queryLegal (s : State) : Bool := s.writeLegal || s.readLegal

/-- Legality first: a command that is not legal here is answered `BAD_COMMAND` with its code and changes no state. -/
def whenLegal (legal : Bool) (code : Byte) (op : Result) (s : State) : Result :=
  if legal then op else raise (.badCommand code) s

/-! ## Region access -/

/-- `MemWrite(pos, n, v)`; its precondition is `n <= capacity` (20_memory.md R72). All bytes are stored at once (R76). -/
def memWrite (pos : Word) (bytes : List Byte) (s : State) : Except Fault State :=
  if s.capacity.toNat < bytes.length then .error .accessLongerThanRegion
  else .ok ({ s with region := writeFrom s.mask pos bytes s.region }.log (.memWrite pos bytes))

/-- `MemRead(pos, n)`; its precondition is `n <= capacity` (20_memory.md R73). -/
def memRead (pos : Word) (n : Nat) (s : State) : Except Fault (List Byte × State) :=
  if s.capacity.toNat < n then .error .accessLongerThanRegion
  else .ok (s.readFrom pos n, s.log (.memRead pos (s.readFrom pos n)))

/-! ## Pointer access in mode `SPSC` -/

/-- Which element of a pointer's history an acquire-load returns, counted from the loader's snapshot on: any that is not
older (20_memory.md R80); `d` is the draw. A history that ends before the snapshot occurs in no run (log entry 10): the
pointer itself is returned. -/
def acqPick (newer : List Word) (now : Word) (d : Nat) : Nat × Word :=
  match newer[d % newer.length]? with
  | some v => (d % newer.length, v)
  | none => (0, now)

/-- The draw of the next acquire-load: the next of those given, else a free value (93 U10; log entry 10). -/
def State.draw (s : State) : Nat :=
  match s.draws with
  | d :: _ => d
  | [] => Config.acqDraw s.freeCount

/-- `AcqLoad(read_pos)` by the producer side with draw `d`; the snapshot becomes the value returned (R80, 10_state.md R33). -/
def acqLoadReadPos (d : Nat) (s : State) : State :=
  { s with
    pSeenR := (acqPick (s.histR.drop s.pSeenAt) s.readPos d).2
    pSeenAt := s.pSeenAt + (acqPick (s.histR.drop s.pSeenAt) s.readPos d).1
    draws := s.draws.tail
    freeCount := s.freeCount + 1 }.log (.acqLoad .readPos (acqPick (s.histR.drop s.pSeenAt) s.readPos d).2)

/-- `AcqLoad(write_pos)` by the consumer side with draw `d`. -/
def acqLoadWritePos (d : Nat) (s : State) : State :=
  { s with
    cSeenW := (acqPick (s.histW.drop s.cSeenAt) s.writePos d).2
    cSeenAt := s.cSeenAt + (acqPick (s.histW.drop s.cSeenAt) s.writePos d).1
    draws := s.draws.tail
    freeCount := s.freeCount + 1 }.log (.acqLoad .writePos (acqPick (s.histW.drop s.cSeenAt) s.writePos d).2)

/-- `OwnLoad(p)`: the pointer's own value (R78). -/
def State.pointer (s : State) : Pointer → Word
  | .writePos => s.writePos
  | .readPos => s.readPos

/-- `OwnLoad(p)` as an event. -/
def ownLoad (p : Pointer) (s : State) : State := s.log (.ownLoad p (s.pointer p))

/-- A pointer moves from `now` on to `next`: its count without wrap moves as far (10_state.md R24). -/
def countOn (total : Nat) (now next : Word) : Nat := total + (next - now).toNat

/-- `RelStore(write_pos, v)`: the pointer and its history (R79). -/
def relStoreWritePos (v : Word) (s : State) : State :=
  { s with
    writePos := v
    published := countOn s.published s.writePos v
    histW := s.histW ++ [v] }.log (.relStore .writePos v)

/-- `RelStore(read_pos, v)`. -/
def relStoreReadPos (v : Word) (s : State) : State :=
  { s with
    readPos := v
    released := countOn s.released s.readPos v
    histR := s.histR ++ [v] }.log (.relStore .readPos v)

/-! ## The life of the ring -/

/-- A new, empty ring (41_ring_ops.md R140): the region's bytes are not initialised, so none is listed, and their
arbitrary content is a new one (93 U1). -/
def State.create (s : State) (mode : Mode) (capacity : Word) : State :=
  { s with
    phase := .whole
    mode := mode
    capacity := capacity
    mask := capacity - 1#64
    writePos := 0#64
    readPos := 0#64
    prodAlive := false
    consAlive := false
    pSeenR := 0#64
    cSeenW := 0#64
    histW := [0#64]
    histR := [0#64]
    pSeenAt := 0
    cSeenAt := 0
    published := 0
    released := 0
    region := []
    regionSeed := s.freeCount
    freeCount := s.freeCount + 1 }

/-- The ring is gone: `phase` is `Unconfigured`, and `capacity`, `mask`, `mode`, the pointers, the region, the snapshots
and the histories hold no value (10_state.md R30, 41_ring_ops.md R151, 93 U16; log entry 8). -/
def State.loseRing (s : State) : State :=
  { s with
    phase := .unconfigured
    mode := if Config.lostBit s.freeCount then .spsc else .single
    capacity := Config.lostWord s.freeCount 0
    mask := Config.lostWord s.freeCount 1
    writePos := Config.lostWord s.freeCount 2
    readPos := Config.lostWord s.freeCount 3
    pSeenR := Config.lostWord s.freeCount 4
    cSeenW := Config.lostWord s.freeCount 5
    histW := []
    histR := []
    pSeenAt := 0
    cSeenAt := 0
    published := 0
    released := 0
    region := []
    freeCount := s.freeCount + 1 }

end Sys2Proof.Machine
end

