-- ==== Sys2Proof/Machine/Framing.lean ====
section
/-! DEFINITION. The framing functions (spec/40_framing.md): legal on any port in any phase, they read and write no state
of the ring; and the reserved command codes. -/

namespace Sys2Proof.Machine

/-- `HEADER_SIZE` (R130). -/
def execHeaderSize (s : State) : Result := finish (.size (BitVec.ofNat 64 Config.headerSize)) s

/-- `TOTAL_SIZE` (R131). -/
def execTotalSize (payloadLen : Half) (s : State) : Result := finish (.size (needOf payloadLen)) s

/-- `HEADER_NEW` (R132): `flags` is zero. -/
def execHeaderNew (timestamp : Word) (eventType : Byte) (payloadLen : Half) (s : State) : Result :=
  finish (.header timestamp eventType 0x00#8 payloadLen) s

/-- `ENCODE_HEADER` (R133). -/
def execEncodeHeader (timestamp : Word) (eventType flags : Byte) (payloadLen : Half) (s : State) : Result :=
  finish (.encoded (encodeHeader timestamp eventType flags payloadLen)) s

/-- `DECODE_HEADER` (R134): every header decodes; the reserved bytes are returned as found. -/
def execDecodeHeader (header : HeaderBits) (s : State) : Result :=
  finish (.decoded (headerTimestamp header) (headerEventType header) (headerFlags header) (headerPayloadLen header)
    (headerReserved header)) s

/-- A request whose code is in no row (30_encoding.md R113). -/
def execReservedCode (code : Byte) (s : State) : Result := raise (.badCommand code) s

end Sys2Proof.Machine
end

