-- ==== Sys2Proof/Machine/Lifecycle.lean ====
section
/-! DEFINITION. `NEW`, `SPLIT`, `DROP_RING`, `DROP_PRODUCER`, `DROP_CONSUMER`. -/

namespace Sys2Proof.Machine

/-- 41_ring_ops.md R140: "too small" is tested before "not power of two" (60_exceptions.md R200). -/
def newRing (mode : Mode) (capacity : Word) (s : State) : Result :=
  if capacity < Config.minCapacity then raise (.invalidCapacity capacity .tooSmall) s
  else if !isPowerOfTwo capacity then raise (.invalidCapacity capacity .notPowerOfTwo) s
  else if beyondInstance capacity then .refused .capacityBeyondInstance
  else finish .empty (s.create mode capacity)

/-- `NEW` (41_ring_ops.md R140). -/
def execNew (mode : Mode) (capacity : Word) (s : State) : Result :=
  whenLegal s.newLegal 0x00#8 (newRing mode capacity s) s

/-- `SPLIT` (42_spsc_ops.md R160). -/
def execSplit (s : State) : Result :=
  whenLegal s.splitLegal 0x01#8 (finish .empty { s with phase := .split, prodAlive := true, consAlive := true }) s

/-- `DROP_RING` (41_ring_ops.md R151). -/
def execDropRing (s : State) : Result :=
  whenLegal s.dropRingLegal 0x02#8 (finish .empty s.loseRing) s

/-- `DROP_PRODUCER` (42_spsc_ops.md R174): the second of the two drops reclaims the region. -/
def execDropProducer (s : State) : Result :=
  whenLegal s.dropProducerLegal 0x11#8
    (finish .empty (if s.consAlive then { s with prodAlive := false } else { s with prodAlive := false }.loseRing)) s

/-- `DROP_CONSUMER` (42_spsc_ops.md R175). -/
def execDropConsumer (s : State) : Result :=
  whenLegal s.dropConsumerLegal 0x21#8
    (finish .empty (if s.prodAlive then { s with consAlive := false } else { s with consAlive := false }.loseRing)) s

end Sys2Proof.Machine
end

