-- ==== Sys2Proof/Machine/Ring.lean ====
section
/-! DEFINITION. `WRITE_EVENT` and `READ_EVENT`: one indivisible step in mode `SINGLE` (spec/41_ring_ops.md R143, R146,
R147); in mode `SPSC` the request starts the step-by-step protocol of 42_spsc_ops.md R168 and R169 (Machine/Micro.lean). -/

namespace Sys2Proof.Machine

/-- `WRITE_EVENT` in mode `SINGLE` (41_ring_ops.md R146). -/
def writeSingle (f : Frame) (s : State) : Result :=
  if s.free < f.need then raise (.notEnoughSpace f.need s.free) s
  else
    match memWrite s.writePos f.bytes s with
    | .error e => .fault e
    | .ok t =>
      finish .empty { t with
        writePos := s.writePos + f.need
        published := countOn s.published s.writePos (s.writePos + f.need) }

/-- `WRITE_EVENT` once it is legal: the precondition (41_ring_ops.md R146, 93 U2), then the mode's own form. -/
def writeEvent (f : Frame) (s : State) : Result :=
  if !f.agrees then .refused .payloadLengthMismatch
  else if s.phase = .split then .next (s.setPort s.port (.p1 f))
  else writeSingle f s

/-- `WRITE_EVENT` (41_ring_ops.md R146, 42_spsc_ops.md R168). -/
def execWriteEvent (timestamp : Word) (eventType flags : Byte) (payloadLen : Half) (payload : List Byte) (s : State) :
    Result :=
  whenLegal s.writeLegal 0x10#8 (writeEvent (Frame.mk timestamp eventType flags payloadLen payload) s) s

/-- The second half of `READ_EVENT` in mode `SINGLE`: the header `h` is read, `s` is the state at the operation's start and
`t` the state now (41_ring_ops.md R147). -/
def readPayloadSingle (h : HeaderBits) (s t : State) : Result :=
  if s.used < needOf (headerPayloadLen h) then raise .none t
  else
    match memRead (s.readPos + 16#64) (headerPayloadLen h).toNat t with
    | .error e => .fault e
    | .ok (payload, u) =>
      finish (.event h payload) { u with
        readPos := s.readPos + needOf (headerPayloadLen h)
        released := countOn s.released s.readPos (s.readPos + needOf (headerPayloadLen h)) }

/-- `READ_EVENT` in mode `SINGLE` (41_ring_ops.md R147). -/
def readSingle (s : State) : Result :=
  if s.used < 16#64 then raise .none s
  else
    match memRead s.readPos 16 s with
    | .error e => .fault e
    | .ok (header, t) => readPayloadSingle (headerOfBytes header) s t

/-- `READ_EVENT` (41_ring_ops.md R147, 42_spsc_ops.md R169). -/
def execReadEvent (s : State) : Result :=
  whenLegal s.readLegal 0x20#8 (if s.phase = .split then .next (s.setPort s.port .c1) else readSingle s) s

end Sys2Proof.Machine
end

