-- ==== Sys2Proof/Machine/Status.lean ====
section
/-! DEFINITION. The status queries `USED`, `FREE`, `IS_EMPTY`: one step by the block's own pointers in mode `SINGLE`
(spec/41_ring_ops.md R148 to R150), two loads in mode `SPSC` (42_spsc_ops.md R172, Machine/Micro.lean). -/

namespace Sys2Proof.Machine

/-- A status query once it is legal. -/
def queryStatus (q : Query) (s : State) : Result :=
  if s.phase = .split then .next (s.setPort s.port (.q1 q))
  else finish (queryResult q s.capacity s.writePos s.readPos) s

/-- `USED` (R148). -/
def execUsed (s : State) : Result := whenLegal s.queryLegal 0x40#8 (queryStatus .used s) s

/-- `FREE` (R149). -/
def execFree (s : State) : Result := whenLegal s.queryLegal 0x41#8 (queryStatus .free s) s

/-- `IS_EMPTY` (R150). -/
def execIsEmpty (s : State) : Result := whenLegal s.queryLegal 0x42#8 (queryStatus .isEmpty s) s

end Sys2Proof.Machine
end

