-- ==== Sys2Proof/Machine/Transfer.lean ====
section
/-! DEFINITION. The rows of the opcode table that are no commands: the response statuses (spec/30_encoding.md R111), the
reason codes (R112) and the frame header (R100). A response status is the response crossing its port; `INVALID_CAPACITY`
crosses in two steps, its status with `capacity` and then its reason code (log entry 4). The frame header is step C3 of a
`READ_EVENT` in mode `SPSC`: the header met at `read_pos` says how long the frame is (R107, 42_spsc_ops.md R169; log entry 5). -/

namespace Sys2Proof.Machine

/-- `OK` (R111). -/
def execRspOk (fields : OkFields) (s : State) : Result := handOver (.responding (.ok fields)) (.ok fields) s

/-- `NONE` (R111, 60_exceptions.md R193). -/
def execRspNone (s : State) : Result := handOver (.responding .none) .none s

/-- `INVALID_CAPACITY` (R111, 60_exceptions.md R191): the status and the capacity cross, the reason code is due. -/
def execRspInvalidCapacity (capacity : Word) (reason : Reason) (s : State) : Result :=
  if s.portState s.port = .responding (.invalidCapacity capacity reason) then
    .next (s.setPort s.port (.reasonDue capacity reason))
  else .refused .responseNotDue

/-- `NOT_ENOUGH_SPACE` (R111, 60_exceptions.md R192). -/
def execRspNotEnoughSpace (required available : Word) (s : State) : Result :=
  handOver (.responding (.notEnoughSpace required available)) (.notEnoughSpace required available) s

/-- `BAD_COMMAND` (R111, 60_exceptions.md R194). -/
def execRspBadCommand (cmd : Byte) (s : State) : Result := handOver (.responding (.badCommand cmd)) (.badCommand cmd) s

/-- A reason code completes the `INVALID_CAPACITY` response that owes it (R112). -/
def handOverReason (reason : Reason) (s : State) : Result :=
  match s.portState s.port with
  | .reasonDue capacity due =>
    if due = reason then .next (s.deliver (.invalidCapacity capacity reason)) else .refused .responseNotDue
  | _ => .refused .responseNotDue

/-- `"too small"` (R112). -/
def execReasonTooSmall (s : State) : Result := handOverReason .tooSmall s

/-- `"not power of two"` (R112). -/
def execReasonNotPowerOfTwo (s : State) : Result := handOverReason .notPowerOfTwo s

/-- The frame header at `read_pos` (R107): `need = 16 + payload_len`; the frame is read on when it is wholly present, else
the answer is `None` and nothing advances (42_spsc_ops.md R169, step C3 after the `MemRead`). -/
def execFrameHeader (timestamp : Word) (eventType flags : Byte) (payloadLen : Half) (reserved : Reserved) (s : State) :
    Result :=
  match s.portState s.port with
  | .c3 w r =>
    if usedOf w r < needOf payloadLen then raise .none s
    else .next (s.setPort s.port (.c4 r (packHeader timestamp eventType flags payloadLen reserved) payloadLen))
  | _ => .refused .headerNotDue

end Sys2Proof.Machine
end

