-- ==== Sys2Proof/Machine/Dispatch.lean ====
section
/-! DEFINITION. The dispatch: one arm per constructor of `Instr`. -/

namespace Sys2Proof.Machine

def exec (i : Instr) (s : State) : Host.Outcome State Fault Refusal :=
  match i with
  | .new mode capacity => Sys2Proof.Machine.execNew mode capacity s
  | .split => Sys2Proof.Machine.execSplit s
  | .dropRing => Sys2Proof.Machine.execDropRing s
  | .writeEvent timestamp eventType flags payloadLen payload => Sys2Proof.Machine.execWriteEvent timestamp eventType flags payloadLen payload s
  | .dropProducer => Sys2Proof.Machine.execDropProducer s
  | .readEvent => Sys2Proof.Machine.execReadEvent s
  | .dropConsumer => Sys2Proof.Machine.execDropConsumer s
  | .headerSize => Sys2Proof.Machine.execHeaderSize s
  | .totalSize payloadLen => Sys2Proof.Machine.execTotalSize payloadLen s
  | .headerNew timestamp eventType payloadLen => Sys2Proof.Machine.execHeaderNew timestamp eventType payloadLen s
  | .encodeHeader timestamp eventType flags payloadLen => Sys2Proof.Machine.execEncodeHeader timestamp eventType flags payloadLen s
  | .decodeHeader header => Sys2Proof.Machine.execDecodeHeader header s
  | .used => Sys2Proof.Machine.execUsed s
  | .free => Sys2Proof.Machine.execFree s
  | .isEmpty => Sys2Proof.Machine.execIsEmpty s
  | .reservedCode code => Sys2Proof.Machine.execReservedCode code s
  | .frameHeader timestamp eventType flags payloadLen reserved => Sys2Proof.Machine.execFrameHeader timestamp eventType flags payloadLen reserved s
  | .rspOk fields => Sys2Proof.Machine.execRspOk fields s
  | .rspNone => Sys2Proof.Machine.execRspNone s
  | .rspInvalidCapacity capacity reason => Sys2Proof.Machine.execRspInvalidCapacity capacity reason s
  | .rspNotEnoughSpace required available => Sys2Proof.Machine.execRspNotEnoughSpace required available s
  | .rspBadCommand cmd => Sys2Proof.Machine.execRspBadCommand cmd s
  | .reasonTooSmall => Sys2Proof.Machine.execReasonTooSmall s
  | .reasonNotPowerOfTwo => Sys2Proof.Machine.execReasonNotPowerOfTwo s

end Sys2Proof.Machine
end

