-- ==== Sys2Proof/Machine/Fetch.lean ====
section
/-! DEFINITION. Where the next thing to do comes from: requests at the ports (spec/30_encoding.md R109, 70_reset_and_hazards.md
R226), responses that are due, frame headers in the region. And what `withFetchWord` places. -/

namespace Sys2Proof.Machine

/-- The step is taken at port `p`, and the input that asked for it is used up. -/
def State.at (s : State) (p : Port) (rest : List Input) : State := { s with port := p, inbox := rest }

/-- A port may be given a request: the response to the one before it has been handed over; in mode `SINGLE` one agent keeps
all three ports sequential (70_reset_and_hazards.md R226; log entry 15). -/
def State.ready (s : State) (p : Port) : Bool :=
  if s.phase = .whole ∧ s.mode = .single then decide (s.cfg = .idle ∧ s.prod = .idle ∧ s.cons = .idle)
  else decide (s.portState p = .idle)

/-- The row of the opcode table a response stands in (30_encoding.md R111). -/
def rowOfResponse : Response → Instr
  | .ok fields => .rspOk fields
  | .none => .rspNone
  | .invalidCapacity capacity reason => .rspInvalidCapacity capacity reason
  | .notEnoughSpace required available => .rspNotEnoughSpace required available
  | .badCommand cmd => .rspBadCommand cmd

/-- The row of the opcode table a reason code stands in (30_encoding.md R112). -/
def rowOfReason : Reason → Instr
  | .tooSmall => .reasonTooSmall
  | .notPowerOfTwo => .reasonNotPowerOfTwo

/-- The port whose request this code is; the framing functions may come at any port, the status queries at `PROD` or `CONS`
(30_encoding.md R110). -/
def portOfCode (w : Nat) : Port :=
  if w % 256 / 16 = 1 then .prod
  else if w % 256 / 16 = 2 then .cons
  else if w % 256 / 16 = 4 then .prod
  else .cfg

/-- The outside world hands in more, behind what is already to come: inputs, and draws of acquire-loads. It can do so between any two
steps (log entries 3, 10). -/
def State.arrive (s : State) (inputs : List Input) (draws : List Nat) : State :=
  { s with inbox := s.inbox ++ inputs, draws := s.draws ++ draws }

/-- The request whose bits are `w`, numbered as the opcode table numbers them, is the next thing that happens, at its port, and
no port is in the way. -/
def State.withRequest (s : State) (nbits w : Nat) : State :=
  { s with
    cfg := .idle
    prod := .idle
    cons := .idle
    inbox := .request (portOfCode w) (tableBytes nbits w) :: s.inbox }

/-- The header whose bits are `w` is the next thing that happens: it stands at `read_pos` of a 16-byte ring in phase `Split`, and
a `READ_EVENT` is at step C3 (log entry 6). -/
def State.withHeader (s : State) (w : Nat) : State :=
  { s with
    phase := .split
    mode := .spsc
    consAlive := true
    capacity := 16#64
    mask := 15#64
    writePos := s.readPos + 16#64
    region := writeFrom 15#64 s.readPos (leBytes 16 w) []
    cons := .c3 (s.readPos + 16#64) s.readPos
    inbox := .advance .cons :: s.inbox }

end Sys2Proof.Machine
end

