-- ==== Sys2Proof/Machine/Micro.lean ====
section
/-! DEFINITION. The steps of an operation in mode `SPSC` (spec/42_spsc_ops.md R168, R169, R172), one definition a step. Each
leaves at its port what the next step needs. Step C3 reads the header here and goes on in `execFrameHeader`. -/

namespace Sys2Proof.Machine

/-- P1: `r = AcqLoad(read_pos)`. -/
def stepP1 (f : Frame) (s : State) : Result :=
  .next ((acqLoadReadPos s.draw s).setPort s.port
    (.p2 f (acqLoadReadPos s.draw s).pSeenR))

/-- P2: `w = OwnLoad(write_pos)` and the space test. -/
def stepP2 (f : Frame) (r : Word) (s : State) : Result :=
  if freeOf s.capacity s.writePos r < f.need then
    raise (.notEnoughSpace f.need (freeOf s.capacity s.writePos r)) (ownLoad .writePos s)
  else .next ((ownLoad .writePos s).setPort s.port (.p3 f s.writePos))

/-- P3: `MemWrite(w, need, frame)`. -/
def stepP3 (f : Frame) (w : Word) (s : State) : Result :=
  match memWrite w f.bytes s with
  | .error e => .fault e
  | .ok t => .next (t.setPort s.port (.p4 f w))

/-- P4: `RelStore(write_pos, w +_64 need)`. -/
def stepP4 (f : Frame) (w : Word) (s : State) : Result := finish .empty (relStoreWritePos (w + f.need) s)

/-- C1: `w = AcqLoad(write_pos)`. -/
def stepC1 (s : State) : Result :=
  .next ((acqLoadWritePos s.draw s).setPort s.port
    (.c2 (acqLoadWritePos s.draw s).cSeenW))

/-- C2: `r = OwnLoad(read_pos)` and the test `used < 16`. -/
def stepC2 (w : Word) (s : State) : Result :=
  if usedOf w s.readPos < 16#64 then raise .none (ownLoad .readPos s)
  else .next ((ownLoad .readPos s).setPort s.port (.c3 w s.readPos))

/-- C3, the `MemRead(r, 16)`: the header as an item of `Instr`, and the state after the read. -/
def fetchHeader (r : Word) (s : State) : Except Fault (Except DecodeError Instr × State) :=
  match memRead r 16 s with
  | .error e => .error e
  | .ok (bytes, t) => .ok (decode .hdr bytes, t)

/-- C4: `payload = MemRead(r +_64 16, n)`. -/
def stepC4 (r : Word) (header : HeaderBits) (n : Half) (s : State) : Result :=
  match memRead (r + 16#64) n.toNat s with
  | .error e => .fault e
  | .ok (payload, t) => .next (t.setPort s.port (.c5 r header n payload))

/-- C5: `RelStore(read_pos, r +_64 need)`. -/
def stepC5 (r : Word) (header : HeaderBits) (n : Half) (payload : List Byte) (s : State) : Result :=
  finish (.event header payload) (relStoreReadPos (r + needOf n) s)

/-- The acquire-load of a status query: of `read_pos` on port `PROD`, of `write_pos` on port `CONS` (R172). -/
def stepQ1 (q : Query) (s : State) : Result :=
  match s.port with
  | .prod =>
    .next ((acqLoadReadPos s.draw s).setPort s.port
      (.q2 q (acqLoadReadPos s.draw s).pSeenR))
  | _ =>
    .next ((acqLoadWritePos s.draw s).setPort s.port
      (.q2 q (acqLoadWritePos s.draw s).cSeenW))

/-- The own load of a status query and its answer (R172). -/
def stepQ2 (q : Query) (v : Word) (s : State) : Result :=
  match s.port with
  | .prod => finish (queryResult q s.capacity s.writePos v) (ownLoad .writePos s)
  | _ => finish (queryResult q s.capacity v s.readPos) (ownLoad .readPos s)

end Sys2Proof.Machine
end

