-- ==== Sys2Proof/Machine/Step.lean ====
section
/-! DEFINITION. One step of the machine: the next input is taken. A request is decoded and executed; an `advance` does the next
step of what is in progress at a port. Without an input the block is idle (spec/60_exceptions.md R212, 70_reset_and_hazards.md
R222). -/

namespace Sys2Proof.Machine

/-- A request on the port of the step: at a port that is ready, the decoded instruction is executed. -/
def request (bytes : List Byte) (s : State) : Result :=
  if !s.ready s.port then .refused .requestBeforeResponse
  else
    match decode .cmd bytes with
    | .error _ => .refused .malformedRequest
    | .ok i => exec i (s.log (.request i))

/-- Step C3 (42_spsc_ops.md R169): the header at `r` is read and executed as the item of the opcode table it is. -/
def stepC3 (r : Word) (s : State) : Result :=
  match fetchHeader r s with
  | .error e => .fault e
  | .ok (.error _, _) => .refused .headerNotDue
  | .ok (.ok i, t) => exec i t

/-- The next step of what is in progress at the port of the step. -/
def advance (s : State) : Result :=
  match s.portState s.port with
  | .idle => .next s
  | .responding r => exec (rowOfResponse r) s
  | .reasonDue _ reason => exec (rowOfReason reason) s
  | .p1 f => stepP1 f s
  | .p2 f r => stepP2 f r s
  | .p3 f w => stepP3 f w s
  | .p4 f w => stepP4 f w s
  | .c1 => stepC1 s
  | .c2 w => stepC2 w s
  | .c3 _ r => stepC3 r s
  | .c4 r header n => stepC4 r header n s
  | .c5 r header n payload => stepC5 r header n payload s
  | .q1 q => stepQ1 q s
  | .q2 q v => stepQ2 q v s

/-- One step. -/
def step (s : State) : Host.Outcome State Fault Refusal :=
  match s.inbox with
  | [] => .next s
  | .request p bytes :: rest => request bytes (s.at p rest)
  | .advance p :: rest => advance (s.at p rest)

/-- `s` with the instruction of the opcode table whose bits are `w` placed where the next step takes it from. -/
def State.withFetchWord (s : State) (nbits w : Nat) : State :=
  match tableFormat nbits with
  | .hdr => s.withHeader w
  | _ => s.withRequest nbits w

end Sys2Proof.Machine
end

