-- ==== Sys2Proof/Machine/Pseudo.lean ====
section
/-! DEFINITION. The pseudo-operations `WRITE` and `DRAIN` (spec/30_encoding.md R117): they have no encoding of their own. -/

namespace Sys2Proof.Machine

/-- `WRITE ts=T, type=E, payload=P` expands to `HEADER_NEW`, then `WRITE_EVENT` with the header that returns, so with
`flags=0` (R117). -/
def expandWrite (timestamp : Word) (eventType : Byte) (payload : List Byte) : List Instr :=
  [.headerNew timestamp eventType (BitVec.ofNat 16 payload.length),
   .writeEvent timestamp eventType 0x00#8 (BitVec.ofNat 16 payload.length) payload]

/-- `DRAIN limit=L` at the read port in mode `SINGLE`: `READ_EVENT` until it has given `L` frames or answers `NONE`; the frames
in order, and the state after (R117). With `limit=0` no `READ_EVENT` is issued. -/
def drain : Nat → State → List (HeaderBits × List Byte) × State
  | 0, s => ([], s)
  | n + 1, s =>
    match exec .readEvent s with
    | .next t =>
      match t.portState t.port with
      | .responding (.ok (.event h p)) =>
        ((h, p) :: (drain n (t.deliver (.ok (.event h p)))).1, (drain n (t.deliver (.ok (.event h p)))).2)
      | .responding r => ([], t.deliver r)
      | _ => ([], t)
    | .fault _ => ([], s)
    | .refused _ => ([], s)

/-- `DRAIN` without a limit: a frame has at least 16 bytes, so there are never more than `used / 16` of them (R117). -/
def drainAll (s : State) : List (HeaderBits × List Byte) × State := drain (s.used.toNat / 16 + 1) s

end Sys2Proof.Machine
end

