-- ==== Sys2Proof/Machine/RegMap.lean ====
section
/-! DEFINITION. The pointer register block (spec/10_state.md R31; decision D13), a view of the state: no operation takes a
register offset as an operand (20_memory.md R60), so nothing here changes the state. And the capabilities that stand in
the place of privilege modes (60_exceptions.md R206). -/

namespace Sys2Proof.Machine

/-- The registers of the block (R31). -/
inductive Reg where
  | writePos
  | readPos
  | capacity
  | mask
  | config
deriving DecidableEq, Repr

/-- Offset from the base of the register block; the base is aligned to 128 bytes (R31). -/
def Reg.offset : Reg → Nat
  | .writePos => 0x000
  | .readPos => 0x080
  | .capacity => 0x100
  | .mask => 0x108
  | .config => 0x110

/-- Size in bytes (R31). -/
def Reg.size : Reg → Nat
  | .writePos => 8
  | .readPos => 8
  | .capacity => 8
  | .mask => 8
  | .config => 1

/-- The two sides of the ring. -/
inductive Side where
  | producer
  | consumer
deriving DecidableEq, Repr

/-- Access of a side to a register (R31). -/
inductive Access where
  | readWrite
  | readOnly
deriving DecidableEq, Repr

/-- The access column of R31: each pointer is written by one side, the rest by neither. -/
def Reg.access : Reg → Side → Access
  | .writePos, .producer => .readWrite
  | .writePos, .consumer => .readOnly
  | .readPos, .consumer => .readWrite
  | .readPos, .producer => .readOnly
  | .capacity, _ => .readOnly
  | .mask, _ => .readOnly
  | .config, _ => .readOnly

/-- Bits 1:0 of `CONFIG` (R31). -/
def phaseBits : Phase → BitVec 2
  | .unconfigured => 0#2
  | .whole => 1#2
  | .split => 2#2

/-- Bit 2 of `CONFIG` (R31). -/
def modeBit : Mode → BitVec 1
  | .single => 0#1
  | .spsc => 1#1

/-- `CONFIG`: 7:5 zero, 4 `cons_alive`, 3 `prod_alive`, 2 `mode`, 1:0 `phase`; `0x00` in every `Unconfigured` state (R31). -/
def State.config (s : State) : Byte :=
  if s.phase = .unconfigured then 0x00#8
  else 0#3 ++ BitVec.ofBool s.consAlive ++ BitVec.ofBool s.prodAlive ++ modeBit s.mode ++ phaseBits s.phase

/-- The bytes of a register, little-endian (R31, 20_memory.md R61). -/
def State.regBytes (s : State) : Reg → List Byte
  | .writePos => bytesOfWord s.writePos
  | .readPos => bytesOfWord s.readPos
  | .capacity => bytesOfWord s.capacity
  | .mask => bytesOfWord s.mask
  | .config => [s.config]

/-- The byte of one register at an offset of the block, if the offset falls in it. -/
def State.regByteIn (s : State) (r : Reg) (o : Nat) : Option Byte :=
  if r.offset ≤ o then (s.regBytes r)[o - r.offset]? else none

/-- The byte at an offset of the register block; a pad has none: it is never read or written (R31). -/
def State.regByte (s : State) (o : Nat) : Option Byte :=
  (s.regByteIn .writePos o).orElse fun _ => (s.regByteIn .readPos o).orElse fun _ =>
    (s.regByteIn .capacity o).orElse fun _ => (s.regByteIn .mask o).orElse fun _ => s.regByteIn .config o

/-- The three capabilities (60_exceptions.md R206). -/
inductive Capability where
  | owner
  | producer
  | consumer
deriving DecidableEq, Repr

/-- When a capability exists (R206, R207). DEDUCED (log entry 29): `Owner` exists in phase `Unconfigured` too, as R206 has it ("trivially");
R207 has `NEW` create it and `DROP_RING` end it, which is read as `Owner` in phase `Whole`. -/
def State.exists_ (s : State) : Capability → Bool
  | .owner => decide (s.phase ≠ .split)
  | .producer => decide (s.phase = .split) && s.prodAlive
  | .consumer => decide (s.phase = .split) && s.consAlive

/-- Which capability drives a port (30_encoding.md R109, 41_ring_ops.md R142); none where the port has no driver: `PROD` and
`CONS` in mode `SPSC` before the split, or once their handle is dropped. -/
def State.driver (s : State) : Port → Option Capability
  | .cfg => if s.exists_ .owner then some .owner else none
  | .prod =>
    if s.phase = .whole ∧ s.mode = .single then some .owner
    else if s.exists_ .producer then some .producer else none
  | .cons =>
    if s.phase = .whole ∧ s.mode = .single then some .owner
    else if s.exists_ .consumer then some .consumer else none

end Sys2Proof.Machine
end

