-- ==== Sys2Proof/Safety.lean ====
section
/-! DEFINITION. What counts as a good state and a safe run, in the terms the statements use: the invariant of the ring (spec/10_state.md
R24, R27, R34, R40; 42_spsc_ops.md R170, R171), the queue of frames the region holds, the frame lifecycle (10_state.md R39), the
byte streams that go in and come out (42_spsc_ops.md R177), and fairness (20_memory.md R87). -/

namespace Sys2Proof.Safety

open Machine

/-! ## The invariant -/

/-- A ring exists (10_state.md R30). -/
def Configured (s : State) : Prop := s.phase ≠ .unconfigured

/-- The unread bytes, oldest first: the `used` bytes from `read_pos` on (10_state.md R40). -/
def unread (s : State) : List Byte := s.readFrom s.readPos s.used.toNat

/-- The ring holds exactly these frames, oldest first (10_state.md R40). -/
def Holds (s : State) (frames : List Frame) : Prop :=
  (∀ f ∈ frames, f.agrees = true) ∧ unread s = frames.flatMap Frame.bytes

/-- Capacity, mask, region and pointers of a configured ring (10_state.md R24, R26, R27; 00_scope.md R7). -/
structure Geometry (s : State) : Prop where
  capacity_pow : ∃ k, 4 ≤ k ∧ k ≤ Config.kMax ∧ s.capacity.toNat = 2 ^ k
  mask_eq : s.mask = s.capacity - 1#64
  used_le : s.used ≤ s.capacity
  inside : ∀ c ∈ s.region, c.1 < s.capacity.toNat

/-- Histories and snapshots in mode `SPSC` (10_state.md R33, R34; 20_memory.md R80; 42_spsc_ops.md R170): the histories end with
the pointers, the snapshots are elements of them, nothing newer lies behind a snapshot; the producer's snapshot is at or
behind `read_pos` and still leaves at most `capacity` bytes, the consumer's is between `read_pos` and `write_pos`. -/
structure Histories (s : State) : Prop where
  last_w : s.histW.getLast? = some s.writePos
  last_r : s.histR.getLast? = some s.readPos
  seen_r : s.histR[s.pSeenAt]? = some s.pSeenR
  seen_w : s.histW[s.cSeenAt]? = some s.cSeenW
  rising_r : (s.histR.drop s.pSeenAt).Pairwise fun a b => a - s.pSeenR ≤ b - s.pSeenR
  rising_w : (s.histW.drop s.cSeenAt).Pairwise fun a b => a - s.cSeenW ≤ b - s.cSeenW
  behind_r : s.readPos - s.pSeenR ≤ s.writePos - s.pSeenR
  room_r : s.writePos - s.pSeenR ≤ s.capacity
  behind_w : s.cSeenW - s.readPos ≤ s.writePos - s.readPos

/-- The counts of published and released bytes are the two pointers without their wrap, and differ by what is unread (10_state.md R24). -/
structure Counts (s : State) : Prop where
  readPos_eq : s.readPos = BitVec.ofNat 64 s.released
  published_eq : s.published = s.released + s.used.toNat

/-- What the producer side has in progress agrees with the state (42_spsc_ops.md R168). -/
def ProdOk (s : State) : PortState → Prop
  | .p1 f => s.phase = .split ∧ s.prodAlive = true ∧ f.agrees = true
  | .p2 f r => s.phase = .split ∧ s.prodAlive = true ∧ f.agrees = true ∧ r = s.pSeenR
  | .p3 f w => s.phase = .split ∧ s.prodAlive = true ∧ f.agrees = true ∧ w = s.writePos ∧
      f.need ≤ freeOf s.capacity s.writePos s.pSeenR
  | .p4 f w => s.phase = .split ∧ s.prodAlive = true ∧ f.agrees = true ∧ w = s.writePos ∧
      f.need ≤ freeOf s.capacity s.writePos s.pSeenR ∧ s.readFrom s.writePos f.bytes.length = f.bytes
  | .q1 _ => s.phase = .split ∧ s.prodAlive = true
  | .q2 _ _ => s.phase = .split ∧ s.prodAlive = true
  | .idle => True
  | .responding _ => True
  | .reasonDue _ _ => True
  | .c1 => False
  | .c2 _ => False
  | .c3 _ _ => False
  | .c4 _ _ _ => False
  | .c5 _ _ _ _ => False

/-- What the consumer side has in progress agrees with the state (42_spsc_ops.md R169). -/
def ConsOk (s : State) : PortState → Prop
  | .c1 => s.phase = .split ∧ s.consAlive = true
  | .c2 w => s.phase = .split ∧ s.consAlive = true ∧ w = s.cSeenW
  | .c3 w r => s.phase = .split ∧ s.consAlive = true ∧ w = s.cSeenW ∧ r = s.readPos ∧
      16#64 ≤ usedOf s.cSeenW s.readPos
  | .c4 r h n => s.phase = .split ∧ s.consAlive = true ∧ r = s.readPos ∧ n = headerPayloadLen h ∧
      needOf n ≤ usedOf s.cSeenW s.readPos ∧ s.readFrom s.readPos 16 = headerBytes h
  | .c5 r h n payload => s.phase = .split ∧ s.consAlive = true ∧ r = s.readPos ∧ n = headerPayloadLen h ∧
      needOf n ≤ usedOf s.cSeenW s.readPos ∧ s.readFrom s.readPos 16 = headerBytes h ∧
      s.readFrom (s.readPos + 16#64) n.toNat = payload
  | .q1 _ => s.phase = .split ∧ s.consAlive = true
  | .q2 _ _ => s.phase = .split ∧ s.consAlive = true
  | .idle => True
  | .responding _ => True
  | .reasonDue _ _ => True
  | .p1 _ => False
  | .p2 _ _ => False
  | .p3 _ _ => False
  | .p4 _ _ => False

/-- Nothing but a response is ever in progress at port `CFG`. -/
def CfgOk : PortState → Prop
  | .idle => True
  | .responding _ => True
  | .reasonDue _ _ => True
  | .p1 _ => False
  | .p2 _ _ => False
  | .p3 _ _ => False
  | .p4 _ _ => False
  | .c1 => False
  | .c2 _ => False
  | .c3 _ _ => False
  | .c4 _ _ _ => False
  | .c5 _ _ _ _ => False
  | .q1 _ => False
  | .q2 _ _ => False

/-- The invariant of the block. -/
structure BlockInv (s : State) : Prop where
  region_wf : Memory.wf s.region = true
  geometry : Configured s → Geometry s
  framed : Configured s → ∃ frames, Holds s frames
  seed_used : Configured s → s.regionSeed < s.freeCount
  split_spsc : s.phase = .split → s.mode = .spsc
  split_handle : s.phase = .split → s.prodAlive = true ∨ s.consAlive = true
  whole_handles : s.phase ≠ .split → s.prodAlive = false ∧ s.consAlive = false
  unsplit_fresh : s.phase = .whole → s.mode = .spsc → s.writePos = 0#64 ∧ s.readPos = 0#64
  histories : Configured s → s.mode = .spsc → Histories s
  cfg_ok : CfgOk s.cfg
  prod_ok : ProdOk s s.prod
  cons_ok : ConsOk s s.cons
  counts : Configured s → Counts s

/-! ## Rules of use -/

/-- The bytes physical offsets `o` range over when `n` bytes are accessed at logical position `p` (20_memory.md R72). -/
def Touches (s : State) (p : Word) (n : Nat) (o : Nat) : Prop :=
  ∃ i, i < n ∧ o = s.offsetOf (p + BitVec.ofNat 64 i)

/-! ## The frame lifecycle (10_state.md R39), for the frame at logical positions `start` to `start + need - 1`, in either mode. Positions are
counted without wrap, so that "at or past" is the order of numbers (log entry 24). -/

/-- `Absent`: the `WRITE_EVENT` that will write it has not stored a byte of it: everything stored so far lies before `start`. -/
def FrameAbsent (s : State) (start : Nat) : Prop :=
  s.published ≤ start ∧ (s.published = start → ∀ f w, s.prod ≠ .p4 f w)

/-- `Reserved`: its `WRITE_EVENT` has stored its bytes and `write_pos` is still `start`. -/
def FrameReserved (s : State) (start need : Nat) : Prop :=
  s.published = start ∧ ∃ f w, f.need.toNat = need ∧ s.prod = .p4 f w

/-- `Readable`: `write_pos` is at or past `start + need`, `read_pos` at or before `start`. -/
def FrameReadable (s : State) (start need : Nat) : Prop := start + need ≤ s.published ∧ s.released ≤ start

/-- `Consumed`: `read_pos` is at or past `start + need`. -/
def FrameConsumed (s : State) (start need : Nat) : Prop := start + need ≤ s.released

/-! ## Who may do what -/

/-- The "legal when" column of 30_encoding.md R110, for the commands; a reserved code is never legal (R113). The other rows of the
opcode table are no commands. -/
def Legal (i : Instr) (s : State) : Prop :=
  match i with
  | .new _ _ => s.port = .cfg ∧ s.phase = .unconfigured
  | .split => s.port = .cfg ∧ s.phase = .whole ∧ s.mode = .spsc
  | .dropRing => s.port = .cfg ∧ s.phase = .whole
  | .writeEvent _ _ _ _ _ =>
    s.port = .prod ∧ ((s.phase = .whole ∧ s.mode = .single) ∨ (s.phase = .split ∧ s.prodAlive = true))
  | .dropProducer => s.port = .prod ∧ s.phase = .split ∧ s.prodAlive = true
  | .readEvent =>
    s.port = .cons ∧ ((s.phase = .whole ∧ s.mode = .single) ∨ (s.phase = .split ∧ s.consAlive = true))
  | .dropConsumer => s.port = .cons ∧ s.phase = .split ∧ s.consAlive = true
  | .used | .free | .isEmpty =>
    (s.port = .prod ∧ ((s.phase = .whole ∧ s.mode = .single) ∨ (s.phase = .split ∧ s.prodAlive = true))) ∨
      (s.port = .cons ∧ ((s.phase = .whole ∧ s.mode = .single) ∨ (s.phase = .split ∧ s.consAlive = true)))
  | .headerSize | .totalSize _ | .headerNew _ _ _ | .encodeHeader _ _ _ _ | .decodeHeader _ => True
  | .reservedCode _ => False
  | .frameHeader _ _ _ _ _ | .rspOk _ | .rspNone | .rspInvalidCapacity _ _ | .rspNotEnoughSpace _ _ | .rspBadCommand _
  | .reasonTooSmall | .reasonNotPowerOfTwo => False

/-! ## What a step leaves alone -/

/-- The configuration is as before. -/
structure SameConfig (s t : State) : Prop where
  phase : t.phase = s.phase
  mode : t.mode = s.mode
  capacity : t.capacity = s.capacity
  mask : t.mask = s.mask
  prodAlive : t.prodAlive = s.prodAlive
  consAlive : t.consAlive = s.consAlive

/-- Both pointers are as before, and so are their counts without wrap. -/
structure SamePointers (s t : State) : Prop where
  writePos : t.writePos = s.writePos
  readPos : t.readPos = s.readPos
  published : t.published = s.published
  released : t.released = s.released

/-- The producer side's snapshot and the history of its pointer are as before. -/
structure SameProducerSide (s t : State) : Prop where
  pSeenR : t.pSeenR = s.pSeenR
  pSeenAt : t.pSeenAt = s.pSeenAt
  histW : t.histW = s.histW

/-- The consumer side's snapshot and the history of its pointer are as before. -/
structure SameConsumerSide (s t : State) : Prop where
  cSeenW : t.cSeenW = s.cSeenW
  cSeenAt : t.cSeenAt = s.cSeenAt
  histR : t.histR = s.histR

/-- Every byte of the region reads as before. -/
def SameBytes (s t : State) : Prop := ∀ o, t.byteAt o = s.byteAt o

/-- Every port but the step's own is doing what it was doing, and the same inputs are to come. -/
structure SameElsewhere (s t : State) : Prop where
  ports : ∀ p, p ≠ s.port → t.portState p = s.portState p
  port : t.port = s.port
  inbox : t.inbox = s.inbox

/-- Nothing but what the step's port is doing, and the event record by these events, has changed. -/
def OnlyPort (s : State) (x : PortState) (actions : List Action) (t : State) : Prop :=
  t = { s with events := s.events ++ actions.map (Event.mk s.port) }.setPort s.port x

/-! ## What goes in and what comes out (42_spsc_ops.md R177), frame by frame, each as its bytes -/

/-- The frame one event stores into the region. -/
def storedBy (e : Event) : List (List Byte) :=
  match e.action with
  | .memWrite _ bytes => [bytes]
  | _ => []

/-- The frame of a successful `READ_EVENT`. -/
def frameOf (r : Response) : List (List Byte) :=
  match r with
  | .ok (.event h payload) => [headerBytes h ++ payload]
  | _ => []

/-- The frame one event hands to the consuming agent. -/
def receivedBy (e : Event) : List (List Byte) :=
  match e.port, e.action with
  | .cons, .response r => frameOf r
  | _, _ => []

/-- Every frame stored so far, in the order they were stored. -/
def stored (s : State) : List (List Byte) := s.events.flatMap storedBy

/-- Every frame received so far, in the order they were received. -/
def received (s : State) : List (List Byte) := s.events.flatMap receivedBy

/-- The frame of a response that is due and not yet handed over. -/
def inHand (x : PortState) : List (List Byte) :=
  match x with
  | .responding r => frameOf r
  | _ => []

/-- The frame that is stored and not yet published (10_state.md R35). -/
def reserved (x : PortState) : List (List Byte) :=
  match x with
  | .p4 f _ => [f.bytes]
  | _ => []

/-- Received, in hand, unread, reserved: every frame that is or was in the ring, in order, where the unread ones are `frames`. -/
def flow (s : State) (frames : List Frame) : List (List Byte) :=
  received s ++ inHand s.cons ++ frames.map Frame.bytes ++ reserved s.prod

/-! ## One request, one response (41_ring_ops.md R141) -/

/-- A request was accepted at port `p`. -/
def isRequest (p : Port) (e : Event) : Bool :=
  match e.action with
  | .request _ => decide (e.port = p)
  | _ => false

/-- A response was handed over at port `p`. -/
def isResponse (p : Port) (e : Event) : Bool :=
  match e.action with
  | .response _ => decide (e.port = p)
  | _ => false

/-- What a port still owes: one response while a request is in progress, none at an idle port. -/
def owed (x : PortState) : Nat := if x = .idle then 0 else 1

/-- At every port every request has had exactly one response, or its one response is still owed. -/
def Balanced (s : State) : Prop :=
  ∀ p, s.events.countP (isRequest p) = s.events.countP (isResponse p) + owed (s.portState p)

/-- How many more steps a port takes at most until its response is posted (42_spsc_ops.md R178). -/
def stepsLeft : PortState → Nat
  | .p1 _ => 4
  | .p2 _ _ => 3
  | .p3 _ _ => 2
  | .p4 _ _ => 1
  | .c1 => 5
  | .c2 _ => 4
  | .c3 _ _ => 3
  | .c4 _ _ _ => 2
  | .c5 _ _ _ _ => 1
  | .q1 _ => 2
  | .q2 _ _ => 1
  | .idle => 0
  | .responding _ => 0
  | .reasonDue _ _ => 0

/-! ## Which operation can return which status (60_exceptions.md R204) -/

/-- The table of 60_exceptions.md R204; a request with a reserved code is none of its operations and is answered `BAD_COMMAND`. -/
def mayAnswer (i : Instr) (r : Response) : Prop :=
  match r with
  | .ok _ => ∀ code, i ≠ .reservedCode code
  | .none => i = .readEvent
  | .invalidCapacity _ _ => ∃ mode capacity, i = .new mode capacity
  | .notEnoughSpace _ _ => ∃ t e f n p, i = .writeEvent t e f n p
  | .badCommand _ =>
    i ≠ .headerSize ∧ (∀ n, i ≠ .totalSize n) ∧ (∀ t e n, i ≠ .headerNew t e n) ∧
      (∀ t e f n, i ≠ .encodeHeader t e f n) ∧ ∀ h, i ≠ .decodeHeader h

/-! ## Writing a sequence of frames in mode `SINGLE` -/

/-- Issue `WRITE_EVENT` for each frame in turn and take its response; none where one does not succeed. -/
def writeAll : List Frame → State → Option State
  | [], s => some s
  | f :: fs, s =>
    match exec (.writeEvent f.timestamp f.eventType f.flags f.payloadLen f.payload) s with
    | .next t => if t.portState t.port = .responding (.ok .empty) then writeAll fs (t.deliver (.ok .empty)) else none
    | .fault _ => none
    | .refused _ => none

/-- How many bytes these frames take (30_encoding.md R106). -/
def totalSize (frames : List Frame) : Nat := (frames.map fun f => f.need.toNat).sum

/-! ## Runs (20_memory.md R87). The outside world hands in inputs and draws before every step, so a run can go on for ever -/

/-- What the outside world hands in before each step of a run. -/
structure World where
  inputs : Nat → List Input
  draws : Nat → List Nat

/-- Each state is the step of the one before, with what the outside world hands in. -/
def IsRun (world : World) (run : Nat → State) : Prop :=
  ∀ n, step ((run n).arrive (world.inputs n) (world.draws n)) = .next (run (n + 1))

/-- The first `n` steps of such a sequence. -/
def IsRunTo (n : Nat) (world : World) (run : Nat → State) : Prop :=
  ∀ k, k < n → step ((run k).arrive (world.inputs k) (world.draws k)) = .next (run (k + 1))

/-- The step from `s` to `t` is an acquire-load of `write_pos` by the consumer side. -/
def LoadsWritePos (s t : State) : Prop := t.events = s.events ++ [Event.mk .cons (.acqLoad .writePos t.cSeenW)]

/-- The step from `s` to `t` is an acquire-load of `read_pos` by the producer side. -/
def LoadsReadPos (s t : State) : Prop := t.events = s.events ++ [Event.mk .prod (.acqLoad .readPos t.pSeenR)]

/-- Fairness of the loads of `write_pos` (20_memory.md R87): once it is not stored to again, all but finitely many acquire-loads of it
return it. A hypothesis of liveness statements; no step relies on it (log entry 21). -/
def FairToConsumer (run : Nat → State) : Prop :=
  ∀ n, (∀ m, n ≤ m → (run m).histW = (run n).histW) →
    ∃ k, ∀ m, k ≤ m → LoadsWritePos (run m) (run (m + 1)) → (run (m + 1)).cSeenW = (run (m + 1)).writePos

/-- Fairness of the loads of `read_pos` (20_memory.md R87). -/
def FairToProducer (run : Nat → State) : Prop :=
  ∀ n, (∀ m, n ≤ m → (run m).histR = (run n).histR) →
    ∃ k, ∀ m, k ≤ m → LoadsReadPos (run m) (run (m + 1)) → (run (m + 1)).pSeenR = (run (m + 1)).readPos

/-- The consumer polls for ever: step C1 of a `READ_EVENT` is taken again and again (42_spsc_ops.md R178). -/
def PollsForever (run : Nat → State) : Prop :=
  ∀ n, ∃ m, n ≤ m ∧ (run m).cons = .c1 ∧ (run (m + 1)).cons ≠ .c1

/-- From `n` on the producer retries until it has published: step P1 of a `WRITE_EVENT` whose frame is no larger than `capacity` is taken
again and again, unless something has been published (42_spsc_ops.md R178). -/
def RetriesFrom (n : Nat) (run : Nat → State) : Prop :=
  ∀ k, n ≤ k → ∃ m, k ≤ m ∧
    ((run n).published < (run m).published ∨
      ∃ f, (run m).prod = .p1 f ∧ (run (m + 1)).prod ≠ .p1 f ∧ f.need ≤ (run m).capacity)

end Sys2Proof.Safety
end

