-- ==== Sys2Proof/Certificates/Slice0/Obligations.lean ====
section
/-! DEFINITION. The statements for the provers. Each docstring says which rules of spec/ a statement formalises; where a clause rests on
a choice of the model's own it names the log entry. `exec` is the meaning of an item of the opcode table at the port of the step,
`advance` the next step of what is in progress there; `StepRunsDecodedRequest` and `StepAdvancesPort` say that `step` is these two. -/

open Sys2Proof Sys2Proof.Machine Sys2Proof.Safety

/-! ## Reset and the whole machine -/

/-- 70_reset_and_hazards.md R220: phase `Unconfigured`, both handle flags false, no request in progress on any port; `CONFIG` reads
`0x00` (10_state.md R31), and the one capability is `Owner` (60_exceptions.md R206; that it exists before
`NEW`, which R207 has create it, is the model's reading: log entry 29, DEDUCED). The registers without a value at reset are not
spoken of (log entry 7). -/
def Obligations.ResetIsUnconfigured : Prop :=
  State.reset.phase = .unconfigured ∧ State.reset.prodAlive = false ∧ State.reset.consAlive = false ∧
    (∀ p, State.reset.portState p = .idle) ∧ (∀ o, Region.get? State.reset.region o = none) ∧
    State.reset.config = 0x00#8 ∧ State.reset.exists_ .owner = true ∧ State.reset.exists_ .producer = false ∧
    State.reset.exists_ .consumer = false

/-- The invariant of the block and the request-response balance hold after reset. -/
def Obligations.ResetMeetsInvariants : Prop := BlockInv State.reset ∧ Balanced State.reset

/-- Every step keeps the invariant of the block: the geometry of the ring (10_state.md R24, R26, R27), whole frames between the
pointers (R40), histories and snapshots (R33, R34; 20_memory.md R80), and what is in progress at each port. -/
def Obligations.StepKeepsInvariant : Prop := ∀ s t, BlockInv s → step s = .next t → BlockInv t

/-- From a state of the invariant a step has an outcome of the block's own unless a rule of use is broken: the only stops are the
spec's `refuse` cases U2, U8, U9 and bytes that are no request (log entry 2). No region access is out of range, no response and no
header is ever handed over without being due. -/
def Obligations.StepStopsOnlyOnBrokenRulesOfUse : Prop :=
  ∀ s, BlockInv s →
    (∃ t, step s = .next t) ∨ step s = .refused .payloadLengthMismatch ∨ step s = .refused .capacityBeyondInstance ∨
      step s = .refused .requestBeforeResponse ∨ step s = .refused .malformedRequest

/-- Every step keeps the region in its one canonical form, from every state. The form (a list of offsets strictly rising, an unlisted
offset holding no value) is the model's own choice: log entry 9, a DESIGN CHOICE, resting on 10_state.md R38's "a model should treat
a never-written byte as holding no value". -/
def Obligations.StepKeepsRegionCanonical : Prop :=
  ∀ s t, Memory.wf s.region = true → step s = .next t → Memory.wf t.region = true

/-- 41_ring_ops.md R141: at every port every request gets exactly one response. Kept by every step, from every state. -/
def Obligations.StepKeepsOneResponsePerRequest : Prop := ∀ s t, Balanced s → step s = .next t → Balanced t

/-- A step runs the decoded instruction: when the next input is a request at a port that is ready and its bytes decode, the step is
that instruction's meaning at that port, with the input used up and the request recorded (42_spsc_ops.md R164). Bytes that do not decode
are refused (log entry 2). -/
def Obligations.StepRunsDecodedRequest : Prop :=
  ∀ s p bytes rest, s.inbox = .request p bytes :: rest → s.ready p = true →
    (∀ i, decode .cmd bytes = .ok i →
      step s = exec i { s with port := p, inbox := rest, events := s.events ++ [Event.mk p (.request i)] }) ∧
    (∀ e, decode .cmd bytes = .error e → step s = .refused .malformedRequest)

/-- 70_reset_and_hazards.md R226: a request is accepted only after the response to the one before it on its port; in mode `SINGLE` the
ports are sequential together, in mode `SPSC` they are independent; a request that comes too early is refused. That the ports are
independent in phase `Unconfigured` too is the model's reading, not R226's words (log entry 15, DEDUCED). -/
def Obligations.RequestsWaitForResponses : Prop :=
  (∀ s p bytes rest i, s.inbox = .request p bytes :: rest → decode .cmd bytes = .ok i →
    (s.phase = .whole ∧ s.mode = .single → ∀ q, s.portState q = .idle) →
    (¬ (s.phase = .whole ∧ s.mode = .single) → s.portState p = .idle) →
    step s = exec i { s with port := p, inbox := rest, events := s.events ++ [Event.mk p (.request i)] }) ∧
  (∀ s p bytes rest q, s.inbox = .request p bytes :: rest → s.phase = .whole → s.mode = .single → s.portState q ≠ .idle →
    step s = .refused .requestBeforeResponse) ∧
  (∀ s p bytes rest, s.inbox = .request p bytes :: rest → ¬ (s.phase = .whole ∧ s.mode = .single) → s.portState p ≠ .idle →
    step s = .refused .requestBeforeResponse)

/-- What a step does when the next input lets a port go on: the next step of the operation in progress there, the row of the opcode
table its response or reason code is, or nothing at an idle port. Step C3 reads the 16 header bytes and runs the frame header they are.
Without an input the block is idle (60_exceptions.md R212; log entry 19). -/
def Obligations.StepAdvancesPort : Prop :=
  (∀ s, s.inbox = [] → step s = .next s) ∧
  ∀ s p rest, s.inbox = .advance p :: rest →
    (s.portState p = .idle → step s = .next (s.at p rest)) ∧
    (∀ r, s.portState p = .responding r → step s = exec (rowOfResponse r) (s.at p rest)) ∧
    (∀ c r, s.portState p = .reasonDue c r → step s = exec (rowOfReason r) (s.at p rest)) ∧
    (∀ f, s.portState p = .p1 f → step s = stepP1 f (s.at p rest)) ∧
    (∀ f r, s.portState p = .p2 f r → step s = stepP2 f r (s.at p rest)) ∧
    (∀ f w, s.portState p = .p3 f w → step s = stepP3 f w (s.at p rest)) ∧
    (∀ f w, s.portState p = .p4 f w → step s = stepP4 f w (s.at p rest)) ∧
    (s.portState p = .c1 → step s = stepC1 (s.at p rest)) ∧
    (∀ w, s.portState p = .c2 w → step s = stepC2 w (s.at p rest)) ∧
    (∀ w r, s.portState p = .c3 w r → 16 ≤ s.capacity.toNat →
      ∃ h, headerBytes h = s.readFrom r 16 ∧
        step s = exec (.frameHeader (headerTimestamp h) (headerEventType h) (headerFlags h) (headerPayloadLen h) (headerReserved h))
          ((s.at p rest).log (.memRead r (s.readFrom r 16)))) ∧
    (∀ r h n, s.portState p = .c4 r h n → step s = stepC4 r h n (s.at p rest)) ∧
    (∀ r h n b, s.portState p = .c5 r h n b → step s = stepC5 r h n b (s.at p rest)) ∧
    (∀ q, s.portState p = .q1 q → step s = stepQ1 q (s.at p rest)) ∧
    (∀ q v, s.portState p = .q2 q v → step s = stepQ2 q v (s.at p rest))

/-! ## Encoding -/

/-- Every well-formed item of the opcode table is what the decoder reads from its encoding, whatever its operands. -/
def Obligations.DecodeOfEncode : Prop := ∀ i : Instr, i.wf = true → decode i.format (encode i) = .ok i

/-- 30_encoding.md R100, R107, R115: every 16 bytes are a frame header, with each field at its byte offset, least significant byte
first; no other number of bytes is one. -/
def Obligations.EveryHeaderDecodes : Prop :=
  (∀ bs : List Byte, bs.length = 16 →
    ∃ t e f n r, decode .hdr bs = .ok (.frameHeader t e f n r) ∧ t.toNat = fromLe (bs.take 8) ∧ bs[8]? = some e ∧
      bs[9]? = some f ∧ n.toNat = fromLe ((bs.drop 10).take 2) ∧ r.toNat = fromLe (bs.drop 12)) ∧
  ∀ bs : List Byte, bs.length ≠ 16 → ∀ i, decode .hdr bs ≠ .ok i

/-- Words written out from the tables of 30_encoding.md R100, R110, R111, R112 decode to the items they stand for (the packing of operand
fields is log entry 1). That `decodeTableWord` reads an 8-bit word as a command, so that 0x01 is `SPLIT` and 0x03 a reserved command
code and not a response status, is the model's choice (log entry 6, a DESIGN CHOICE). -/
def Obligations.WrittenOutWordsDecode : Prop :=
  decodeTableWord 8 0x01 = some .split ∧ decodeTableWord 8 0x20 = some .readEvent ∧
    decodeTableWord 8 0x42 = some .isEmpty ∧ decodeTableWord 24 0x001431 = some (.totalSize 20#16) ∧
    decodeTableWord 8 0x03 = some (.reservedCode 0x03#8) ∧
    decodeTableWord 128 0x00000000000500030000000000000066 = some (.frameHeader 102#64 3#8 0#8 5#16 0#32) ∧
    decode (.rsp .empty) [0x03, 36, 0, 0, 0, 0, 0, 0, 0, 32, 0, 0, 0, 0, 0, 0, 0] = .ok (.rspNotEnoughSpace 36#64 32#64) ∧
    decode .reason [0x01] = .ok .reasonNotPowerOfTwo

/-! ## Legality -/

/-- 30_encoding.md R113: a reserved code, or a command on a port, in a phase, in a mode or with a handle flag other than its "legal when"
column allows, is answered `BAD_COMMAND` with the offending code and changes no state; the reserved codes are the ones listed there. That the
bytes after a reserved code do not matter is the model's choice (log entry 25, a DESIGN CHOICE). -/
def Obligations.IllegalCommandAnswersBadCommand : Prop :=
  (∀ i s, i.format = .cmd → ¬ Legal i s → exec i s = .next (s.setPort s.port (.responding (.badCommand i.code)))) ∧
  (∀ code bs, commandCodes.contains code = false → decode .cmd (code :: bs) = .ok (.reservedCode code)) ∧
  ∀ code : Byte, commandCodes.contains code = false ↔
    (0x03#8 ≤ code ∧ code ≤ 0x0F#8) ∨ (0x12#8 ≤ code ∧ code ≤ 0x1F#8) ∨ (0x22#8 ≤ code ∧ code ≤ 0x2F#8) ∨
      (0x35#8 ≤ code ∧ code ≤ 0x3F#8) ∨ 0x43#8 ≤ code

/-- 60_exceptions.md R204: which command can be answered with which status. -/
def Obligations.CommandsAnswerTheirStatuses : Prop :=
  (∀ i s t r, i.format = .cmd → exec i s = .next t → t.portState s.port = .responding r → mayAnswer i r) ∧
  (∀ s t r, BlockInv s → advance s = .next t → 0 < stepsLeft (s.portState s.port) → t.portState s.port = .responding r →
    match s.portState s.port, r with
    | .p2 _ _, .notEnoughSpace _ _ => True
    | .p4 _ _, .ok .empty => True
    | .c2 _, .none => True
    | .c3 _ _, .none => True
    | .c5 _ _ _ _, .ok (.event _ _) => True
    | .q2 .used _, .ok (.value _) => True
    | .q2 .free _, .ok (.value _) => True
    | .q2 .isEmpty _, .ok (.bit _) => True
    | _, _ => False)

/-- 60_exceptions.md R201: an operation that ends with an error response, or with `NONE`, has changed nothing of the ring in that step, and
nothing at another port. (In mode `SPSC` the acquire-load before it has set the caller's snapshot: 20_memory.md R67.) -/
def Obligations.ErrorResponsesChangeNothing : Prop :=
  (∀ i s t r, i.format = .cmd → exec i s = .next t → t.portState s.port = .responding r → (∀ fields, r ≠ .ok fields) →
    SameConfig s t ∧ SamePointers s t ∧ SameBytes s t ∧ SameProducerSide s t ∧ SameConsumerSide s t ∧ SameElsewhere s t) ∧
  (∀ s t r, advance s = .next t → 0 < stepsLeft (s.portState s.port) → t.portState s.port = .responding r →
    (∀ fields, r ≠ .ok fields) →
    SameConfig s t ∧ SamePointers s t ∧ SameBytes s t ∧ SameProducerSide s t ∧ SameConsumerSide s t ∧ SameElsewhere s t)

/-! ## Creating, splitting, dropping -/

/-- 41_ring_ops.md R140: `NEW`, its two errors in their order, the refusal above `2^K_MAX`, and the new ring. -/
def Obligations.NewCreatesRing : Prop :=
  ∀ mode (c : Word) (s : State), s.port = .cfg → s.phase = .unconfigured →
    (c < 16#64 → exec (.new mode c) s = .next (s.setPort .cfg (.responding (.invalidCapacity c .tooSmall)))) ∧
    (16#64 ≤ c → c &&& (c - 1#64) ≠ 0#64 →
      exec (.new mode c) s = .next (s.setPort .cfg (.responding (.invalidCapacity c .notPowerOfTwo)))) ∧
    (16#64 ≤ c → c &&& (c - 1#64) = 0#64 → 2 ^ Config.kMax < c.toNat →
      exec (.new mode c) s = .refused .capacityBeyondInstance) ∧
    (16#64 ≤ c → c &&& (c - 1#64) = 0#64 → c.toNat ≤ 2 ^ Config.kMax →
      ∃ t, exec (.new mode c) s = .next t ∧ t.cfg = .responding (.ok .empty) ∧ t.phase = .whole ∧ t.mode = mode ∧
        t.capacity = c ∧ t.mask = c - 1#64 ∧ t.writePos = 0#64 ∧ t.readPos = 0#64 ∧ t.prodAlive = false ∧
        t.consAlive = false ∧ t.pSeenR = 0#64 ∧ t.cSeenW = 0#64 ∧ t.histW = [0#64] ∧ t.histR = [0#64] ∧
        (∀ o, Region.get? t.region o = none) ∧ t.used = 0#64 ∧ t.free = c ∧ t.isEmpty = true ∧ SameElsewhere s t ∧
        t.events = s.events)

/-- 42_spsc_ops.md R160: `SPLIT` changes the phase and the two handle flags only; the ring is empty with both pointers 0; a second `SPLIT`,
and one in mode `SINGLE`, is answered `BAD_COMMAND`. -/
def Obligations.SplitMakesBothHandles : Prop :=
  ∀ s : State, s.port = .cfg → s.phase = .whole → s.mode = .spsc →
    exec .split s =
      .next ({ s with phase := .split, prodAlive := true, consAlive := true }.setPort .cfg (.responding (.ok .empty))) ∧
    (BlockInv s → s.writePos = 0#64 ∧ s.readPos = 0#64) ∧
    ∀ t : State, t.phase = .split ∨ t.mode = .single → exec .split t = .next (t.setPort t.port (.responding (.badCommand 0x01#8)))

/-- 41_ring_ops.md R151: `DROP_RING`; afterwards `CONFIG` reads `0x00` (10_state.md R31), and only `NEW` and the framing functions are
legal on any port. What the other elements hold is left free (log entry 8). That the handle flags stay as they are is the model's
reading (log entry 26, DEDUCED). -/
def Obligations.DropRingEndsTheRing : Prop :=
  ∀ s : State, s.port = .cfg → s.phase = .whole →
    ∃ t, exec .dropRing s = .next t ∧ t.cfg = .responding (.ok .empty) ∧ t.phase = .unconfigured ∧ t.config = 0x00#8 ∧
      t.prodAlive = s.prodAlive ∧ t.consAlive = s.consAlive ∧ SameElsewhere s t ∧ t.events = s.events ∧
      (∀ p i, Legal i { t with port := p } →
        (∃ m c, i = .new m c) ∨ i = .headerSize ∨ (∃ n, i = .totalSize n) ∨ (∃ a e n, i = .headerNew a e n) ∨
          (∃ a e f n, i = .encodeHeader a e f n) ∨ ∃ h, i = .decodeHeader h)

/-- 42_spsc_ops.md R174, R175: dropping one handle changes its flag only; dropping the second returns the block to `Unconfigured`. From then
on, until a ring exists again, every command on the port of the dropped handle is answered `BAD_COMMAND`, but for the framing
functions, which are legal on any port always (30_encoding.md R110, 60_exceptions.md R204; log entry 28, DEDUCED). -/
def Obligations.DropsEndTheHandles : Prop :=
  (∀ s : State, s.port = .prod → s.phase = .split → s.prodAlive = true →
    (s.consAlive = true →
      exec .dropProducer s = .next ({ s with prodAlive := false }.setPort .prod (.responding (.ok .empty)))) ∧
    (s.consAlive = false →
      ∃ t, exec .dropProducer s = .next t ∧ t.prod = .responding (.ok .empty) ∧ t.phase = .unconfigured ∧
        t.prodAlive = false ∧ t.consAlive = false ∧ SameElsewhere s t ∧ t.events = s.events)) ∧
  (∀ s : State, s.port = .cons → s.phase = .split → s.consAlive = true →
    (s.prodAlive = true →
      exec .dropConsumer s = .next ({ s with consAlive := false }.setPort .cons (.responding (.ok .empty)))) ∧
    (s.prodAlive = false →
      ∃ t, exec .dropConsumer s = .next t ∧ t.cons = .responding (.ok .empty) ∧ t.phase = .unconfigured ∧
        t.prodAlive = false ∧ t.consAlive = false ∧ SameElsewhere s t ∧ t.events = s.events)) ∧
  (∀ (s : State) i, s.phase ≠ .whole → (s.port = .prod ∧ s.prodAlive = false) ∨ (s.port = .cons ∧ s.consAlive = false) → Legal i s →
    i = .headerSize ∨ (∃ n, i = .totalSize n) ∨ (∃ a e n, i = .headerNew a e n) ∨ (∃ a e f n, i = .encodeHeader a e f n) ∨
      ∃ h, i = .decodeHeader h) ∧
  (∀ (s : State) i, i.format = .cmd → s.phase ≠ .whole →
    (s.port = .prod ∧ s.prodAlive = false) ∨ (s.port = .cons ∧ s.consAlive = false) →
    i = .headerSize ∨ (∃ n, i = .totalSize n) ∨ (∃ a e n, i = .headerNew a e n) ∨ (∃ a e f n, i = .encodeHeader a e f n) ∨
      (∃ h, i = .decodeHeader h) ∨ exec i s = .next (s.setPort s.port (.responding (.badCommand i.code))))

/-- 60_exceptions.md R206, R207: which capability exists when, and how they come and go. That `Owner` exists in phase `Unconfigured` too,
so that it outlasts `DROP_RING` and is there again after both drops, is the model's reading (log entry 29, DEDUCED). -/
def Obligations.CapabilitiesComeAndGo : Prop :=
  (∀ s t mode c, exec (.new mode c) s = .next t → t.phase = .whole → s.phase = .unconfigured →
    t.exists_ .owner = true ∧ t.exists_ .producer = false ∧ t.exists_ .consumer = false) ∧
  (∀ s t, s.phase = .whole → exec .split s = .next t → t.phase = .split →
    t.exists_ .owner = false ∧ t.exists_ .producer = true ∧ t.exists_ .consumer = true) ∧
  (∀ s t, s.exists_ .producer = true → s.port = .prod → exec .dropProducer s = .next t →
    t.exists_ .producer = false ∧ t.exists_ .consumer = s.exists_ .consumer) ∧
  (∀ s t, s.exists_ .consumer = true → s.port = .cons → exec .dropConsumer s = .next t →
    t.exists_ .consumer = false ∧ t.exists_ .producer = s.exists_ .producer) ∧
  (∀ s : State, BlockInv s → s.exists_ .owner = false → s.exists_ .producer = true ∨ s.exists_ .consumer = true)

/-! ## Framing -/

/-- 40_framing.md R130: on any port, in any phase, `HEADER_SIZE` answers 16 and changes nothing else. -/
def Obligations.HeaderSizeAnswersSixteen : Prop :=
  ∀ s, exec .headerSize s = .next (s.setPort s.port (.responding (.ok (.size 16#64))))

/-- 40_framing.md R131: `TOTAL_SIZE` answers `16 + payload_len`, which does not overflow, and changes nothing else. -/
def Obligations.TotalSizeAnswersSixteenMore : Prop :=
  ∀ n s, ∃ v, exec (.totalSize n) s = .next (s.setPort s.port (.responding (.ok (.size v)))) ∧ v.toNat = 16 + n.toNat

/-- 40_framing.md R132: `HEADER_NEW` returns its operands with `flags` zero, and changes nothing else. -/
def Obligations.HeaderNewZeroesFlags : Prop :=
  ∀ t e n s, exec (.headerNew t e n) s = .next (s.setPort s.port (.responding (.ok (.header t e 0x00#8 n))))

/-- 40_framing.md R133: `ENCODE_HEADER` answers `le_8(timestamp) ++ [event_type] ++ [flags] ++ le_2(payload_len) ++ [0, 0, 0, 0]` and
changes nothing else. -/
def Obligations.EncodeHeaderLaysOutTheFields : Prop :=
  ∀ (t : Word) (e f : Byte) (n : Half) (s : State),
    ∃ h, exec (.encodeHeader t e f n) s = .next (s.setPort s.port (.responding (.ok (.encoded h)))) ∧
      headerBytes h = leBytes 8 t.toNat ++ [e] ++ [f] ++ leBytes 2 n.toNat ++ [0x00, 0x00, 0x00, 0x00]

/-- 40_framing.md R134: `DECODE_HEADER` of any 16 bytes answers the fields at their offsets, the reserved bytes as found, and changes
nothing else. -/
def Obligations.DecodeHeaderReadsTheFields : Prop :=
  ∀ (bs : List Byte) (s : State), bs.length = 16 →
    ∃ h t e f n r, headerBytes h = bs ∧
      exec (.decodeHeader h) s = .next (s.setPort s.port (.responding (.ok (.decoded t e f n r)))) ∧
      t.toNat = fromLe (bs.take 8) ∧ bs[8]? = some e ∧ bs[9]? = some f ∧ n.toNat = fromLe ((bs.drop 10).take 2) ∧
      leBytes 4 r.toNat = bs.drop 12

/-- 40_framing.md R135: `DECODE_HEADER` of what `ENCODE_HEADER` answers gives the fields back, with reserved bytes zero; encoding what a
header decodes to gives the header back exactly when its reserved bytes are zero. -/
def Obligations.HeaderRoundTrip : Prop :=
  (∀ t e f n s u, ∃ h, exec (.encodeHeader t e f n) s = .next (s.setPort s.port (.responding (.ok (.encoded h)))) ∧
    exec (.decodeHeader h) u = .next (u.setPort u.port (.responding (.ok (.decoded t e f n 0#32))))) ∧
  (∀ h s u, ∃ t e f n r g, exec (.decodeHeader h) s = .next (s.setPort s.port (.responding (.ok (.decoded t e f n r)))) ∧
    exec (.encodeHeader t e f n) u = .next (u.setPort u.port (.responding (.ok (.encoded g)))) ∧
    (g = h ↔ (headerBytes h).drop 12 = [0x00, 0x00, 0x00, 0x00]))

/-! ## The ring in mode `SINGLE` -/

/-- 41_ring_ops.md R146: `WRITE_EVENT` in mode `SINGLE`, both outcomes, and the refusal where header and payload disagree. On success the
frame's bytes stand at `write_pos`, header first, across the wrap where it comes; every other byte, `read_pos` and the configuration
are unchanged. That the snapshots and histories are unchanged too is the model's reading (log entry 23, DEDUCED). -/
def Obligations.WriteEventSingle : Prop :=
  ∀ (s : State) (ts : Word) (e fl : Byte) (n : Half) (payload : List Byte),
    Geometry s → s.port = .prod → s.phase = .whole → s.mode = .single →
    (n.toNat ≠ payload.length → exec (.writeEvent ts e fl n payload) s = .refused .payloadLengthMismatch) ∧
    (n.toNat = payload.length → s.free.toNat < 16 + payload.length →
      exec (.writeEvent ts e fl n payload) s =
        .next (s.setPort .prod (.responding (.notEnoughSpace (needOf n) s.free)))) ∧
    (n.toNat = payload.length → 16 + payload.length ≤ s.free.toNat →
      ∃ t, exec (.writeEvent ts e fl n payload) s = .next t ∧ t.prod = .responding (.ok .empty) ∧
        t.writePos = s.writePos + needOf n ∧ t.readPos = s.readPos ∧
        t.readFrom s.writePos (16 + payload.length) =
          leBytes 8 ts.toNat ++ [e] ++ [fl] ++ leBytes 2 n.toNat ++ [0x00, 0x00, 0x00, 0x00] ++ payload ∧
        (∀ o, ¬ Touches s s.writePos (16 + payload.length) o → t.byteAt o = s.byteAt o) ∧
        SameConfig s t ∧ SameProducerSide s t ∧ SameConsumerSide s t ∧ SameElsewhere s t)

/-- 70_reset_and_hazards.md R232: in either mode a `WRITE_EVENT` whose `payload_len` is not the payload's length is refused, once it is legal. -/
def Obligations.MismatchedPayloadIsRefused : Prop :=
  ∀ (s : State) ts e fl (n : Half) (payload : List Byte), Legal (.writeEvent ts e fl n payload) s → n.toNat ≠ payload.length →
    exec (.writeEvent ts e fl n payload) s = .refused .payloadLengthMismatch

/-- 41_ring_ops.md R147: `READ_EVENT` in mode `SINGLE`, its three outcomes. On success header and payload are the bytes from `read_pos` on,
`read_pos` moves past the frame, and no byte of the region changes. That the snapshots and histories are unchanged too is the model's
reading (log entry 23, DEDUCED). -/
def Obligations.ReadEventSingle : Prop :=
  ∀ s : State, Geometry s → s.port = .cons → s.phase = .whole → s.mode = .single →
    (s.used.toNat < 16 → exec .readEvent s = .next (s.setPort .cons (.responding .none))) ∧
    (16 ≤ s.used.toNat →
      ∀ n, n = fromLe (((s.readFrom s.readPos 16).drop 10).take 2) →
      (s.used.toNat < 16 + n →
        ∃ t, exec .readEvent s = .next t ∧ OnlyPort s (.responding .none) [.memRead s.readPos (s.readFrom s.readPos 16)] t) ∧
      (16 + n ≤ s.used.toNat →
        ∃ t h payload, exec .readEvent s = .next t ∧ t.cons = .responding (.ok (.event h payload)) ∧
          headerBytes h = s.readFrom s.readPos 16 ∧ payload = s.readFrom (s.readPos + 16#64) n ∧
          t.readPos = s.readPos + BitVec.ofNat 64 (16 + n) ∧ t.writePos = s.writePos ∧ SameBytes s t ∧
          SameConfig s t ∧ SameProducerSide s t ∧ SameConsumerSide s t ∧ SameElsewhere s t))

/-- 41_ring_ops.md R148, R149, R150 in mode `SINGLE`: the status queries answer the derived quantities of 10_state.md R25 on either data
port and change nothing else. -/
def Obligations.StatusQueriesSingle : Prop :=
  ∀ s : State, s.port = .prod ∨ s.port = .cons → s.phase = .whole → s.mode = .single →
    exec .used s = .next (s.setPort s.port (.responding (.ok (.value (s.writePos - s.readPos))))) ∧
    exec .free s = .next (s.setPort s.port (.responding (.ok (.value (s.capacity - (s.writePos - s.readPos)))))) ∧
    exec .isEmpty s = .next (s.setPort s.port (.responding (.ok (.bit (decide (s.writePos = s.readPos))))))

/-- 41_ring_ops.md R154: `used` is the sum of the sizes of the frames the ring holds, and a frame is accepted exactly when it fits what is left;
so an empty ring takes every frame of at most `capacity` bytes, wherever its pointers stand. -/
def Obligations.SpaceIsExact : Prop :=
  ∀ (s : State) (fs : List Frame), BlockInv s → Configured s → Holds s fs →
    s.used.toNat = totalSize fs ∧
    (s.port = .prod → s.phase = .whole → s.mode = .single → ∀ f : Frame, f.agrees = true →
      ((∃ t, exec (.writeEvent f.timestamp f.eventType f.flags f.payloadLen f.payload) s = .next t ∧
          t.prod = .responding (.ok .empty)) ↔
        f.need.toNat ≤ s.capacity.toNat - totalSize fs))

/-- A `WRITE_EVENT` that fits appends its frame to the queue the ring holds, and a `READ_EVENT` takes the oldest one off it, in mode `SINGLE`
(41_ring_ops.md R146, R147; 10_state.md R40). -/
def Obligations.RingIsAQueueOfFrames : Prop :=
  (∀ (s : State) (fs : List Frame) (f : Frame), BlockInv s → Holds s fs → s.port = .prod → s.phase = .whole → s.mode = .single →
    f.agrees = true → totalSize fs + f.need.toNat ≤ s.capacity.toNat →
    ∃ t, exec (.writeEvent f.timestamp f.eventType f.flags f.payloadLen f.payload) s = .next t ∧
      t.prod = .responding (.ok .empty) ∧ Holds t (fs ++ [f])) ∧
  (∀ (s : State) (fs : List Frame) (f : Frame), BlockInv s → Holds s (f :: fs) → s.port = .cons → s.phase = .whole → s.mode = .single →
    ∃ t, exec .readEvent s = .next t ∧ t.cons = .responding (.ok (.event f.header f.payload)) ∧ Holds t fs) ∧
  (∀ s : State, BlockInv s → Holds s [] → s.port = .cons → s.phase = .whole → s.mode = .single →
    exec .readEvent s = .next (s.setPort .cons (.responding .none)))

/-- 41_ring_ops.md R153, with the first sentence of R152: frames of total size at most `capacity` written to an empty ring of mode `SINGLE`,
wherever its pointers stand, come back with the same headers and payloads in the same order; then the ring is empty and a further read
answers `NONE`. -/
def Obligations.FifoRoundTrip : Prop :=
  ∀ (s : State) (fs : List Frame), BlockInv s → s.phase = .whole → s.mode = .single → s.writePos = s.readPos →
    (∀ f ∈ fs, f.agrees = true) → totalSize fs ≤ s.capacity.toNat →
    ∃ t u, writeAll fs { s with port := .prod } = some t ∧
      drain fs.length { t with port := .cons } = (fs.map fun f => (f.header, f.payload), u) ∧ u.isEmpty = true ∧
      exec .readEvent u = .next (u.setPort .cons (.responding .none))

/-- 30_encoding.md R117: `WRITE` is `HEADER_NEW` and then `WRITE_EVENT` with the header that returns; `DRAIN limit=L` gives the first `L` frames
the ring holds, or all of them where there are fewer, and leaves the rest; `DRAIN` gives all (in mode `SINGLE`; log entry 22). -/
def Obligations.PseudoOperationsExpand : Prop :=
  (∀ (ts : Word) (e : Byte) (payload : List Byte) (s : State), payload.length < 65536 →
    ∃ n, expandWrite ts e payload = [.headerNew ts e n, .writeEvent ts e 0x00#8 n payload] ∧ n.toNat = payload.length ∧
      exec (.headerNew ts e n) s = .next (s.setPort s.port (.responding (.ok (.header ts e 0x00#8 n))))) ∧
  (∀ s, drain 0 s = ([], s)) ∧
  (∀ (s : State) (fs : List Frame) (limit : Nat), BlockInv s → Holds s fs → s.port = .cons → s.phase = .whole → s.mode = .single →
    (drain limit s).1 = (fs.take limit).map (fun f => (f.header, f.payload)) ∧ Holds (drain limit s).2 (fs.drop limit)) ∧
  (∀ (s : State) (fs : List Frame), BlockInv s → Holds s fs → s.port = .cons → s.phase = .whole → s.mode = .single →
    (drainAll s).1 = fs.map (fun f => (f.header, f.payload)) ∧ Holds (drainAll s).2 [])

/-! ## The region -/

/-- 20_memory.md R72: `MemWrite` stores byte `i` at the masked position `pos + i` and changes no other byte and nothing else; a count above
`capacity` is outside its precondition (log entry 17). -/
def Obligations.MemWriteStoresByteByByte : Prop :=
  ∀ (s : State) (pos : Word) (bytes : List Byte), Geometry s →
    (bytes.length ≤ s.capacity.toNat →
      ∃ t, memWrite pos bytes s = .ok t ∧
        (∀ i (h : i < bytes.length), t.byteAt (s.offsetOf (pos + BitVec.ofNat 64 i)) = bytes[i]) ∧
        (∀ o, ¬ Touches s pos bytes.length o → t.byteAt o = s.byteAt o) ∧
        t = { s with region := t.region, events := s.events ++ [Event.mk s.port (.memWrite pos bytes)] }) ∧
    (s.capacity.toNat < bytes.length → memWrite pos bytes s = .error .accessLongerThanRegion)

/-- 20_memory.md R74: a read of the positions last written gives the bytes written, as long as no byte of the region has changed since. -/
def Obligations.ReadAfterWrite : Prop :=
  ∀ (s t u : State) (pos : Word) (bytes : List Byte), Geometry s → memWrite pos bytes s = .ok t →
    SameBytes t u → u.mask = s.mask → u.capacity = s.capacity →
    ∃ v, memRead pos bytes.length u = .ok (bytes, v)

/-- 20_memory.md R73, R75: `MemRead` changes no state but the event record; a zero-length access stores nothing and gives nothing. -/
def Obligations.ReadsAndEmptyAccessesChangeNothing : Prop :=
  (∀ (s : State) (pos : Word) (n : Nat), n ≤ s.capacity.toNat →
    ∃ bytes, memRead pos n s = .ok (bytes, { s with events := s.events ++ [Event.mk s.port (.memRead pos bytes)] }) ∧
      bytes.length = n ∧ ∀ i, i < n → bytes[i]? = some (s.byteAt (s.offsetOf (pos + BitVec.ofNat 64 i)))) ∧
  (∀ (s : State) (pos : Word), ∃ t, memWrite pos [] s = .ok t ∧ t.region = s.region) ∧
  (∀ (s : State) (pos : Word), ∃ t, memRead pos 0 s = .ok ([], t) ∧ t.region = s.region)

/-- 20_memory.md R68: the physical offset of a position is the position modulo `capacity`; positions a `capacity` apart share an offset, and
positions less than a `capacity` apart do not. -/
def Obligations.OffsetsRepeatWithCapacity : Prop :=
  ∀ s : State, Geometry s →
    (∀ p, s.offsetOf p = p.toNat % s.capacity.toNat ∧ s.offsetOf p < s.capacity.toNat ∧
      s.offsetOf (p + s.capacity) = s.offsetOf p) ∧
    ∀ (p : Word) (i j : Nat), i < j → j < i + s.capacity.toNat →
      s.offsetOf (p + BitVec.ofNat 64 i) ≠ s.offsetOf (p + BitVec.ofNat 64 j)

/-- 10_state.md R31, R32: the register block: where its registers stand, that they are little-endian, that the pads hold no byte, that the two
pointers are in different 128-byte lines, and the values of `CONFIG`. The block as a view of the state that can be read in every
state, with pads that hold no byte, is the model's choice (log entry 18, a DESIGN CHOICE; R31 leaves the registers unspecified while
there is no ring). -/
def Obligations.RegisterBlock : Prop :=
  (∀ s : State,
    (∀ o, o < 8 → s.regByte o = (leBytes 8 s.writePos.toNat)[o]?) ∧
    (∀ o, 0x008 ≤ o → o < 0x080 → s.regByte o = none) ∧
    (∀ o, o < 8 → s.regByte (0x080 + o) = (leBytes 8 s.readPos.toNat)[o]?) ∧
    (∀ o, 0x088 ≤ o → o < 0x100 → s.regByte o = none) ∧
    (∀ o, o < 8 → s.regByte (0x100 + o) = (leBytes 8 s.capacity.toNat)[o]?) ∧
    (∀ o, o < 8 → s.regByte (0x108 + o) = (leBytes 8 s.mask.toNat)[o]?) ∧
    s.regByte 0x110 = some s.config ∧
    (∀ o, 0x111 ≤ o → o < 0x180 → s.regByte o = none)) ∧
  Reg.offset .writePos / Config.cacheLine ≠ Reg.offset .readPos / Config.cacheLine ∧
  (∀ s : State, BlockInv s →
    s.config = match s.phase, s.mode, s.prodAlive, s.consAlive with
      | .unconfigured, _, _, _ => 0x00#8
      | .whole, .single, _, _ => 0x01#8
      | .whole, .spsc, _, _ => 0x05#8
      | .split, _, true, true => 0x1E#8
      | .split, _, false, _ => 0x16#8
      | .split, _, true, false => 0x0E#8)

/-! ## Mode `SPSC`: the pointers -/

/-- 20_memory.md R80: an acquire-load returns an element of the pointer's history that is not older than the loader's snapshot, which becomes
that element; every such element is drawn by some draw; nothing else changes but the event record and what the draws are taken from (log entry 10). -/
def Obligations.AcquireLoadsDrawFromTheHistory : Prop :=
  (∀ (s : State) (d : Nat), s.pSeenAt < s.histR.length →
    ∃ k v, s.pSeenAt ≤ k ∧ s.histR[k]? = some v ∧
      acqLoadReadPos d s = { s with
        pSeenR := v, pSeenAt := k, draws := s.draws.tail, freeCount := s.freeCount + 1,
        events := s.events ++ [Event.mk s.port (.acqLoad .readPos v)] }) ∧
  (∀ (s : State) (k : Nat), s.pSeenAt ≤ k → k < s.histR.length → ∃ d, (acqLoadReadPos d s).pSeenAt = k) ∧
  (∀ (s : State) (d : Nat), s.cSeenAt < s.histW.length →
    ∃ k v, s.cSeenAt ≤ k ∧ s.histW[k]? = some v ∧
      acqLoadWritePos d s = { s with
        cSeenW := v, cSeenAt := k, draws := s.draws.tail, freeCount := s.freeCount + 1,
        events := s.events ++ [Event.mk s.port (.acqLoad .writePos v)] }) ∧
  (∀ (s : State) (k : Nat), s.cSeenAt ≤ k → k < s.histW.length → ∃ d, (acqLoadWritePos d s).cSeenAt = k)

/-- 20_memory.md R78, R79: an own load gives the value of the owner's latest store, the last element of the history (10_state.md R34); a release
store sets the pointer and appends to its history, and nothing else. -/
def Obligations.OwnersLoadWhatTheyStored : Prop :=
  (∀ s : State, Histories s → some (s.pointer .writePos) = s.histW.getLast? ∧ some (s.pointer .readPos) = s.histR.getLast?) ∧
  (∀ (s : State) (v : Word),
    (relStoreWritePos v s).pointer .writePos = v ∧ (relStoreWritePos v s).histW = s.histW ++ [v] ∧
      (relStoreWritePos v s).readPos = s.readPos ∧ (relStoreWritePos v s).histR = s.histR ∧
      SameConfig s (relStoreWritePos v s) ∧ SameBytes s (relStoreWritePos v s) ∧ SameElsewhere s (relStoreWritePos v s)) ∧
  (∀ (s : State) (v : Word),
    (relStoreReadPos v s).pointer .readPos = v ∧ (relStoreReadPos v s).histR = s.histR ++ [v] ∧
      (relStoreReadPos v s).writePos = s.writePos ∧ (relStoreReadPos v s).histW = s.histW ∧
      SameConfig s (relStoreReadPos v s) ∧ SameBytes s (relStoreReadPos v s) ∧ SameElsewhere s (relStoreReadPos v s))

/-! ## Mode `SPSC`: the steps -/

/-- In phase `Split` a legal `WRITE_EVENT`, `READ_EVENT` or status query starts at its first step (42_spsc_ops.md R168, R169, R172) and changes
nothing else yet. That accepting the request is a step of its own before it is the model's choice (log entry 13, a DESIGN CHOICE). -/
def Obligations.SplitRequestsStartTheProtocol : Prop :=
  (∀ (s : State) ts e fl (n : Half) (payload : List Byte), s.port = .prod → s.phase = .split → s.prodAlive = true →
    n.toNat = payload.length →
    exec (.writeEvent ts e fl n payload) s = .next (s.setPort .prod (.p1 (Frame.mk ts e fl n payload)))) ∧
  (∀ s : State, s.port = .cons → s.phase = .split → s.consAlive = true → exec .readEvent s = .next (s.setPort .cons .c1)) ∧
  (∀ s : State, (s.port = .prod ∧ s.prodAlive = true) ∨ (s.port = .cons ∧ s.consAlive = true) → s.phase = .split →
    exec .used s = .next (s.setPort s.port (.q1 .used)) ∧ exec .free s = .next (s.setPort s.port (.q1 .free)) ∧
    exec .isEmpty s = .next (s.setPort s.port (.q1 .isEmpty)))

/-- Steps P1 and P2 of 42_spsc_ops.md R168: the acquire-load of `read_pos`, then the own load of `write_pos` and the space test on the value
loaded; no store of any kind where the frame does not fit. -/
def Obligations.WriteLoadsAndTests : Prop :=
  (∀ (s : State) (f : Frame), s.port = .prod → s.prod = .p1 f → s.pSeenAt < s.histR.length →
    ∃ t k v, advance s = .next t ∧ t.prod = .p2 f v ∧ s.pSeenAt ≤ k ∧ s.histR[k]? = some v ∧ t.pSeenR = v ∧ t.pSeenAt = k ∧
      t.histW = s.histW ∧ SameConfig s t ∧ SamePointers s t ∧ SameBytes s t ∧ SameConsumerSide s t ∧ SameElsewhere s t ∧
      t.events = s.events ++ [Event.mk .prod (.acqLoad .readPos v)]) ∧
  (∀ (s : State) (f : Frame) (r : Word), s.port = .prod → s.prod = .p2 f r →
    (s.capacity - (s.writePos - r) < f.need →
      ∃ t, advance s = .next t ∧
        OnlyPort s (.responding (.notEnoughSpace f.need (s.capacity - (s.writePos - r)))) [.ownLoad .writePos s.writePos] t) ∧
    (f.need ≤ s.capacity - (s.writePos - r) →
      ∃ t, advance s = .next t ∧ OnlyPort s (.p3 f s.writePos) [.ownLoad .writePos s.writePos] t))

/-- Steps P3 and P4 of 42_spsc_ops.md R168: the frame's bytes are stored and nothing else changes; then one release store publishes them. -/
def Obligations.WriteStoresAndPublishes : Prop :=
  (∀ (s : State) (f : Frame) (w : Word), Geometry s → s.port = .prod → s.prod = .p3 f w → f.bytes.length ≤ s.capacity.toNat →
    ∃ t, advance s = .next t ∧ t.prod = .p4 f w ∧ t.readFrom w f.bytes.length = f.bytes ∧
      (∀ o, ¬ Touches s w f.bytes.length o → t.byteAt o = s.byteAt o) ∧ SameConfig s t ∧ SamePointers s t ∧
      SameProducerSide s t ∧ SameConsumerSide s t ∧ SameElsewhere s t ∧
      t.events = s.events ++ [Event.mk .prod (.memWrite w f.bytes)]) ∧
  (∀ (s : State) (f : Frame) (w : Word), s.port = .prod → s.prod = .p4 f w →
    ∃ t, advance s = .next t ∧ t.prod = .responding (.ok .empty) ∧ t.writePos = w + f.need ∧ t.readPos = s.readPos ∧
      t.histW = s.histW ++ [w + f.need] ∧ t.pSeenR = s.pSeenR ∧ t.pSeenAt = s.pSeenAt ∧ SameBytes s t ∧ SameConfig s t ∧
      SameConsumerSide s t ∧ SameElsewhere s t ∧ t.events = s.events ++ [Event.mk .prod (.relStore .writePos (w + f.need))])

/-- Steps C1 and C2 of 42_spsc_ops.md R169: the acquire-load of `write_pos`, then the own load of `read_pos` and the test `used < 16`; no store
where the answer is `NONE`. -/
def Obligations.ReadLoadsAndTests : Prop :=
  (∀ s : State, s.port = .cons → s.cons = .c1 → s.cSeenAt < s.histW.length →
    ∃ t k v, advance s = .next t ∧ t.cons = .c2 v ∧ s.cSeenAt ≤ k ∧ s.histW[k]? = some v ∧ t.cSeenW = v ∧ t.cSeenAt = k ∧
      t.histR = s.histR ∧ SameConfig s t ∧ SamePointers s t ∧ SameBytes s t ∧ SameProducerSide s t ∧ SameElsewhere s t ∧
      t.events = s.events ++ [Event.mk .cons (.acqLoad .writePos v)]) ∧
  (∀ (s : State) (w : Word), s.port = .cons → s.cons = .c2 w →
    (w - s.readPos < 16#64 →
      ∃ t, advance s = .next t ∧ OnlyPort s (.responding .none) [.ownLoad .readPos s.readPos] t) ∧
    (16#64 ≤ w - s.readPos →
      ∃ t, advance s = .next t ∧ OnlyPort s (.c3 w s.readPos) [.ownLoad .readPos s.readPos] t))

/-- Step C3 of 42_spsc_ops.md R169, the frame header (30_encoding.md R100, R107): with a header whose frame is wholly present the read goes on to
the `payload_len` bytes behind it; otherwise the answer is `NONE`. Nothing else changes. The header is a row of the opcode table that
is executed here (log entry 5). -/
def Obligations.FrameHeaderSaysHowFarToRead : Prop :=
  ∀ (s : State) (ts : Word) (e fl : Byte) (n : Half) (rv : Reserved) (w r : Word), s.portState s.port = .c3 w r →
    ((w - r).toNat < 16 + n.toNat →
      exec (.frameHeader ts e fl n rv) s = .next (s.setPort s.port (.responding .none))) ∧
    (16 + n.toNat ≤ (w - r).toNat →
      ∃ h, exec (.frameHeader ts e fl n rv) s = .next (s.setPort s.port (.c4 r h n)) ∧
        headerBytes h = leBytes 8 ts.toNat ++ [e] ++ [fl] ++ leBytes 2 n.toNat ++ leBytes 4 rv.toNat)

/-- Steps C4 and C5 of 42_spsc_ops.md R169: the payload is copied and nothing else changes; then one release store of `read_pos` gives the space
back, and the copy is returned. No byte of the region changes. -/
def Obligations.ReadCopiesAndReleases : Prop :=
  (∀ (s : State) (r : Word) (h : HeaderBits) (n : Half), s.port = .cons → s.cons = .c4 r h n → n.toNat ≤ s.capacity.toNat →
    ∃ t, advance s = .next t ∧
      OnlyPort s (.c5 r h n (s.readFrom (r + 16#64) n.toNat)) [.memRead (r + 16#64) (s.readFrom (r + 16#64) n.toNat)] t) ∧
  (∀ (s : State) (r : Word) (h : HeaderBits) (n : Half) (payload : List Byte), s.port = .cons → s.cons = .c5 r h n payload →
    ∃ t v, advance s = .next t ∧ v = r + BitVec.ofNat 64 (16 + n.toNat) ∧ t.cons = .responding (.ok (.event h payload)) ∧
      t.readPos = v ∧ t.writePos = s.writePos ∧ t.histR = s.histR ++ [v] ∧ t.cSeenW = s.cSeenW ∧ t.cSeenAt = s.cSeenAt ∧
      SameBytes s t ∧ SameConfig s t ∧ SameProducerSide s t ∧ SameElsewhere s t ∧
      t.events = s.events ++ [Event.mk .cons (.relStore .readPos v)])

/-- 42_spsc_ops.md R172: a status query on port `PROD` acquire-loads `read_pos`, on port `CONS` `write_pos`, updating the caller's snapshot; then
it loads its own pointer and answers as 41_ring_ops.md R148 to R150 say, and nothing else changes. -/
def Obligations.StatusQueriesSpsc : Prop :=
  (∀ (s : State) (q : Query), s.port = .prod → s.prod = .q1 q → s.pSeenAt < s.histR.length →
    ∃ t k v, advance s = .next t ∧ t.prod = .q2 q v ∧ s.pSeenAt ≤ k ∧ s.histR[k]? = some v ∧ t.pSeenR = v ∧ t.pSeenAt = k ∧
      t.histW = s.histW ∧ SameConfig s t ∧ SamePointers s t ∧ SameBytes s t ∧ SameConsumerSide s t ∧ SameElsewhere s t) ∧
  (∀ (s : State) (q : Query), s.port = .cons → s.cons = .q1 q → s.cSeenAt < s.histW.length →
    ∃ t k v, advance s = .next t ∧ t.cons = .q2 q v ∧ s.cSeenAt ≤ k ∧ s.histW[k]? = some v ∧ t.cSeenW = v ∧ t.cSeenAt = k ∧
      t.histR = s.histR ∧ SameConfig s t ∧ SamePointers s t ∧ SameBytes s t ∧ SameProducerSide s t ∧ SameElsewhere s t) ∧
  (∀ (s : State) (q : Query) (r : Word), s.port = .prod → s.prod = .q2 q r →
    ∃ t, advance s = .next t ∧
      OnlyPort s (.responding (.ok (match q with
        | .used => .value (s.writePos - r)
        | .free => .value (s.capacity - (s.writePos - r))
        | .isEmpty => .bit (decide (s.writePos = r))))) [.ownLoad .writePos s.writePos] t) ∧
  (∀ (s : State) (q : Query) (w : Word), s.port = .cons → s.cons = .q2 q w →
    ∃ t, advance s = .next t ∧
      OnlyPort s (.responding (.ok (match q with
        | .used => .value (w - s.readPos)
        | .free => .value (s.capacity - (w - s.readPos))
        | .isEmpty => .bit (decide (w = s.readPos))))) [.ownLoad .readPos s.readPos] t)

/-! ## Handing over responses -/

/-- A response that is due is handed over and recorded, the port is ready for the next request at once, and nothing of the ring changes
(60_exceptions.md R201, R202; 42_spsc_ops.md R164). That a response is handed over in a step of its own is log entry 4. -/
def Obligations.ResponsesAreHandedOver : Prop :=
  ∀ s : State,
    (∀ fields, s.portState s.port = .responding (.ok fields) →
      ∃ t, exec (.rspOk fields) s = .next t ∧ OnlyPort s .idle [.response (.ok fields)] t) ∧
    (s.portState s.port = .responding .none → ∃ t, exec .rspNone s = .next t ∧ OnlyPort s .idle [.response .none] t) ∧
    (∀ required available, s.portState s.port = .responding (.notEnoughSpace required available) →
      ∃ t, exec (.rspNotEnoughSpace required available) s = .next t ∧
        OnlyPort s .idle [.response (.notEnoughSpace required available)] t) ∧
    (∀ cmd, s.portState s.port = .responding (.badCommand cmd) →
      ∃ t, exec (.rspBadCommand cmd) s = .next t ∧ OnlyPort s .idle [.response (.badCommand cmd)] t)

/-- An `INVALID_CAPACITY` response is handed over in two steps, status and capacity and then its reason code (30_encoding.md R111, R112;
log entry 4); after the second the port is ready. -/
def Obligations.InvalidCapacityIsHandedOverWithItsReason : Prop :=
  ∀ (s : State) (c : Word),
    (∀ reason, s.portState s.port = .responding (.invalidCapacity c reason) →
      exec (.rspInvalidCapacity c reason) s = .next (s.setPort s.port (.reasonDue c reason))) ∧
    (s.portState s.port = .reasonDue c .tooSmall →
      ∃ t, exec .reasonTooSmall s = .next t ∧ OnlyPort s .idle [.response (.invalidCapacity c .tooSmall)] t) ∧
    (s.portState s.port = .reasonDue c .notPowerOfTwo →
      ∃ t, exec .reasonNotPowerOfTwo s = .next t ∧ OnlyPort s .idle [.response (.invalidCapacity c .notPowerOfTwo)] t)

/-- What is not due is not handed over: a response row, a reason code or a frame header elsewhere than where the operation in progress puts it
is refused by name (41_ring_ops.md R141, 30_encoding.md R107; log entries 4 and 5). -/
def Obligations.WhatIsNotDueIsRefused : Prop :=
  ∀ s : State,
    (∀ r, s.portState s.port ≠ .responding r → exec (rowOfResponse r) s = .refused .responseNotDue) ∧
    (∀ reason, (∀ c, s.portState s.port ≠ .reasonDue c reason) → exec (rowOfReason reason) s = .refused .responseNotDue) ∧
    ((∀ w r, s.portState s.port ≠ .c3 w r) →
      ∀ ts e fl n rv, exec (.frameHeader ts e fl n rv) s = .refused .headerNotDue)

/-! ## Mode `SPSC`: the two sides together -/

/-- 42_spsc_ops.md R170: what a side sees lags on the safe side only. -/
def Obligations.LagIsOneSided : Prop :=
  ∀ s : State, BlockInv s → Configured s → s.mode = .spsc →
    s.capacity - (s.writePos - s.pSeenR) ≤ s.free ∧ s.cSeenW - s.readPos ≤ s.used

/-- 70_reset_and_hazards.md R230: what a side concludes from its snapshot stays true at its next operation. A frame that fits by the
producer side's snapshot fits by the value the next acquire-load draws; bytes the consumer side's snapshot shows are still there by the
value its next load draws. -/
def Obligations.AdvisoryStatusIsSafe : Prop :=
  (∀ (s : State) (f : Frame), BlockInv s → s.port = .prod → s.prod = .p1 f → f.need ≤ s.capacity - (s.writePos - s.pSeenR) →
    ∃ t r, advance s = .next t ∧ t.prod = .p2 f r ∧ f.need ≤ t.capacity - (t.writePos - r)) ∧
  (∀ (s : State), BlockInv s → s.port = .cons → s.cons = .c1 →
    ∃ t w, advance s = .next t ∧ t.cons = .c2 w ∧ s.cSeenW - s.readPos ≤ w - t.readPos) ∧
  (∀ (s t : State), BlockInv s → s.phase = .split → step s = .next t → t.phase = .split →
    (t.port ≠ .prod → t.pSeenR = s.pSeenR ∧ t.writePos = s.writePos) ∧
    (t.port ≠ .cons → t.cSeenW = s.cSeenW ∧ t.readPos = s.readPos))

/-- 42_spsc_ops.md R171: the reads of a step stay in `[read_pos, c_seen_w)`, its writes in `[write_pos, p_seen_r + capacity)`, and these two
ranges share no physical offset. -/
def Obligations.TheTwoSidesNeverMeet : Prop :=
  (∀ s t : State, BlockInv s → s.phase = .split → step s = .next t →
    ∀ e ∈ t.events.drop s.events.length,
      match e.action with
      | .memRead p bytes => (p - s.readPos).toNat + bytes.length ≤ (s.cSeenW - s.readPos).toNat
      | .memWrite p bytes =>
        (p - s.writePos).toNat + bytes.length ≤ (s.pSeenR + s.capacity - s.writePos).toNat
      | _ => True) ∧
  (∀ s : State, BlockInv s → Configured s → s.mode = .spsc →
    ∀ i j, i < (s.cSeenW - s.readPos).toNat → j < (s.pSeenR + s.capacity - s.writePos).toNat →
      s.offsetOf (s.readPos + BitVec.ofNat 64 i) ≠ s.offsetOf (s.writePos + BitVec.ofNat 64 j))

/-- 10_state.md R39: storing a frame takes it from `Absent` to `Reserved`, publishing it to `Readable`, releasing it to `Consumed`; in mode
`SINGLE` one write takes it from `Absent` to `Readable`, one read to `Consumed`, and no frame is ever `Reserved`; no frame is in two
of the states, and no step takes one back. The four predicates, over positions counted without wrap, are the model's reading of R39
(log entry 24, a DESIGN CHOICE). -/
def Obligations.FramesLiveTheirLifecycle : Prop :=
  (∀ (s t : State) f w, BlockInv s → s.port = .prod → s.prod = .p3 f w → advance s = .next t →
    w = BitVec.ofNat 64 s.published ∧ FrameAbsent s s.published ∧ FrameReserved t s.published f.need.toNat) ∧
  (∀ (s t : State) f w, BlockInv s → s.port = .prod → s.prod = .p4 f w → advance s = .next t →
    w = BitVec.ofNat 64 s.published ∧ FrameReserved s s.published f.need.toNat ∧ FrameReadable t s.published f.need.toNat) ∧
  (∀ (s t : State) r h n b, BlockInv s → s.port = .cons → s.cons = .c5 r h n b → advance s = .next t →
    r = BitVec.ofNat 64 s.released ∧ FrameReadable s s.released (needOf n).toNat ∧ FrameConsumed t s.released (needOf n).toNat) ∧
  (∀ (s t : State) ts e fl n payload, BlockInv s → s.port = .prod → s.phase = .whole → s.mode = .single →
    exec (.writeEvent ts e fl n payload) s = .next t → t.prod = .responding (.ok .empty) →
    s.writePos = BitVec.ofNat 64 s.published ∧ FrameAbsent s s.published ∧
      FrameReadable t s.published (16 + payload.length)) ∧
  (∀ (s t : State) h payload, BlockInv s → s.port = .cons → s.phase = .whole → s.mode = .single →
    exec .readEvent s = .next t → t.cons = .responding (.ok (.event h payload)) →
    s.readPos = BitVec.ofNat 64 s.released ∧ FrameReadable s s.released (16 + payload.length) ∧
      FrameConsumed t s.released (16 + payload.length)) ∧
  (∀ (s : State) start need, BlockInv s → s.mode = .single → ¬ FrameReserved s start need) ∧
  (∀ (s : State) start need, BlockInv s → Configured s → 0 < need →
    (FrameAbsent s start → ¬ FrameReserved s start need ∧ ¬ FrameReadable s start need ∧ ¬ FrameConsumed s start need) ∧
    (FrameReserved s start need → ¬ FrameReadable s start need ∧ ¬ FrameConsumed s start need) ∧
    (FrameReadable s start need → ¬ FrameConsumed s start need)) ∧
  (∀ (s t : State) start need, BlockInv s → Configured s → step s = .next t → Configured t →
    (FrameAbsent t start → FrameAbsent s start) ∧
    (FrameReserved s start need → FrameReserved t start need ∨ FrameReadable t start need) ∧
    (FrameConsumed s start need → FrameConsumed t start need)) ∧
  (∀ (s t : State) before f after, BlockInv s → Configured s → Holds s (before ++ f :: after) → step s = .next t → Configured t →
    FrameReadable s (s.released + totalSize before) f.need.toNat ∧
      (FrameReadable t (s.released + totalSize before) f.need.toNat ∨
        FrameConsumed t (s.released + totalSize before) f.need.toNat))

/-- 41_ring_ops.md R155, 42_spsc_ops.md R178: an operation in progress takes each of its steps whatever the other side has done, each step
brings it nearer to its response, and no step at another port changes what it is doing. Under the fairness of 20_memory.md R87 (a
hypothesis: log entry 21) a consumer that polls for ever has in the end released every frame published, and with it a producer that
retries a frame no larger than `capacity` has in the end published. -/
def Obligations.OperationsFinish : Prop :=
  (∀ s : State, BlockInv s → 0 < stepsLeft (s.portState s.port) →
    ∃ t, advance s = .next t ∧ stepsLeft (t.portState s.port) < stepsLeft (s.portState s.port) ∧ t.portState s.port ≠ .idle) ∧
  (∀ s t : State, step s = .next t → ∀ p, p ≠ t.port → t.portState p = s.portState p) ∧
  (∀ (world : World) (run : Nat → State), IsRun world run → BlockInv (run 0) → (∀ n, (run n).phase = .split) →
    FairToConsumer run → PollsForever run → ∀ n, ∃ m, n ≤ m ∧ (run n).published ≤ (run m).released) ∧
  (∀ (world : World) (run : Nat → State), IsRun world run → BlockInv (run 0) → (∀ n, (run n).phase = .split) →
    FairToConsumer run → FairToProducer run → PollsForever run →
    ∀ n, RetriesFrom n run → ∃ m, n ≤ m ∧ (run n).published < (run m).published)

/-- 10_state.md R37: which port's steps may change which element, while the ring exists. -/
def Obligations.OnlyTheOwnersPortWrites : Prop :=
  ∀ s t : State, BlockInv s → Configured s → step s = .next t → Configured t →
    t.mode = s.mode ∧ t.capacity = s.capacity ∧ t.mask = s.mask ∧
    (t.phase ≠ s.phase → t.port = .cfg) ∧
    (t.writePos ≠ s.writePos → t.port = .prod) ∧
    (t.readPos ≠ s.readPos → t.port = .cons) ∧
    ((∃ o, t.byteAt o ≠ s.byteAt o) → t.port = .prod) ∧
    (t.prodAlive ≠ s.prodAlive → t.port = .cfg ∨ t.port = .prod) ∧
    (t.consAlive ≠ s.consAlive → t.port = .cfg ∨ t.port = .cons) ∧
    (t.pSeenR ≠ s.pSeenR → t.port = .prod) ∧ (t.cSeenW ≠ s.cSeenW → t.port = .cons)

/-- Four steps of port `PROD` in a row are one write (42_spsc_ops.md R173): with the value `v` its acquire-load draws, the frame is appended when
it fits; two steps are one failed write when it does not. -/
def Obligations.AnUninterruptedWriteIsOneWrite : Prop :=
  ∀ (s : State) (f : Frame) (fs : List Frame) (rest : List Input), BlockInv s → s.prod = .p1 f → Holds s fs →
    s.inbox = List.replicate 4 (.advance .prod) ++ rest →
    ∃ k v, s.pSeenAt ≤ k ∧ s.histR[k]? = some v ∧
      (f.need ≤ s.capacity - (s.writePos - v) →
        ∃ t, core.run 4 s = .next t ∧ t.prod = .responding (.ok .empty) ∧ t.writePos = s.writePos + f.need ∧
          t.readPos = s.readPos ∧ t.pSeenR = v ∧ Holds t (fs ++ [f]) ∧ t.cons = s.cons ∧ t.inbox = rest) ∧
      (s.capacity - (s.writePos - v) < f.need →
        ∃ t, core.run 2 s = .next t ∧
          t.prod = .responding (.notEnoughSpace f.need (s.capacity - (s.writePos - v))) ∧ t.writePos = s.writePos ∧
          t.readPos = s.readPos ∧ t.pSeenR = v ∧ Holds t fs ∧ t.cons = s.cons)

/-- No frame is lost, duplicated, torn or reordered by a step: what was received, is in hand, unread or reserved, in this order, grows by exactly
the frames the step stores (42_spsc_ops.md R177; 20_memory.md R86). Either mode. -/
def Obligations.StepConservesFrames : Prop :=
  ∀ (s t : State) (fs : List Frame), BlockInv s → Configured s → Holds s fs → step s = .next t → Configured t →
    ∃ gs new, Holds t gs ∧ stored t = stored s ++ new ∧ flow t gs = flow s fs ++ new

/-- 42_spsc_ops.md R177, 41_ring_ops.md R152: along every run of a ring that starts empty, the frames received are, in order and byte for byte, a
prefix of the frames stored; what is missing is in hand, unread or reserved, in this order. -/
def Obligations.ReceivedIsAPrefixOfStored : Prop :=
  ∀ (n : Nat) (world : World) (run : Nat → State), IsRunTo n world run → BlockInv (run 0) → (∀ k, k ≤ n → Configured (run k)) →
    unread (run 0) = [] → inHand (run 0).cons = [] → reserved (run 0).prod = [] →
    ∃ got put fs, received (run n) = received (run 0) ++ got ∧ stored (run n) = stored (run 0) ++ put ∧ Holds (run n) fs ∧
      put = got ++ inHand (run n).cons ++ fs.map Frame.bytes ++ reserved (run n).prod
end

