-- ==== Sys2Proof/Laws/Bytes.lean ====
section
/-! SUPPORT. Lemmas about byte order and header fields. -/

namespace Sys2Proof.Machine

@[simp] theorem leBytes_zero (v : Nat) : leBytes 0 v = [] := rfl

@[simp] theorem length_leBytes (n v : Nat) : (leBytes n v).length = n := by
  induction n generalizing v with
  | zero => rfl
  | succ n ih => simp [leBytes, ih]

theorem fromLe_leBytes (n v : Nat) : fromLe (leBytes n v) = v % 256 ^ n := by
  induction n generalizing v with
  | zero => simp [leBytes, fromLe, Nat.mod_one]
  | succ n ih =>
    rw [Nat.pow_succ', Nat.mod_mul]
    simp [leBytes, fromLe, ih]

theorem fromLe_lt (bs : List Byte) : fromLe bs < 256 ^ bs.length := by
  induction bs with
  | nil => simp [fromLe]
  | cons b bs ih =>
    have := b.isLt
    simp only [fromLe, List.length_cons, Nat.pow_succ]
    omega

theorem leBytes_fromLe (bs : List Byte) : leBytes bs.length (fromLe bs) = bs := by
  induction bs with
  | nil => rfl
  | cons b bs ih =>
    have hb := b.isLt
    have h1 : (b.toNat + 256 * fromLe bs) / 256 = fromLe bs := by omega
    have h2 : BitVec.ofNat 8 (b.toNat + 256 * fromLe bs) = b := by
      apply BitVec.eq_of_toNat_eq
      simp only [BitVec.toNat_ofNat]
      omega
    simp [leBytes, fromLe, h1, h2, ih]

theorem leBytes_add (m n v : Nat) : leBytes (m + n) v = leBytes m v ++ leBytes n (v / 256 ^ m) := by
  induction m generalizing v with
  | zero => simp
  | succ m ih =>
    have h : m + 1 + n = (m + n) + 1 := by omega
    rw [h]
    simp [leBytes, ih, Nat.div_div_eq_div_mul, Nat.pow_succ, Nat.mul_comm]

theorem takeLe_leBytes (n v : Nat) (rest : List Byte) :
    takeLe n (leBytes n v ++ rest) = some (v % 256 ^ n, rest) := by
  induction n generalizing v with
  | zero => simp [takeLe, Nat.mod_one]
  | succ n ih =>
    rw [Nat.pow_succ', Nat.mod_mul]
    simp [leBytes, takeLe, ih]

theorem takeLe_one (b : Byte) (rest : List Byte) : takeLe 1 (b :: rest) = some (b.toNat, rest) := by
  simp [takeLe]

/-- The 16 bytes of a header value, and back. -/
theorem headerOfBytes_headerBytes (h : HeaderBits) : headerOfBytes (headerBytes h) = h := by
  apply BitVec.eq_of_toNat_eq
  have := h.isLt
  simp only [headerOfBytes, headerBytes, fromLe_leBytes, BitVec.toNat_ofNat]
  omega

theorem headerBytes_headerOfBytes (bs : List Byte) (hl : bs.length = 16) : headerBytes (headerOfBytes bs) = bs := by
  have h1 := fromLe_lt bs
  rw [hl] at h1
  have h2 : (headerOfBytes bs).toNat = fromLe bs := by
    simp only [headerOfBytes, BitVec.toNat_ofNat]
    omega
  rw [headerBytes, h2, ← hl, leBytes_fromLe]

@[simp] theorem length_headerBytes (h : HeaderBits) : (headerBytes h).length = 16 := length_leBytes _ _

/-! ## The fields of a packed header -/

theorem packHeader_toNat (t : Word) (e f : Byte) (n : Half) (r : Reserved) :
    (packHeader t e f n r).toNat =
      t.toNat + 2 ^ 64 * (e.toNat + 2 ^ 8 * (f.toNat + 2 ^ 8 * (n.toNat + 2 ^ 16 * r.toNat))) := by
  have := t.isLt; have := e.isLt; have := f.isLt; have := n.isLt
  simp only [packHeader, BitVec.toNat_append]
  rw [← Nat.shiftLeft_add_eq_or_of_lt (by omega), ← Nat.shiftLeft_add_eq_or_of_lt (by omega),
    ← Nat.shiftLeft_add_eq_or_of_lt (by omega), ← Nat.shiftLeft_add_eq_or_of_lt (by omega)]
  simp only [Nat.shiftLeft_eq]
  omega

theorem headerTimestamp_packHeader (t : Word) (e f : Byte) (n : Half) (r : Reserved) :
    headerTimestamp (packHeader t e f n r) = t := by
  apply BitVec.eq_of_toNat_eq
  have := t.isLt
  simp only [headerTimestamp, BitVec.extractLsb'_toNat, packHeader_toNat, Nat.shiftRight_eq_div_pow]
  omega

theorem headerEventType_packHeader (t : Word) (e f : Byte) (n : Half) (r : Reserved) :
    headerEventType (packHeader t e f n r) = e := by
  apply BitVec.eq_of_toNat_eq
  have := t.isLt; have := e.isLt
  simp only [headerEventType, BitVec.extractLsb'_toNat, packHeader_toNat, Nat.shiftRight_eq_div_pow]
  omega

theorem headerFlags_packHeader (t : Word) (e f : Byte) (n : Half) (r : Reserved) :
    headerFlags (packHeader t e f n r) = f := by
  apply BitVec.eq_of_toNat_eq
  have := t.isLt; have := e.isLt; have := f.isLt
  simp only [headerFlags, BitVec.extractLsb'_toNat, packHeader_toNat, Nat.shiftRight_eq_div_pow]
  omega

theorem headerPayloadLen_packHeader (t : Word) (e f : Byte) (n : Half) (r : Reserved) :
    headerPayloadLen (packHeader t e f n r) = n := by
  apply BitVec.eq_of_toNat_eq
  have := t.isLt; have := e.isLt; have := f.isLt; have := n.isLt
  simp only [headerPayloadLen, BitVec.extractLsb'_toNat, packHeader_toNat, Nat.shiftRight_eq_div_pow]
  omega

theorem headerReserved_packHeader (t : Word) (e f : Byte) (n : Half) (r : Reserved) :
    headerReserved (packHeader t e f n r) = r := by
  apply BitVec.eq_of_toNat_eq
  have := t.isLt; have := e.isLt; have := f.isLt; have := n.isLt; have := r.isLt
  simp only [headerReserved, BitVec.extractLsb'_toNat, packHeader_toNat, Nat.shiftRight_eq_div_pow]
  omega

/-- Every header value is the packing of its fields. -/
theorem packHeader_fields (h : HeaderBits) :
    packHeader (headerTimestamp h) (headerEventType h) (headerFlags h) (headerPayloadLen h) (headerReserved h) = h := by
  apply BitVec.eq_of_toNat_eq
  have := h.isLt
  simp only [packHeader_toNat, headerTimestamp, headerEventType, headerFlags, headerPayloadLen, headerReserved,
    BitVec.extractLsb'_toNat, Nat.shiftRight_eq_div_pow]
  omega

theorem needOf_toNat (n : Half) : (needOf n).toNat = 16 + n.toNat := by
  have := n.isLt
  simp only [needOf, BitVec.toNat_add, BitVec.toNat_setWidth, BitVec.toNat_ofNat]
  omega

theorem Frame.payloadLen_header (f : Frame) : headerPayloadLen f.header = f.payloadLen := by
  simp [Frame.header, encodeHeader, headerPayloadLen_packHeader]

/-- A frame that agrees with its header is `need` bytes long. -/
theorem Frame.length_bytes (f : Frame) (h : f.agrees = true) : f.bytes.length = f.need.toNat := by
  simp only [Frame.agrees, decide_eq_true_eq] at h
  simp [Frame.bytes, Frame.need, needOf_toNat, h]

end Sys2Proof.Machine
end

