-- ==== Sys2Proof/Laws/Decode.lean ====
section
/-! SUPPORT. The decoder: what each piece of it can answer, and the header's bytes (spec/30_encoding.md R100, R108, R115). -/

namespace Sys2Proof

open Machine

/-- The 16 bytes of a header by field. -/
theorem leBytes_header (v : Nat) : leBytes 16 v = leBytes 8 v ++ (leBytes 1 (v / 2 ^ 64) ++ (leBytes 1 (v / 2 ^ 72) ++
    (leBytes 2 (v / 2 ^ 80) ++ leBytes 4 (v / 2 ^ 96)))) := by
  rw [show 16 = 8 + (1 + (1 + (2 + 4))) from rfl, leBytes_add, leBytes_add, leBytes_add, leBytes_add]
  simp only [Nat.div_div_eq_div_mul]
  norm_num

/-- The bytes of a header decode to its fields (30_encoding.md R108). -/
theorem decode_headerBytes (h : HeaderBits) :
    decode .hdr (headerBytes h) = .ok (.frameHeader (headerTimestamp h) (headerEventType h)
      (headerFlags h) (headerPayloadLen h) (headerReserved h)) := by
  have e : takeLe 4 (leBytes 4 (h.toNat / 2 ^ 96)) = some (h.toNat / 2 ^ 96 % 256 ^ 4, []) := by
    rw [← takeLe_leBytes 4 (h.toNat / 2 ^ 96) [], List.append_nil]
  simp only [decode, decodeFrameHeader, field, headerBytes, leBytes_header, takeLe_leBytes, e, atEnd]
  congr 2 <;> apply BitVec.eq_of_toNat_eq <;>
    simp only [headerTimestamp, headerEventType, headerFlags, headerPayloadLen, headerReserved,
      BitVec.extractLsb'_toNat, BitVec.toNat_ofNat, Nat.shiftRight_eq_div_pow] <;> norm_num

/-- What a decoder that ends here gives. -/
theorem atEnd_ok {rest : List Byte} {i j : Instr} (h : atEnd rest i = .ok j) : rest = [] ∧ j = i := by
  cases rest
  · exact ⟨rfl, by simpa [atEnd] using h.symm⟩
  · cases h

/-- What a decoder that reads a field gives. -/
theorem field_ok {n : Nat} {bs : List Byte} {k} {j : Instr} (h : field n bs k = .ok j) :
    ∃ v rest, takeLe n bs = some (v, rest) ∧ k v rest = .ok j := by
  unfold field at h
  split at h
  · exact ⟨_, _, ‹_›, h⟩
  · cases h


/-- One branch of a chain of tests. -/
theorem ite_elim {α : Type} {c : Prop} [Decidable c] {x y z : α} {P : Prop} (h : (if c then x else y) = z)
    (h1 : x = z → P) (h2 : y = z → P) : P := by
  by_cases hc : c
  · exact h1 (by rwa [if_pos hc] at h)
  · exact h2 (by rwa [if_neg hc] at h)

theorem format_atEnd {rest : List Byte} {i j : Instr} (hj : j.format = .cmd) (h : atEnd rest j = .ok i) : i.format = .cmd := by
  obtain ⟨-, rfl⟩ := atEnd_ok h; exact hj

theorem format_field {n : Nat} {bs : List Byte} {k} {i : Instr}
    (hk : ∀ v rest, k v rest = .ok i → i.format = .cmd) (h : field n bs k = .ok i) : i.format = .cmd := by
  obtain ⟨v, rest, -, h⟩ := field_ok h; exact hk v rest h

theorem format_decodeNew {bs : List Byte} {i : Instr} (h : decodeNew bs = .ok i) : i.format = .cmd := by
  unfold decodeNew at h
  refine format_field (fun _ _ => format_field fun _ _ h => ?_) h
  exact ite_elim h (format_atEnd rfl) fun h => ite_elim h (format_atEnd rfl) fun h => by cases h

/-- A request decodes to a command or to a reserved code, never to a header, a response or a reason code. -/
theorem format_decodeOperands {code : Byte} {bs : List Byte} {i : Instr} (h : decodeOperands code bs = .ok i) : i.format = .cmd :=
  ite_elim h format_decodeNew fun h => ite_elim h (format_atEnd rfl) fun h => ite_elim h (format_atEnd rfl) fun h =>
  ite_elim h (format_field fun _ _ => format_field fun _ _ => format_field fun _ _ => format_field fun _ _ h => by cases h; rfl) fun h =>
  ite_elim h (format_atEnd rfl) fun h => ite_elim h (format_atEnd rfl) fun h => ite_elim h (format_atEnd rfl) fun h =>
  ite_elim h (format_atEnd rfl) fun h =>
  ite_elim h (format_field fun _ _ => format_atEnd rfl) fun h =>
  ite_elim h (format_field fun _ _ => format_field fun _ _ => format_field fun _ _ => format_atEnd rfl) fun h =>
  ite_elim h (format_field fun _ _ => format_field fun _ _ => format_field fun _ _ => format_field fun _ _ => format_atEnd rfl) fun h =>
  ite_elim h (format_field fun _ _ => format_atEnd rfl) fun h =>
  ite_elim h (format_atEnd rfl) fun h => ite_elim h (format_atEnd rfl) fun h => ite_elim h (format_atEnd rfl) fun h => by cases h; rfl

/-- The decoder of requests gives requests. -/
theorem format_decode_cmd {bs : List Byte} {i : Instr} (h : decode .cmd bs = .ok i) : i.format = .cmd := by
  cases bs with
  | nil => cases h
  | cons x bs => exact format_decodeOperands h

/-- Any 16 bytes decode to a frame header (30_encoding.md R115). -/
theorem decode_hdr (bs : List Byte) (hl : bs.length = 16) :
    decode .hdr bs = .ok (.frameHeader (headerTimestamp (headerOfBytes bs)) (headerEventType (headerOfBytes bs))
      (headerFlags (headerOfBytes bs)) (headerPayloadLen (headerOfBytes bs)) (headerReserved (headerOfBytes bs))) := by
  have := decode_headerBytes (headerOfBytes bs)
  rwa [headerBytes_headerOfBytes bs hl] at this

/-! ## Reading back one encoded field -/

theorem field_word (w : Word) (rest : List Byte)
    (k : Nat → List Byte → Except DecodeError Instr) : field 8 (bytesOfWord w ++ rest) k = k w.toNat rest := by
  have h := w.isLt
  rw [field, bytesOfWord, takeLe_leBytes, Nat.mod_eq_of_lt (by omega)]

theorem field_half (w : Half) (rest : List Byte)
    (k : Nat → List Byte → Except DecodeError Instr) : field 2 (bytesOfHalf w ++ rest) k = k w.toNat rest := by
  have h := w.isLt
  rw [field, bytesOfHalf, takeLe_leBytes, Nat.mod_eq_of_lt (by omega)]

theorem field_res (w : Reserved) (rest : List Byte)
    (k : Nat → List Byte → Except DecodeError Instr) : field 4 (bytesOfReserved w ++ rest) k = k w.toNat rest := by
  have h := w.isLt
  rw [field, bytesOfReserved, takeLe_leBytes, Nat.mod_eq_of_lt (by omega)]

theorem field_byte (w : Byte) (rest : List Byte)
    (k : Nat → List Byte → Except DecodeError Instr) : field 1 (w :: rest) k = k w.toNat rest := by
  rw [field, takeLe_one]

theorem field_header (w : HeaderBits) (rest : List Byte)
    (k : Nat → List Byte → Except DecodeError Instr) : field 16 (headerBytes w ++ rest) k = k w.toNat rest := by
  have h := w.isLt
  rw [field, headerBytes, takeLe_leBytes, Nat.mod_eq_of_lt (by omega)]

theorem field_word' (w : Word) (k : Nat → List Byte → Except DecodeError Instr) : field 8 (bytesOfWord w) k = k w.toNat [] := by simpa using field_word w [] k

theorem field_half' (w : Half) (k : Nat → List Byte → Except DecodeError Instr) : field 2 (bytesOfHalf w) k = k w.toNat [] := by simpa using field_half w [] k

theorem field_res' (w : Reserved) (k : Nat → List Byte → Except DecodeError Instr) : field 4 (bytesOfReserved w) k = k w.toNat [] := by simpa using field_res w [] k

theorem field_header' (w : HeaderBits) (k : Nat → List Byte → Except DecodeError Instr) : field 16 (headerBytes w) k = k w.toNat [] := by simpa using field_header w [] k

end Sys2Proof
end

