-- ==== Sys2Proof/Laws/Histories.lean ====
section
/-! SUPPORT. Words and lists of words: differences of positions modulo `2^64` (spec/10_state.md R24), and the order of the release histories (20_memory.md R80). -/

namespace Sys2Proof.Safety

open Machine

/-! ## Differences of positions, modulo `2^64` -/

theorem w_rebase {r p v w : Word} (hv : v - p ≤ r - p) (b : r - p ≤ w - p) : r - v ≤ w - v := by bv_omega

theorem w_room {r p v w c : Word} (hv : v - p ≤ r - p) (b : r - p ≤ w - p) (h : w - p ≤ c) : w - v ≤ c := by bv_omega

theorem w_seen {c v w r : Word} (hv : v - c ≤ w - c) (b : c - r ≤ w - r) : v - r ≤ w - r := by bv_omega

theorem w_fits {c w p r n : Word} (h1 : r - p ≤ w - p) (h2 : w - p ≤ c) (h3 : n ≤ c - (w - p)) :
    (w - r).toNat + n.toNat ≤ c.toNat := by bv_omega

theorem w_sum {a b n : Word} (h : (a - b).toNat + n.toNat < 2 ^ 64) : (a + n - b).toNat = (a - b).toNat + n.toNat := by bv_omega

theorem w_sub {a b n : Word} (h : n ≤ a - b) : (a - (b + n)).toNat = (a - b).toNat - n.toNat := by bv_omega

theorem w_le_trans {a b r : Word} (h : a - r ≤ b - r) : b - a ≤ b - r := by bv_omega

theorem w_inner {a b r : Word} (h : a - r ≤ b - r) : (b - a).toNat = (b-r).toNat - (a - r).toNat := by bv_omega

theorem w_room2 {c w p n : Word} (h2 : w - p ≤ c) (h3 : n ≤ c - (w - p)) : (w - p).toNat + n.toNat ≤ c.toNat := by bv_omega

/-! ## Histories -/

/-- Every element of a list in order is the last one or before it. -/
theorem pairwise_last {α : Type} {R : α → α → Prop} {L : List α} (h : L.Pairwise R) {r x : α}
    (hr : L.getLast? = some r) (hx : x ∈ L) : x = r ∨ R x r := by
  induction L with
  | nil => simp at hx
  | cons a L ih =>
    rw [List.pairwise_cons] at h
    cases L with
    | nil => simp at hr hx; left; rw [hx, hr]
    | cons b L' =>
      have hr' : (b :: L').getLast? = some r := by simpa [List.getLast?_cons_cons] using hr
      rcases List.mem_cons.1 hx with rfl | hx
      · right; exact h.1 r (List.mem_of_getLast? hr')
      · exact ih h.2 hr' hx

theorem getLast?_drop_of_some {α : Type} {L : List α} {j : Nat} {x r : α} (hj : L[j]? = some x)
    (hr : L.getLast? = some r) : (L.drop j).getLast? = some r := by
  have hlt : j < L.length := by
    by_contra h; rw [List.getElem?_eq_none (by omega)] at hj; cases hj
  rw [List.getLast?_drop, if_neg (by omega)]; exact hr

/-- Nothing in a history from the snapshot on is newer than the last element. -/
theorem le_last {L : List Word} {base r x : Word} {j : Nat} {b : Word}
    (h : (L.drop j).Pairwise fun a b => a - base ≤ b - base)
    (hj : L[j]? = some b) (hr : L.getLast? = some r) (hx : x ∈ L.drop j) : x - base ≤ r - base := by
  rcases pairwise_last h (getLast?_drop_of_some hj hr) hx with h | h
  · subst h; exact BitVec.le_refl _
  · exact h

/-- A release store of a newer value keeps a history in order. -/
theorem rising_append {L : List Word} {base r v : Word} {j : Nat} {b : Word}
    (h : (L.drop j).Pairwise fun a b => a - base ≤ b - base)
    (hj : L[j]? = some b) (hr : L.getLast? = some r) (hv : r - base ≤ v - base) :
    ((L ++ [v]).drop j).Pairwise fun a b => a - base ≤ b - base := by
  have hlt : j < L.length := by
    by_contra h; rw [List.getElem?_eq_none (by omega)] at hj; cases hj
  rw [List.drop_append_of_le_length (by omega), List.pairwise_append]
  refine ⟨h, by simp, ?_⟩
  intro a ha b hb
  simp at hb; subst hb
  exact BitVec.le_trans (le_last h hj hr ha) hv

theorem getElem?_append_old {L : List Word} {j : Nat} {b v : Word} (hj : L[j]? = some b) :
    (L ++ [v])[j]? = some b := by
  have hlt : j < L.length := by
    by_contra h; rw [List.getElem?_eq_none (by omega)] at hj; cases hj
  rw [List.getElem?_append_left hlt]; exact hj

/-- A history in order stays in order seen from a newer snapshot. -/
theorem rising_rebase {L : List Word} {base v : Word} {k : Nat}
    (h : L.Pairwise fun a b => a - base ≤ b - base) (hk : L[k]? = some v) :
    (L.drop k).Pairwise fun a b => a - v ≤ b - v := by
  induction L generalizing k with
  | nil => simp
  | cons a L ih =>
    rw [List.pairwise_cons] at h
    cases k with
    | zero =>
      simp at hk; subst hk
      simp only [List.drop_zero, List.pairwise_cons]
      refine ⟨fun b hb => by bv_omega, ?_⟩
      refine (h.2.imp_of_mem ?_)
      intro x y hx hy hxy
      have h1 := h.1 x hx; have h2 := h.1 y hy
      bv_omega
    | succ k =>
      simp at hk ⊢
      exact ih h.2 hk

theorem getElem?_mem_drop {L : List Word} {j : Nat} {v : Word} (h : L[j]? = some v) : v ∈ L.drop j := by
  have : (L.drop j)[0]? = some v := by simpa using h
  exact List.mem_of_getElem? this

theorem drop_ne_nil {L : List Word} {j : Nat} {b : Word} (hj : L[j]? = some b) : L.drop j ≠ [] := by
  have := getElem?_mem_drop hj
  intro h; rw [h] at this; cases this

end Sys2Proof.Safety
end

