-- ==== Sys2Proof/Laws/Region.lean ====
section
/-! SUPPORT. The region: one byte read after one byte written, the canonical form, and the two loops `MemWrite` and `MemRead`
(spec/20_memory.md R72, R73). -/

namespace Sys2Proof.Machine

/-! ## One byte -/

theorem Region.get?_set (m : Region) (o p : Nat) (v : Byte) :
    Region.get? (Region.set m o v) p = if p = o then some v else Region.get? m p := by
  induction m with
  | nil =>
    by_cases h : p = o
    · simp [Region.set, Region.get?, h]
    · simp [Region.set, Region.get?, h, Ne.symm h]
  | cons c rest ih =>
    obtain ⟨a, b⟩ := c
    simp only [Region.set]
    split
    · by_cases h : p = o
      · simp [Region.get?, h]
      · simp [Region.get?, h, Ne.symm h]
    · split
      · subst o
        by_cases h : p = a <;> simp [Region.get?, h, eq_comm]
      · rename_i h1 h2
        simp only [Region.get?, ih]
        by_cases h : a = p
        · subst h; simp [Ne.symm h2]
        · simp [h]

theorem Region.above_mono {lo lo' : Nat} (h : lo' ≤ lo) {m : Region} (hm : Region.above lo m = true) :
    Region.above lo' m = true := by
  cases m with
  | nil => rfl
  | cons c rest =>
    obtain ⟨a, b⟩ := c
    simp only [Region.above, Bool.and_eq_true, decide_eq_true_eq] at hm ⊢
    exact ⟨by omega, hm.2⟩

theorem Region.above_set {lo o : Nat} (v : Byte) (h : lo < o) {m : Region} (hm : Region.above lo m = true) :
    Region.above lo (Region.set m o v) = true := by
  induction m generalizing lo with
  | nil => simp [Region.set, Region.above, h]
  | cons c rest ih =>
    obtain ⟨a, b⟩ := c
    simp only [Region.above, Bool.and_eq_true, decide_eq_true_eq] at hm
    simp only [Region.set]
    split
    · rename_i hlt
      simp only [Region.above, Bool.and_eq_true, decide_eq_true_eq]
      exact ⟨h, hlt, hm.2⟩
    · split
      · subst o
        simp only [Region.above, Bool.and_eq_true, decide_eq_true_eq]
        exact ⟨h, hm.2⟩
      · simp only [Region.above, Bool.and_eq_true, decide_eq_true_eq]
        exact ⟨hm.1, ih (by omega) hm.2⟩

/-- Storing a byte keeps the canonical form. -/
theorem Region.wf_set (o : Nat) (v : Byte) {m : Region} (hm : Memory.wf m = true) :
    Memory.wf (Region.set m o v) = true := by
  cases m with
  | nil => rfl
  | cons c rest =>
    obtain ⟨a, b⟩ := c
    simp only [Memory.wf] at hm
    simp only [Region.set]
    split
    · rename_i hlt
      simp only [Memory.wf, Region.above, Bool.and_eq_true, decide_eq_true_eq]
      exact ⟨hlt, hm⟩
    · split
      · subst o; exact hm
      · exact Region.above_set v (by omega) hm

theorem Region.mem_set {m : Region} {o : Nat} {v : Byte} {c : Host.Cell} (h : c ∈ Region.set m o v) :
    c = (o, v) ∨ c ∈ m := by
  induction m with
  | nil => simpa [Region.set] using h
  | cons d rest ih =>
    obtain ⟨a, b⟩ := d
    simp only [Region.set] at h
    split at h
    · simpa using h
    · split at h
      · rcases List.mem_cons.1 h with h | h
        · exact .inl h
        · exact .inr (List.mem_cons_of_mem _ h)
      · rcases List.mem_cons.1 h with h | h
        · exact .inr (by simp [h])
        · rcases ih h with h | h
          · exact .inl h
          · exact .inr (List.mem_cons_of_mem _ h)

/-! ## The loops -/

/-- `MemWrite` keeps the canonical form. -/
theorem writeFrom_wf (mask pos : Word) (bs : List Byte) {m : Region} (hm : Memory.wf m = true) :
    Memory.wf (writeFrom mask pos bs m) = true := by
  induction bs generalizing pos m with
  | nil => exact hm
  | cons b bs ih => exact ih _ (Region.wf_set _ _ hm)

/-- `MemWrite` lists no offset but masked positions. -/
theorem writeFrom_inside (mask pos : Word) (bs : List Byte) {m : Region} {c : Host.Cell}
    (h : c ∈ writeFrom mask pos bs m) : c ∈ m ∨ ∃ p : Word, c.1 = (p &&& mask).toNat := by
  induction bs generalizing pos m with
  | nil => exact .inl h
  | cons b bs ih =>
    rcases ih _ h with h | h
    · rcases Region.mem_set h with h | h
      · exact .inr ⟨pos, by rw [h]⟩
      · exact .inl h
    · exact .inr h

/-- `MemWrite` leaves every other offset alone (R72: "No other byte changes"). -/
theorem writeFrom_get?_of_not_touched (mask pos : Word) (bs : List Byte) (m : Region) (o : Nat)
    (h : ∀ i, i < bs.length → o ≠ ((pos + BitVec.ofNat 64 i) &&& mask).toNat) :
    Region.get? (writeFrom mask pos bs m) o = Region.get? m o := by
  induction bs generalizing pos m with
  | nil => rfl
  | cons b bs ih =>
    have h0 := h 0 (by simp)
    simp only [BitVec.add_zero] at h0
    rw [writeFrom, ih, Region.get?_set, if_neg h0]
    intro i hi
    have := h (i + 1) (by simpa using hi)
    rwa [BitVec.ofNat_add, BitVec.add_comm (BitVec.ofNat 64 i), ← BitVec.add_assoc] at this

/-- `MemWrite` stores byte `i` at the offset of position `pos + i`, when no two of the positions share an offset. -/
theorem writeFrom_get?_of_touched (mask pos : Word) (bs : List Byte) (m : Region) (i : Nat) (hi : i < bs.length)
    (h : ∀ j, i < j → j < bs.length →
      ((pos + BitVec.ofNat 64 i) &&& mask).toNat ≠ ((pos + BitVec.ofNat 64 j) &&& mask).toNat) :
    Region.get? (writeFrom mask pos bs m) ((pos + BitVec.ofNat 64 i) &&& mask).toNat = some bs[i] := by
  induction bs generalizing pos m i with
  | nil => simp at hi
  | cons b bs ih =>
    have shift : ∀ j, pos + BitVec.ofNat 64 (j + 1) = (pos + 1#64) + BitVec.ofNat 64 j := by
      intro j
      rw [BitVec.ofNat_add, BitVec.add_comm (BitVec.ofNat 64 j), ← BitVec.add_assoc]
    cases i with
    | zero =>
      simp only [BitVec.add_zero, List.getElem_cons_zero] at h ⊢
      rw [writeFrom, writeFrom_get?_of_not_touched, Region.get?_set, if_pos rfl]
      intro j hj
      have := h (j + 1) (by omega) (by simpa using hj)
      rwa [shift] at this
    | succ i =>
      rw [shift, writeFrom, ih]
      · simp
      · simpa using hi
      · intro j hj hl
        have := h (j + 1) (by omega) (by simpa using hl)
        rwa [shift i, shift j] at this

@[simp] theorem State.length_readFrom (s : State) (p : Word) (n : Nat) : (s.readFrom p n).length = n := by
  induction n generalizing p with
  | zero => rfl
  | succ n ih => simp [State.readFrom, ih]

theorem State.readFrom_getElem (s : State) (p : Word) (n i : Nat) (hi : i < (s.readFrom p n).length) :
    (s.readFrom p n)[i] = s.byteAt (s.offsetOf (p + BitVec.ofNat 64 i)) := by
  induction n generalizing p i with
  | zero => simp [State.readFrom] at hi
  | succ n ih =>
    cases i with
    | zero => simp [State.readFrom]
    | succ i =>
      simp only [State.readFrom, List.getElem_cons_succ, ih]
      rw [BitVec.ofNat_add, BitVec.add_comm (BitVec.ofNat 64 i), ← BitVec.add_assoc]

theorem State.readFrom_add (s : State) (p : Word) (m n : Nat) :
    s.readFrom p (m + n) = s.readFrom p m ++ s.readFrom (p + BitVec.ofNat 64 m) n := by
  induction m generalizing p with
  | zero => simp [State.readFrom]
  | succ m ih =>
    rw [Nat.succ_add]
    simp only [State.readFrom, ih, List.cons_append]
    rw [BitVec.ofNat_add, BitVec.add_comm (BitVec.ofNat 64 m), ← BitVec.add_assoc]

/-- `MemRead` depends on the region only at the offsets it reads, and on the mask. -/
theorem State.readFrom_congr {s t : State} (p : Word) (n : Nat) (hm : t.mask = s.mask)
    (h : ∀ i, i < n → t.byteAt (s.offsetOf (p + BitVec.ofNat 64 i)) = s.byteAt (s.offsetOf (p + BitVec.ofNat 64 i))) :
    t.readFrom p n = s.readFrom p n := by
  apply List.ext_getElem
  · simp
  · intro i h1 h2
    rw [State.readFrom_getElem, State.readFrom_getElem]
    simp only [State.length_readFrom] at h1
    have : t.offsetOf (p + BitVec.ofNat 64 i) = s.offsetOf (p + BitVec.ofNat 64 i) := by
      simp [State.offsetOf, hm]
    rw [this, h i h1]

/-! ## Masked positions of a power-of-two ring (20_memory.md R68, R71) -/

theorem offset_of_mask {k : Nat} {c : Word} (hc : c.toNat = 2 ^ k) (p : Word) :
    (p &&& (c - 1#64)).toNat = p.toNat % c.toNat := by
  have hlt := c.isLt
  have hpos : 0 < 2 ^ k := Nat.two_pow_pos k
  have h1 : (c - 1#64).toNat = 2 ^ k - 1 := by
    rw [BitVec.toNat_sub]
    simp only [BitVec.toNat_ofNat, hc]
    omega
  rw [BitVec.toNat_and, h1, hc, Nat.and_two_pow_sub_one_eq_mod]

theorem two_pow_dvd_of_capacity {k : Nat} {c : Word} (hc : c.toNat = 2 ^ k) : c.toNat ∣ 2 ^ 64 := by
  have hlt := c.isLt
  rw [hc] at hlt ⊢
  exact pow_dvd_pow 2 (Nat.le_of_lt ((Nat.pow_lt_pow_iff_right (by norm_num)).1 hlt))

theorem offset_of_add {k : Nat} {c : Word} (hc : c.toNat = 2 ^ k) (p : Word) (i : Nat) :
    ((p + BitVec.ofNat 64 i) &&& (c - 1#64)).toNat = (p.toNat + i) % c.toNat := by
  rw [offset_of_mask hc, BitVec.toNat_add, BitVec.toNat_ofNat, Nat.add_mod_mod,
    Nat.mod_mod_of_dvd _ (two_pow_dvd_of_capacity hc)]

/-- Positions less than `capacity` apart have different offsets. -/
theorem offset_ne {k : Nat} {c : Word} (hc : c.toNat = 2 ^ k) (p : Word) {i j : Nat} (hij : i < j)
    (hj : j < i + c.toNat) :
    ((p + BitVec.ofNat 64 i) &&& (c - 1#64)).toNat ≠ ((p + BitVec.ofNat 64 j) &&& (c - 1#64)).toNat := by
  rw [offset_of_add hc, offset_of_add hc]
  intro h
  have h2 : (p.toNat + i) ≡ (p.toNat + j) [MOD c.toNat] := h
  have h3 := (Nat.modEq_iff_dvd' (by omega)).1 h2
  have h4 := Nat.le_of_dvd (by omega) h3
  omega

end Sys2Proof.Machine
end

