-- ==== Sys2Proof/Laws/State.lean ====
section
/-! SUPPORT. One lemma per field for the updates every meaning goes through: setting a port, recording an event, taking an
input. The other updates are record updates and are unfolded to these. -/

namespace Sys2Proof.Machine

/-! ## Setting a port -/

@[simp] theorem State.setPort_phase (s : State) (p : Port) (x : PortState) : (s.setPort p x).phase = s.phase := by
  cases p <;> rfl

@[simp] theorem State.setPort_mode (s : State) (p : Port) (x : PortState) : (s.setPort p x).mode = s.mode := by
  cases p <;> rfl

@[simp] theorem State.setPort_capacity (s : State) (p : Port) (x : PortState) : (s.setPort p x).capacity = s.capacity := by
  cases p <;> rfl

@[simp] theorem State.setPort_mask (s : State) (p : Port) (x : PortState) : (s.setPort p x).mask = s.mask := by
  cases p <;> rfl

@[simp] theorem State.setPort_writePos (s : State) (p : Port) (x : PortState) : (s.setPort p x).writePos = s.writePos := by
  cases p <;> rfl

@[simp] theorem State.setPort_readPos (s : State) (p : Port) (x : PortState) : (s.setPort p x).readPos = s.readPos := by
  cases p <;> rfl

@[simp] theorem State.setPort_prodAlive (s : State) (p : Port) (x : PortState) : (s.setPort p x).prodAlive = s.prodAlive := by
  cases p <;> rfl

@[simp] theorem State.setPort_consAlive (s : State) (p : Port) (x : PortState) : (s.setPort p x).consAlive = s.consAlive := by
  cases p <;> rfl

@[simp] theorem State.setPort_region (s : State) (p : Port) (x : PortState) : (s.setPort p x).region = s.region := by
  cases p <;> rfl

@[simp] theorem State.setPort_pSeenR (s : State) (p : Port) (x : PortState) : (s.setPort p x).pSeenR = s.pSeenR := by
  cases p <;> rfl

@[simp] theorem State.setPort_cSeenW (s : State) (p : Port) (x : PortState) : (s.setPort p x).cSeenW = s.cSeenW := by
  cases p <;> rfl

@[simp] theorem State.setPort_histW (s : State) (p : Port) (x : PortState) : (s.setPort p x).histW = s.histW := by
  cases p <;> rfl

@[simp] theorem State.setPort_histR (s : State) (p : Port) (x : PortState) : (s.setPort p x).histR = s.histR := by
  cases p <;> rfl

@[simp] theorem State.setPort_pSeenAt (s : State) (p : Port) (x : PortState) : (s.setPort p x).pSeenAt = s.pSeenAt := by
  cases p <;> rfl

@[simp] theorem State.setPort_cSeenAt (s : State) (p : Port) (x : PortState) : (s.setPort p x).cSeenAt = s.cSeenAt := by
  cases p <;> rfl

@[simp] theorem State.setPort_port (s : State) (p : Port) (x : PortState) : (s.setPort p x).port = s.port := by
  cases p <;> rfl

@[simp] theorem State.setPort_inbox (s : State) (p : Port) (x : PortState) : (s.setPort p x).inbox = s.inbox := by
  cases p <;> rfl

@[simp] theorem State.setPort_draws (s : State) (p : Port) (x : PortState) : (s.setPort p x).draws = s.draws := by
  cases p <;> rfl

@[simp] theorem State.setPort_events (s : State) (p : Port) (x : PortState) : (s.setPort p x).events = s.events := by
  cases p <;> rfl

@[simp] theorem State.setPort_freeCount (s : State) (p : Port) (x : PortState) : (s.setPort p x).freeCount = s.freeCount := by
  cases p <;> rfl

@[simp] theorem State.setPort_regionSeed (s : State) (p : Port) (x : PortState) : (s.setPort p x).regionSeed = s.regionSeed := by
  cases p <;> rfl

@[simp] theorem State.setPort_published (s : State) (p : Port) (x : PortState) : (s.setPort p x).published = s.published := by
  cases p <;> rfl

@[simp] theorem State.setPort_released (s : State) (p : Port) (x : PortState) : (s.setPort p x).released = s.released := by
  cases p <;> rfl

@[simp] theorem State.setPort_cfg (s : State) (p : Port) (x : PortState) :
    (s.setPort p x).cfg = if p = .cfg then x else s.cfg := by
  cases p <;> rfl

@[simp] theorem State.setPort_prod (s : State) (p : Port) (x : PortState) :
    (s.setPort p x).prod = if p = .prod then x else s.prod := by
  cases p <;> rfl

@[simp] theorem State.setPort_cons (s : State) (p : Port) (x : PortState) :
    (s.setPort p x).cons = if p = .cons then x else s.cons := by
  cases p <;> rfl

@[simp] theorem State.portState_setPort (s : State) (p q : Port) (x : PortState) :
    (s.setPort p x).portState q = if q = p then x else s.portState q := by
  cases p <;> cases q <;> rfl

@[simp] theorem State.portState_setPort_same (s : State) (p : Port) (x : PortState) :
    (s.setPort p x).portState p = x := by
  cases p <;> rfl

theorem State.setPort_setPort (s : State) (p : Port) (x y : PortState) :
    (s.setPort p x).setPort p y = s.setPort p y := by
  cases p <;> rfl

/-! ## Recording an event -/

@[simp] theorem State.log_phase (s : State) (a : Action) : (s.log a).phase = s.phase := rfl

@[simp] theorem State.log_mode (s : State) (a : Action) : (s.log a).mode = s.mode := rfl

@[simp] theorem State.log_capacity (s : State) (a : Action) : (s.log a).capacity = s.capacity := rfl

@[simp] theorem State.log_mask (s : State) (a : Action) : (s.log a).mask = s.mask := rfl

@[simp] theorem State.log_writePos (s : State) (a : Action) : (s.log a).writePos = s.writePos := rfl

@[simp] theorem State.log_readPos (s : State) (a : Action) : (s.log a).readPos = s.readPos := rfl

@[simp] theorem State.log_prodAlive (s : State) (a : Action) : (s.log a).prodAlive = s.prodAlive := rfl

@[simp] theorem State.log_consAlive (s : State) (a : Action) : (s.log a).consAlive = s.consAlive := rfl

@[simp] theorem State.log_region (s : State) (a : Action) : (s.log a).region = s.region := rfl

@[simp] theorem State.log_pSeenR (s : State) (a : Action) : (s.log a).pSeenR = s.pSeenR := rfl

@[simp] theorem State.log_cSeenW (s : State) (a : Action) : (s.log a).cSeenW = s.cSeenW := rfl

@[simp] theorem State.log_histW (s : State) (a : Action) : (s.log a).histW = s.histW := rfl

@[simp] theorem State.log_histR (s : State) (a : Action) : (s.log a).histR = s.histR := rfl

@[simp] theorem State.log_pSeenAt (s : State) (a : Action) : (s.log a).pSeenAt = s.pSeenAt := rfl

@[simp] theorem State.log_cSeenAt (s : State) (a : Action) : (s.log a).cSeenAt = s.cSeenAt := rfl

@[simp] theorem State.log_port (s : State) (a : Action) : (s.log a).port = s.port := rfl

@[simp] theorem State.log_inbox (s : State) (a : Action) : (s.log a).inbox = s.inbox := rfl

@[simp] theorem State.log_draws (s : State) (a : Action) : (s.log a).draws = s.draws := rfl

@[simp] theorem State.log_events (s : State) (a : Action) :
    (s.log a).events = s.events ++ [Event.mk s.port a] := rfl

@[simp] theorem State.log_freeCount (s : State) (a : Action) : (s.log a).freeCount = s.freeCount := rfl

@[simp] theorem State.log_regionSeed (s : State) (a : Action) : (s.log a).regionSeed = s.regionSeed := rfl

@[simp] theorem State.log_published (s : State) (a : Action) : (s.log a).published = s.published := rfl

@[simp] theorem State.log_released (s : State) (a : Action) : (s.log a).released = s.released := rfl

@[simp] theorem State.log_cfg (s : State) (a : Action) : (s.log a).cfg = s.cfg := rfl

@[simp] theorem State.log_prod (s : State) (a : Action) : (s.log a).prod = s.prod := rfl

@[simp] theorem State.log_cons (s : State) (a : Action) : (s.log a).cons = s.cons := rfl

@[simp] theorem State.portState_log (s : State) (a : Action) (p : Port) : (s.log a).portState p = s.portState p := by
  cases p <;> rfl

/-! ## Taking an input -/

@[simp] theorem State.at_phase (s : State) (p : Port) (rest : List Input) : (s.at p rest).phase = s.phase := rfl

@[simp] theorem State.at_mode (s : State) (p : Port) (rest : List Input) : (s.at p rest).mode = s.mode := rfl

@[simp] theorem State.at_capacity (s : State) (p : Port) (rest : List Input) : (s.at p rest).capacity = s.capacity := rfl

@[simp] theorem State.at_mask (s : State) (p : Port) (rest : List Input) : (s.at p rest).mask = s.mask := rfl

@[simp] theorem State.at_writePos (s : State) (p : Port) (rest : List Input) : (s.at p rest).writePos = s.writePos := rfl

@[simp] theorem State.at_readPos (s : State) (p : Port) (rest : List Input) : (s.at p rest).readPos = s.readPos := rfl

@[simp] theorem State.at_prodAlive (s : State) (p : Port) (rest : List Input) : (s.at p rest).prodAlive = s.prodAlive := rfl

@[simp] theorem State.at_consAlive (s : State) (p : Port) (rest : List Input) : (s.at p rest).consAlive = s.consAlive := rfl

@[simp] theorem State.at_region (s : State) (p : Port) (rest : List Input) : (s.at p rest).region = s.region := rfl

@[simp] theorem State.at_pSeenR (s : State) (p : Port) (rest : List Input) : (s.at p rest).pSeenR = s.pSeenR := rfl

@[simp] theorem State.at_cSeenW (s : State) (p : Port) (rest : List Input) : (s.at p rest).cSeenW = s.cSeenW := rfl

@[simp] theorem State.at_histW (s : State) (p : Port) (rest : List Input) : (s.at p rest).histW = s.histW := rfl

@[simp] theorem State.at_histR (s : State) (p : Port) (rest : List Input) : (s.at p rest).histR = s.histR := rfl

@[simp] theorem State.at_pSeenAt (s : State) (p : Port) (rest : List Input) : (s.at p rest).pSeenAt = s.pSeenAt := rfl

@[simp] theorem State.at_cSeenAt (s : State) (p : Port) (rest : List Input) : (s.at p rest).cSeenAt = s.cSeenAt := rfl

@[simp] theorem State.at_port (s : State) (p : Port) (rest : List Input) : (s.at p rest).port = p := rfl

@[simp] theorem State.at_inbox (s : State) (p : Port) (rest : List Input) : (s.at p rest).inbox = rest := rfl

@[simp] theorem State.at_draws (s : State) (p : Port) (rest : List Input) : (s.at p rest).draws = s.draws := rfl

@[simp] theorem State.at_events (s : State) (p : Port) (rest : List Input) : (s.at p rest).events = s.events := rfl

@[simp] theorem State.at_freeCount (s : State) (p : Port) (rest : List Input) : (s.at p rest).freeCount = s.freeCount := rfl

@[simp] theorem State.at_regionSeed (s : State) (p : Port) (rest : List Input) : (s.at p rest).regionSeed = s.regionSeed := rfl

@[simp] theorem State.at_published (s : State) (p : Port) (rest : List Input) : (s.at p rest).published = s.published := rfl

@[simp] theorem State.at_released (s : State) (p : Port) (rest : List Input) : (s.at p rest).released = s.released := rfl

@[simp] theorem State.at_cfg (s : State) (p : Port) (rest : List Input) : (s.at p rest).cfg = s.cfg := rfl

@[simp] theorem State.at_prod (s : State) (p : Port) (rest : List Input) : (s.at p rest).prod = s.prod := rfl

@[simp] theorem State.at_cons (s : State) (p : Port) (rest : List Input) : (s.at p rest).cons = s.cons := rfl

@[simp] theorem State.portState_at (s : State) (p q : Port) (rest : List Input) :
    (s.at p rest).portState q = s.portState q := by
  cases q <;> rfl

/-! ## More inputs and draws -/

@[simp] theorem State.arrive_phase (s : State) (xs : List Input) (ds : List Nat) : (s.arrive xs ds).phase = s.phase := rfl

@[simp] theorem State.arrive_mode (s : State) (xs : List Input) (ds : List Nat) : (s.arrive xs ds).mode = s.mode := rfl

@[simp] theorem State.arrive_capacity (s : State) (xs : List Input) (ds : List Nat) : (s.arrive xs ds).capacity = s.capacity := rfl

@[simp] theorem State.arrive_mask (s : State) (xs : List Input) (ds : List Nat) : (s.arrive xs ds).mask = s.mask := rfl

@[simp] theorem State.arrive_writePos (s : State) (xs : List Input) (ds : List Nat) : (s.arrive xs ds).writePos = s.writePos := rfl

@[simp] theorem State.arrive_readPos (s : State) (xs : List Input) (ds : List Nat) : (s.arrive xs ds).readPos = s.readPos := rfl

@[simp] theorem State.arrive_prodAlive (s : State) (xs : List Input) (ds : List Nat) : (s.arrive xs ds).prodAlive = s.prodAlive := rfl

@[simp] theorem State.arrive_consAlive (s : State) (xs : List Input) (ds : List Nat) : (s.arrive xs ds).consAlive = s.consAlive := rfl

@[simp] theorem State.arrive_region (s : State) (xs : List Input) (ds : List Nat) : (s.arrive xs ds).region = s.region := rfl

@[simp] theorem State.arrive_pSeenR (s : State) (xs : List Input) (ds : List Nat) : (s.arrive xs ds).pSeenR = s.pSeenR := rfl

@[simp] theorem State.arrive_cSeenW (s : State) (xs : List Input) (ds : List Nat) : (s.arrive xs ds).cSeenW = s.cSeenW := rfl

@[simp] theorem State.arrive_histW (s : State) (xs : List Input) (ds : List Nat) : (s.arrive xs ds).histW = s.histW := rfl

@[simp] theorem State.arrive_histR (s : State) (xs : List Input) (ds : List Nat) : (s.arrive xs ds).histR = s.histR := rfl

@[simp] theorem State.arrive_pSeenAt (s : State) (xs : List Input) (ds : List Nat) : (s.arrive xs ds).pSeenAt = s.pSeenAt := rfl

@[simp] theorem State.arrive_cSeenAt (s : State) (xs : List Input) (ds : List Nat) : (s.arrive xs ds).cSeenAt = s.cSeenAt := rfl

@[simp] theorem State.arrive_published (s : State) (xs : List Input) (ds : List Nat) : (s.arrive xs ds).published = s.published := rfl

@[simp] theorem State.arrive_released (s : State) (xs : List Input) (ds : List Nat) : (s.arrive xs ds).released = s.released := rfl

@[simp] theorem State.arrive_cfg (s : State) (xs : List Input) (ds : List Nat) : (s.arrive xs ds).cfg = s.cfg := rfl

@[simp] theorem State.arrive_prod (s : State) (xs : List Input) (ds : List Nat) : (s.arrive xs ds).prod = s.prod := rfl

@[simp] theorem State.arrive_cons (s : State) (xs : List Input) (ds : List Nat) : (s.arrive xs ds).cons = s.cons := rfl

@[simp] theorem State.arrive_port (s : State) (xs : List Input) (ds : List Nat) : (s.arrive xs ds).port = s.port := rfl

@[simp] theorem State.arrive_events (s : State) (xs : List Input) (ds : List Nat) : (s.arrive xs ds).events = s.events := rfl

@[simp] theorem State.arrive_freeCount (s : State) (xs : List Input) (ds : List Nat) : (s.arrive xs ds).freeCount = s.freeCount := rfl

@[simp] theorem State.arrive_regionSeed (s : State) (xs : List Input) (ds : List Nat) : (s.arrive xs ds).regionSeed = s.regionSeed := rfl

@[simp] theorem State.arrive_inbox (s : State) (xs : List Input) (ds : List Nat) : (s.arrive xs ds).inbox = s.inbox ++ xs := rfl

@[simp] theorem State.arrive_draws (s : State) (xs : List Input) (ds : List Nat) : (s.arrive xs ds).draws = s.draws ++ ds := rfl

@[simp] theorem State.portState_arrive (s : State) (xs : List Input) (ds : List Nat) (p : Port) :
    (s.arrive xs ds).portState p = s.portState p := by
  cases p <;> rfl

/-! ## Reading the region -/

/-- What is read depends on the region, the mask and the content of the never-written bytes. -/
theorem State.readFrom_eq {s t : State} (hr : t.region = s.region) (hm : t.mask = s.mask)
    (hs : t.regionSeed = s.regionSeed) (p : Word) (n : Nat) : t.readFrom p n = s.readFrom p n := by
  induction n generalizing p with
  | zero => rfl
  | succ n ih => simp [State.readFrom, State.byteAt, State.offsetOf, hr, hm, hs, ih]

@[simp] theorem State.readFrom_setPort (s : State) (q : Port) (x : PortState) (p : Word) (n : Nat) :
    (s.setPort q x).readFrom p n = s.readFrom p n :=
  State.readFrom_eq (by simp) (by simp) (by simp) p n

@[simp] theorem State.readFrom_log (s : State) (a : Action) (p : Word) (n : Nat) :
    (s.log a).readFrom p n = s.readFrom p n :=
  State.readFrom_eq (s := s) (t := s.log a) rfl rfl rfl p n

end Sys2Proof.Machine
end

