-- ==== Sys2Proof/Laws/Ops.lean ====
section
/-! SUPPORT. One lemma for each shared operation that says all it can do. -/

namespace Sys2Proof.Machine

/-! ## Responses and legality -/

@[simp] theorem State.post_eq (s : State) (r : Response) : s.post r = s.setPort s.port (.responding r) := rfl

@[simp] theorem State.deliver_eq (s : State) (r : Response) :
    s.deliver r = (s.log (.response r)).setPort s.port .idle := rfl

@[simp] theorem finish_eq (fields : OkFields) (s : State) :
    finish fields s = .next (s.setPort s.port (.responding (.ok fields))) := rfl

@[simp] theorem raise_eq (r : Response) (s : State) : raise r s = .next (s.setPort s.port (.responding r)) := rfl

@[simp] theorem ownLoad_eq (p : Pointer) (s : State) : ownLoad p s = s.log (.ownLoad p (s.pointer p)) := rfl

/-- A legal command runs its operation. -/
theorem whenLegal_of_legal {legal : Bool} (h : legal = true) (code : Byte) (op : Result) (s : State) :
    whenLegal legal code op s = op := by
  simp [whenLegal, h]

/-- A command that is not legal is answered `BAD_COMMAND`, and that is all. -/
theorem whenLegal_of_not_legal {legal : Bool} (h : legal = false) (code : Byte) (op : Result) (s : State) :
    whenLegal legal code op s = .next (s.setPort s.port (.responding (.badCommand code))) := by
  simp [whenLegal, h]

/-- What a legality check followed by an operation can answer. -/
theorem whenLegal_cases {legal : Bool} {code : Byte} {op : Result} {s t : State}
    (h : whenLegal legal code op s = .next t) :
    (legal = true ∧ op = .next t) ∨
      (legal = false ∧ t = s.setPort s.port (.responding (.badCommand code))) := by
  cases legal
  · exact .inr ⟨rfl, by simpa [whenLegal] using h.symm⟩
  · exact .inl ⟨rfl, by simpa [whenLegal] using h⟩

theorem handOver_cases {due : PortState} {r : Response} {s t : State} (h : handOver due r s = .next t) :
    s.portState s.port = due ∧ t = (s.log (.response r)).setPort s.port .idle := by
  unfold handOver at h
  split at h
  · exact ⟨‹_›, by simpa using h.symm⟩
  · cases h

theorem handOverReason_cases {reason : Reason} {s t : State} (h : handOverReason reason s = .next t) :
    ∃ capacity, s.portState s.port = .reasonDue capacity reason ∧
      t = (s.log (.response (.invalidCapacity capacity reason))).setPort s.port .idle := by
  unfold handOverReason at h
  split at h
  · rename_i capacity due heq
    split at h
    · rename_i hd
      exact ⟨capacity, by rw [heq, hd], by simpa using h.symm⟩
    · cases h
  · cases h

/-! ## Region access -/

theorem memWrite_ok {pos : Word} {bytes : List Byte} {s t : State} (h : memWrite pos bytes s = .ok t) :
    bytes.length ≤ s.capacity.toNat ∧
      t = { s with region := writeFrom s.mask pos bytes s.region }.log (.memWrite pos bytes) := by
  unfold memWrite at h
  split at h
  · cases h
  · exact ⟨by omega, by simpa using h.symm⟩

theorem memWrite_of_le {pos : Word} {bytes : List Byte} {s : State} (h : bytes.length ≤ s.capacity.toNat) :
    memWrite pos bytes s = .ok ({ s with region := writeFrom s.mask pos bytes s.region }.log (.memWrite pos bytes)) := by
  simp [memWrite, Nat.not_lt.2 h]

theorem memRead_ok {pos : Word} {n : Nat} {s t : State} {bytes : List Byte} (h : memRead pos n s = .ok (bytes, t)) :
    n ≤ s.capacity.toNat ∧ bytes = s.readFrom pos n ∧ t = s.log (.memRead pos bytes) := by
  unfold memRead at h
  split at h
  · cases h
  · simp only [Except.ok.injEq, Prod.mk.injEq] at h
    obtain ⟨rfl, rfl⟩ := h
    exact ⟨by omega, rfl, rfl⟩

theorem memRead_of_le {pos : Word} {n : Nat} {s : State} (h : n ≤ s.capacity.toNat) :
    memRead pos n s = .ok (s.readFrom pos n, s.log (.memRead pos (s.readFrom pos n))) := by
  simp [memRead, Nat.not_lt.2 h]

/-! ## Counts without wrap -/

/-- A pointer that moves `n` on counts `n` more. -/
@[simp] theorem countOn_add (total : Nat) (now n : Word) : countOn total now (now + n) = total + n.toNat := by
  rw [countOn, BitVec.add_comm now n, BitVec.add_sub_cancel]

/-! ## Acquire-loads -/

/-- From a history that is not at its end an acquire-load takes one of the elements from the snapshot on. -/
theorem acqPick_mem {newer : List Word} (h : newer ≠ []) (now : Word) (d : Nat) :
    (acqPick newer now d).1 < newer.length ∧ newer[(acqPick newer now d).1]? = some (acqPick newer now d).2 := by
  have hlt : d % newer.length < newer.length := Nat.mod_lt _ (List.length_pos_iff.2 h)
  simp [acqPick, hlt]

end Sys2Proof.Machine
end

