-- ==== Sys2Proof/Laws/Invariant.lean ====
section
/-! SUPPORT. What the invariant depends on: reads after writes, states equal but for their ports and inputs, posting responses. -/

namespace Sys2Proof.Safety

open Machine

/-- 20_memory.md R74: after a `MemWrite` of at most `capacity` bytes, the positions written read as the bytes written. -/
theorem read_written {s t : State} {k : Nat} (hc : s.capacity.toNat = 2 ^ k) (hm : s.mask = s.capacity - 1#64)
    (htm : t.mask = s.mask) (pos : Word) (bs : List Byte) (hl : bs.length ≤ s.capacity.toNat)
    (htr : t.region = writeFrom s.mask pos bs s.region) : t.readFrom pos bs.length = bs := by
  apply List.ext_getElem
  · simp
  · intro i h1 h2
    rw [State.readFrom_getElem]
    have := writeFrom_get?_of_touched s.mask pos bs s.region i h2 (by
      intro j hij hj
      rw [hm]
      exact offset_ne hc pos hij (by omega))
    simp only [State.byteAt, State.offsetOf, htm, htr, this]

/-- Bytes stored behind the `u` bytes from `p` on leave these unchanged, when all fit the region together. -/
theorem read_unwritten {s t : State} {k : Nat} (hc : s.capacity.toNat = 2 ^ k) (hm : s.mask = s.capacity - 1#64)
    (htm : t.mask = s.mask) (hts : t.regionSeed = s.regionSeed) (p : Word) (u : Nat) (bs : List Byte)
    (hl : u + bs.length ≤ s.capacity.toNat)
    (htr : t.region = writeFrom s.mask (p + BitVec.ofNat 64 u) bs s.region) (n : Nat) (hn : n ≤ u) :
    t.readFrom p n = s.readFrom p n := by
  apply State.readFrom_congr p n htm
  intro i hi
  have : Region.get? t.region (s.offsetOf (p + BitVec.ofNat 64 i)) =
      Region.get? s.region (s.offsetOf (p + BitVec.ofNat 64 i)) := by
    rw [htr]
    apply writeFrom_get?_of_not_touched
    intro j hj
    rw [State.offsetOf, hm, BitVec.add_assoc, ← BitVec.ofNat_add]
    exact offset_ne hc p (by omega) (by omega)
  simp only [State.byteAt, this, hts]

/-- Equal in everything the invariant speaks of but the ports. -/
structure SameCore (s t : State) : Prop where
  phase : t.phase = s.phase
  mode : t.mode = s.mode
  capacity : t.capacity = s.capacity
  mask : t.mask = s.mask
  writePos : t.writePos = s.writePos
  readPos : t.readPos = s.readPos
  prodAlive : t.prodAlive = s.prodAlive
  consAlive : t.consAlive = s.consAlive
  region : t.region = s.region
  pSeenR : t.pSeenR = s.pSeenR
  cSeenW : t.cSeenW = s.cSeenW
  histW : t.histW = s.histW
  histR : t.histR = s.histR
  pSeenAt : t.pSeenAt = s.pSeenAt
  cSeenAt : t.cSeenAt = s.cSeenAt
  regionSeed : t.regionSeed = s.regionSeed
  published : t.published = s.published
  released : t.released = s.released

theorem SameCore.read {s t : State} (h : SameCore s t) (p : Word) (n : Nat) : t.readFrom p n = s.readFrom p n :=
  State.readFrom_eq h.region h.mask h.regionSeed p n

theorem SameCore.unread {s t : State} (h : SameCore s t) : unread t = unread s := by
  simp [Safety.unread, State.used, h.read, h.readPos, h.writePos]

theorem SameCore.holds {s t : State} (h : SameCore s t) (fs : List Frame) : Holds t fs ↔ Holds s fs := by
  simp [Holds, h.unread]

theorem SameCore.prodOk {s t : State} (h : SameCore s t) (x : PortState) : ProdOk t x ↔ ProdOk s x := by
  cases x <;> simp [ProdOk, h.phase, h.prodAlive, h.pSeenR, h.writePos, h.capacity, h.read]

theorem SameCore.consOk {s t : State} (h : SameCore s t) (x : PortState) : ConsOk t x ↔ ConsOk s x := by
  cases x <;> simp [ConsOk, h.phase, h.consAlive, h.cSeenW, h.readPos, h.read]

/-- The invariant goes over to such a state when its ports agree with it. -/
theorem SameCore.inv {s t : State} (h : SameCore s t) (hi : BlockInv s) (hf : s.freeCount ≤ t.freeCount)
    (h1 : CfgOk t.cfg) (h2 : ProdOk s t.prod) (h3 : ConsOk s t.cons) : BlockInv t where
  region_wf := by rw [h.region]; exact hi.region_wf
  geometry hc := by
    have g := hi.geometry (by simpa [Configured, h.phase] using hc)
    exact ⟨by rw [h.capacity]; exact g.capacity_pow, by rw [h.mask, h.capacity]; exact g.mask_eq,
      by simp only [State.used, h.writePos, h.readPos, h.capacity]; exact g.used_le,
      by rw [h.region, h.capacity]; exact g.inside⟩
  framed hc := by
    obtain ⟨fs, hfs⟩ := hi.framed (by simpa [Configured, h.phase] using hc)
    exact ⟨fs, (h.holds fs).2 hfs⟩
  seed_used hc := by
    have := hi.seed_used (by simpa [Configured, h.phase] using hc)
    rw [h.regionSeed]; omega
  split_spsc hp := by rw [h.mode]; exact hi.split_spsc (by rw [← h.phase]; exact hp)
  split_handle hp := by rw [h.prodAlive, h.consAlive]; exact hi.split_handle (by rw [← h.phase]; exact hp)
  whole_handles hp := by rw [h.prodAlive, h.consAlive]; exact hi.whole_handles (by rw [← h.phase]; exact hp)
  unsplit_fresh hp hm := by rw [h.writePos, h.readPos]; exact hi.unsplit_fresh (by rw [← h.phase]; exact hp) (by rw [← h.mode]; exact hm)
  histories hc hm := by
    have g := hi.histories (by simpa [Configured, h.phase] using hc) (by rw [← h.mode]; exact hm)
    constructor
    · rw [h.histW, h.writePos]; exact g.last_w
    · rw [h.histR, h.readPos]; exact g.last_r
    · rw [h.histR, h.pSeenAt, h.pSeenR]; exact g.seen_r
    · rw [h.histW, h.cSeenAt, h.cSeenW]; exact g.seen_w
    · rw [h.histR, h.pSeenAt, h.pSeenR]; exact g.rising_r
    · rw [h.histW, h.cSeenAt, h.cSeenW]; exact g.rising_w
    · rw [h.readPos, h.writePos, h.pSeenR]; exact g.behind_r
    · rw [h.writePos, h.pSeenR, h.capacity]; exact g.room_r
    · rw [h.readPos, h.writePos, h.cSeenW]; exact g.behind_w
  cfg_ok := h1
  prod_ok := (h.prodOk _).2 h2
  cons_ok := (h.consOk _).2 h3
  counts hc := by
    have g := hi.counts (by simpa [Configured, h.phase] using hc)
    exact ⟨by rw [h.readPos, h.released]; exact g.readPos_eq, by rw [h.published, h.released, State.used, h.writePos, h.readPos]; exact g.published_eq⟩

theorem sameCore_setPort (s : State) (p : Port) (x : PortState) : SameCore s (s.setPort p x) := by
  constructor <;> simp

theorem sameCore_log (s : State) (a : Action) : SameCore s (s.log a) := by constructor <;> rfl

theorem sameCore_at (s : State) (p : Port) (rest : List Input) : SameCore s (s.at p rest) := by constructor <;> rfl

theorem sameCore_arrive (s : State) (xs : List Input) (ds : List Nat) : SameCore s (s.arrive xs ds) := by constructor <;> rfl

theorem SameCore.trans {s t u : State} (h : SameCore s t) (g : SameCore t u) : SameCore s u := by
  constructor
  all_goals first
    | exact g.phase.trans h.phase | exact g.mode.trans h.mode | exact g.capacity.trans h.capacity
    | exact g.mask.trans h.mask | exact g.writePos.trans h.writePos | exact g.readPos.trans h.readPos
    | exact g.prodAlive.trans h.prodAlive | exact g.consAlive.trans h.consAlive | exact g.region.trans h.region
    | exact g.pSeenR.trans h.pSeenR | exact g.cSeenW.trans h.cSeenW | exact g.histW.trans h.histW
    | exact g.histR.trans h.histR | exact g.pSeenAt.trans h.pSeenAt | exact g.cSeenAt.trans h.cSeenAt
    | exact g.regionSeed.trans h.regionSeed | exact g.published.trans h.published | exact g.released.trans h.released

/-- Nothing but a response is in progress. -/
def Quiet (x : PortState) : Prop := match x with | .idle => True | .responding _ => True | .reasonDue _ _ => True | _ => False

theorem Quiet.cfg {x : PortState} (h : Quiet x) : CfgOk x := by cases x <;> simp_all [Quiet, CfgOk]

theorem Quiet.prod {x : PortState} (h : Quiet x) (s : State) : ProdOk s x := by cases x <;> simp_all [Quiet, ProdOk]

theorem Quiet.cons {x : PortState} (h : Quiet x) (s : State) : ConsOk s x := by cases x <;> simp_all [Quiet, ConsOk]

/-- Posting or handing over a response at a port keeps the invariant. -/
theorem inv_setQuiet {s : State} (hi : BlockInv s) (p : Port) {x : PortState} (hq : Quiet x) : BlockInv (s.setPort p x) := by
  apply (sameCore_setPort s p x).inv hi
  · simp
  · cases p <;> simp [hq.cfg, hi.cfg_ok]
  · cases p <;> simp [hq.prod, hi.prod_ok]
  · cases p <;> simp [hq.cons, hi.cons_ok]

/-- Recording an event keeps the invariant. -/
theorem inv_log {s : State} (hi : BlockInv s) (a : Action) : BlockInv (s.log a) :=
  (sameCore_log s a).inv hi (Nat.le_refl _) hi.cfg_ok hi.prod_ok hi.cons_ok

/-- Taking an input keeps the invariant. -/
theorem inv_at {s : State} (hi : BlockInv s) (p : Port) (rest : List Input) : BlockInv (s.at p rest) :=
  (sameCore_at s p rest).inv hi (Nat.le_refl _) hi.cfg_ok hi.prod_ok hi.cons_ok

/-- What the outside world hands in keeps the invariant. -/
theorem inv_arrive {s : State} (hi : BlockInv s) (xs : List Input) (ds : List Nat) : BlockInv (s.arrive xs ds) :=
  (sameCore_arrive s xs ds).inv hi (Nat.le_refl _) hi.cfg_ok hi.prod_ok hi.cons_ok

theorem inv_setProd {s : State} (hi : BlockInv s) {x : PortState} (h : ProdOk s x) : BlockInv (s.setPort .prod x) := by
  apply (sameCore_setPort s .prod x).inv hi <;> simp [hi.cfg_ok, h, hi.cons_ok]

theorem inv_setCons {s : State} (hi : BlockInv s) {x : PortState} (h : ConsOk s x) : BlockInv (s.setPort .cons x) := by
  apply (sameCore_setPort s .cons x).inv hi <;> simp [hi.cfg_ok, h, hi.prod_ok]

end Sys2Proof.Safety
end

