-- ==== Sys2Proof/Laws/Updates.lean ====
section
/-! SUPPORT. The state updates the operations are made of, and that each keeps the invariant: a frame stored, published, read, released; a snapshot moved; a ring made, split, dropped. -/

namespace Sys2Proof.Safety

open Machine

section

variable {s : State} (hi : BlockInv s)

include hi

/-- The capacity of a configured ring: a power of two, 16 to `2^63`. -/
theorem BlockInv.cap (hc : Configured s) : ∃ k, 4 ≤ k ∧ s.capacity.toNat = 2 ^ k ∧ 16 ≤ s.capacity.toNat ∧
    s.capacity.toNat ≤ 2 ^ 63 := by
  obtain ⟨k, h1, h2, h3⟩ := (hi.geometry hc).capacity_pow
  refine ⟨k, h1, h3, ?_, ?_⟩
  · rw [h3]; calc 16 = 2 ^ 4 := rfl
      _ ≤ 2 ^ k := Nat.pow_le_pow_right (by omega) h1
  · rw [h3]; apply Nat.pow_le_pow_right (by omega)
    have := Config.kMaxOffset.isLt
    simp only [Config.kMax] at h2
    omega

theorem BlockInv.used_le_nat (hc : Configured s) : s.used.toNat ≤ s.capacity.toNat := by
  exact (hi.geometry hc).used_le

end

theorem split_configured {s : State} (h : s.phase = .split) : Configured s := by simp [Configured, h]

/-- The counts of a state with the same pointers and counts. -/
theorem Counts.congr {s t : State} (h : Counts s) (hw : t.writePos = s.writePos) (hr : t.readPos = s.readPos)
    (hp : t.published = s.published) (hl : t.released = s.released) : Counts t :=
  ⟨by rw [hr, hl]; exact h.readPos_eq, by rw [hp, hl, State.used, hw, hr]; exact h.published_eq⟩

/-- The counts after `write_pos` has moved `n` on. -/
theorem Counts.publish {s t : State} (h : Counts s) {n : Word} (hr : t.readPos = s.readPos) (hl : t.released = s.released)
    (hp : t.published = countOn s.published s.writePos (s.writePos + n)) (hu : t.used.toNat = s.used.toNat + n.toNat) : Counts t :=
  ⟨by rw [hr, hl]; exact h.readPos_eq, by rw [hp, countOn_add, hl, hu, h.published_eq, Nat.add_assoc]⟩

/-- The counts after `read_pos` has moved `n` on. -/
theorem Counts.release {s t : State} (h : Counts s) {n : Word} (hr : t.readPos = s.readPos + n)
    (hl : t.released = countOn s.released s.readPos (s.readPos + n)) (hp : t.published = s.published)
    (hn : n.toNat ≤ s.used.toNat) (hu : t.used.toNat = s.used.toNat - n.toNat) : Counts t := by
  rw [countOn_add] at hl
  exact ⟨by rw [hr, hl, BitVec.ofNat_add, ← h.readPos_eq, BitVec.ofNat_toNat, BitVec.setWidth_eq], by rw [hp, hl, hu, h.published_eq]; omega⟩

/-- The byte after the unread ones is at `write_pos`. -/
theorem writePos_eq (s : State) : s.readPos + BitVec.ofNat 64 s.used.toNat = s.writePos := by
  simp [State.used, usedOf]; bv_omega

/-- Bytes stored at `write_pos` leave the unread bytes unchanged (41_ring_ops.md R146). -/
theorem readFrom_of_stored {s t : State} (hi : BlockInv s) (hc : Configured s) (bs : List Byte)
    (hl : s.used.toNat + bs.length ≤ s.capacity.toNat)
    (htm : t.mask = s.mask) (hts : t.regionSeed = s.regionSeed)
    (htr : t.region = writeFrom s.mask s.writePos bs s.region) (n : Nat) (hn : n ≤ s.used.toNat) :
    t.readFrom s.readPos n = s.readFrom s.readPos n := by
  obtain ⟨k, -, hk, -, -⟩ := hi.cap hc
  exact read_unwritten hk (hi.geometry hc).mask_eq htm hts s.readPos s.used.toNat bs hl (by rw [writePos_eq]; exact htr) n hn

/-- Bytes stored at `write_pos` read back. -/
theorem readFrom_stored {s t : State} (hi : BlockInv s) (hc : Configured s) (bs : List Byte)
    (hl : bs.length ≤ s.capacity.toNat)
    (htm : t.mask = s.mask)
    (htr : t.region = writeFrom s.mask s.writePos bs s.region) :
    t.readFrom s.writePos bs.length = bs := by
  obtain ⟨k, -, hk, -, -⟩ := hi.cap hc
  exact read_written hk (hi.geometry hc).mask_eq htm s.writePos bs hl htr

/-- A store lists offsets below `capacity` only. -/
theorem inside_stored {s t : State} (hi : BlockInv s) (hc : Configured s) (bs : List Byte) (p : Word)
    (htr : t.region = writeFrom s.mask p bs s.region) : ∀ c ∈ t.region, c.1 < s.capacity.toNat := by
  obtain ⟨k, -, hk, h16, -⟩ := hi.cap hc
  intro c hcm
  rw [htr] at hcm
  rcases writeFrom_inside _ _ _ hcm with h | ⟨q, hq⟩
  · exact (hi.geometry hc).inside c h
  · rw [hq, (hi.geometry hc).mask_eq, offset_of_mask hk]
    exact Nat.mod_lt _ (by omega)

theorem need_pos (f : Frame) : 16 ≤ f.need.toNat := by simp [Frame.need, needOf_toNat]

theorem need_lt (f : Frame) : f.need.toNat ≤ 65551 := by
  have := f.payloadLen.isLt
  simp [Frame.need, needOf_toNat]; omega

/-- A frame that passes the space test fits behind the unread bytes. -/
theorem fits {c u n : Word} (hu : u.toNat ≤ c.toNat) (h : ¬ (c - u < n)) : u.toNat + n.toNat ≤ c.toNat := by bv_omega

/-- A frame stored and `write_pos` advanced past it, at once. -/
def afterStore (s : State) (bs : List Byte) (n : Word) : State :=
  { s with
    region := writeFrom s.mask s.writePos bs s.region
    writePos := s.writePos + n
    published := countOn s.published s.writePos (s.writePos + n) }

theorem afterStore_used (s : State) (bs : List Byte) (n : Word) (h : s.used.toNat + n.toNat ≤ 2 ^ 63) :
    (afterStore s bs n).used.toNat = s.used.toNat + n.toNat := by
  have h1 : (afterStore s bs n).used = s.used + n := by
    simp only [afterStore, State.used, usedOf]; bv_omega
  rw [h1, BitVec.toNat_add]; omega

/-- The unread bytes grow by the frame. -/
theorem afterStore_unread {s : State} (hi : BlockInv s) (hc : Configured s) (bs : List Byte) (n : Word)
    (hn : bs.length = n.toNat) (hfit : s.used.toNat + bs.length ≤ s.capacity.toNat) :
    unread (afterStore s bs n) = unread s ++ bs := by
  obtain ⟨k, h4, hk, h16, h63⟩ := hi.cap hc
  show (afterStore s bs n).readFrom s.readPos (afterStore s bs n).used.toNat = _
  rw [afterStore_used _ _ _ (by omega), State.readFrom_add,
    readFrom_of_stored (t := afterStore s bs n) hi hc bs hfit rfl rfl rfl _ (Nat.le_refl _), writePos_eq, ← hn,
    readFrom_stored (t := afterStore s bs n) hi hc bs (by omega) rfl rfl]
  simp [unread]

/-- `WRITE_EVENT` in mode `SINGLE` keeps the invariant. -/
theorem afterStore_inv_single {s : State} (hi : BlockInv s) (hw : s.phase = .whole) (hm : s.mode = .single) {f : Frame}
    (ha : f.agrees = true) (bs : List Byte) (hb : bs = f.bytes) (n : Word)
    (hn : bs.length = n.toNat) (hfit : s.used.toNat + bs.length ≤ s.capacity.toNat) :
    BlockInv (afterStore s bs n) := by
  have hc : Configured s := by simp [Configured, hw]
  obtain ⟨k, h4, hk, h16, h63⟩ := hi.cap hc
  constructor
  · exact writeFrom_wf _ _ _ hi.region_wf
  · intro _
    refine ⟨(hi.geometry hc).capacity_pow, (hi.geometry hc).mask_eq, ?_, inside_stored (s := s) (t := afterStore s bs n) hi hc bs s.writePos rfl⟩
    show (afterStore s bs n).used.toNat ≤ s.capacity.toNat
    rw [afterStore_used _ _ _ (by omega)]; omega
  · intro _
    obtain ⟨fs, hfs, hun⟩ := hi.framed hc
    refine ⟨fs ++ [f], by simpa [or_imp, forall_and, ha] using hfs, ?_⟩
    rw [afterStore_unread hi hc bs n hn hfit, hun, hb]
    simp
  · intro _; exact hi.seed_used hc
  · exact hi.split_spsc
  · exact hi.split_handle
  · exact hi.whole_handles
  · intro _ h; simp [afterStore, hm] at h
  · intro _ h; simp [afterStore, hm] at h
  · exact hi.cfg_ok
  · have := hi.prod_ok
    show ProdOk (afterStore s bs n) s.prod
    cases hp : s.prod <;> simp [ProdOk, hp, hw] at this ⊢
  · have := hi.cons_ok
    show ConsOk (afterStore s bs n) s.cons
    cases hp : s.cons <;> simp [ConsOk, hp, hw] at this ⊢
  · intro _; exact (hi.counts hc).publish (n := n) rfl rfl rfl (afterStore_used s bs n (by omega))

/-- `read_pos` advanced. -/
def afterRead (s : State) (n : Word) : State :=
  { s with readPos := s.readPos + n, released := countOn s.released s.readPos (s.readPos + n) }

theorem afterRead_used (s : State) (n : Word) (h : n.toNat ≤ s.used.toNat) :
    (afterRead s n).used.toNat = s.used.toNat - n.toNat := by
  simp only [afterRead, State.used, usedOf] at *; bv_omega

/-- The unread bytes shrink from the front. -/
theorem afterRead_unread {s : State} (n : Word) (h : n.toNat ≤ s.used.toNat) :
    unread s = s.readFrom s.readPos n.toNat ++ unread (afterRead s n) := by
  have := State.readFrom_add s s.readPos n.toNat (s.used.toNat - n.toNat)
  rw [Nat.add_sub_cancel' h, BitVec.ofNat_toNat] at this
  simp only [unread, afterRead_used s n h, this]
  rw [State.readFrom_eq (s := s) (t := afterRead s n) rfl rfl rfl]
  rfl

/-- The first frame of a ring that is not empty: its bytes from `read_pos` on, and the queue without it. -/
theorem afterRead_holds {s : State} {fs : List Frame} (hh : Holds s fs) (h0 : 0 < s.used.toNat) :
    ∃ f rest, fs = f :: rest ∧ f.agrees = true ∧ f.need.toNat ≤ s.used.toNat ∧
      s.readFrom s.readPos 16 = headerBytes f.header ∧
      s.readFrom (s.readPos + 16#64) f.payloadLen.toNat = f.payload ∧
      Holds (afterRead s f.need) rest := by
  obtain ⟨ha, hun⟩ := hh
  have hlen := congrArg List.length hun
  simp only [unread, State.length_readFrom] at hlen
  cases fs with
  | nil => simp at hlen; omega
  | cons f rest =>
    have haf := ha f (by simp)
    have hl := f.length_bytes haf
    simp only [List.flatMap_cons, List.length_append] at hlen hun
    have hle : f.need.toNat ≤ s.used.toNat := by omega
    refine ⟨f, rest, rfl, haf, hle, ?_⟩
    rw [afterRead_unread f.need hle] at hun
    obtain ⟨e2, e3⟩ := List.append_inj hun (by simp [hl])
    have e4 : f.need.toNat = 16 + f.payloadLen.toNat := by simp [Frame.need, needOf_toNat]
    rw [e4, State.readFrom_add, Frame.bytes] at e2
    obtain ⟨e5, e6⟩ := List.append_inj e2 (by simp)
    exact ⟨e5, e6, fun g hg => ha g (by simp [hg]), e3⟩

/-- A frame is what its bytes say: its header gives the fields, and with them the length of its payload (30_encoding.md R107). -/
theorem frame_eq_of_bytes {f g : Frame} (hf : f.agrees = true) (hg : g.agrees = true) {xs ys : List Byte}
    (h : f.bytes ++ xs = g.bytes ++ ys) : f = g ∧ xs = ys := by
  simp only [Frame.bytes, List.append_assoc] at h
  obtain ⟨h1, h2⟩ := List.append_inj h (by simp)
  have hh : f.header = g.header := by rw [← headerOfBytes_headerBytes f.header, h1, headerOfBytes_headerBytes]
  have e1 := congrArg headerTimestamp hh
  have e2 := congrArg headerEventType hh
  have e3 := congrArg headerFlags hh
  have e4 := congrArg headerPayloadLen hh
  simp only [Frame.header, encodeHeader, headerTimestamp_packHeader, headerEventType_packHeader, headerFlags_packHeader,
    headerPayloadLen_packHeader] at e1 e2 e3 e4
  simp only [Frame.agrees, decide_eq_true_eq] at hf hg
  obtain ⟨h3, h4⟩ := List.append_inj h2 (by rw [← hf, ← hg, e4])
  cases f; cases g
  simp only at e1 e2 e3 e4 h3
  exact ⟨by rw [e1, e2, e3, e4, h3], h4⟩

/-- The unread bytes are one queue of frames only (10_state.md R40). -/
theorem Holds.unique {s : State} {fs gs : List Frame} (hf : Holds s fs) (hg : Holds s gs) : fs = gs := by
  obtain ⟨af, ef⟩ := hf
  obtain ⟨ag, eg⟩ := hg
  have e := ef.symm.trans eg
  clear ef eg
  induction fs generalizing gs with
  | nil =>
    cases gs with
    | nil => rfl
    | cons g gs => have := congrArg List.length e; simp [Frame.bytes] at this; omega
  | cons f fs ih =>
    cases gs with
    | nil => have := congrArg List.length e; simp [Frame.bytes] at this
    | cons g gs =>
      obtain ⟨rfl, e'⟩ := frame_eq_of_bytes (af f (by simp)) (ag g (by simp)) (by simpa using e)
      rw [ih (fun x hx => af x (by simp [hx])) (fun x hx => ag x (by simp [hx])) e']

/-- `used` is the size of the frames held (41_ring_ops.md R154). -/
theorem Holds.used {s : State} {fs : List Frame} (h : Holds s fs) : s.used.toNat = totalSize fs := by
  obtain ⟨ha, hun⟩ := h
  have hl := congrArg List.length hun
  simp only [unread, State.length_readFrom] at hl
  rw [hl, totalSize, List.length_flatMap]
  congr 1
  exact List.map_congr_left fun f hf => f.length_bytes (ha f hf)

/-- `READ_EVENT` in mode `SINGLE` keeps the invariant. -/
theorem afterRead_inv_single {s : State} (hi : BlockInv s) (hw : s.phase = .whole) (hm : s.mode = .single) {fs : List Frame}
    {f : Frame} (hle : f.need.toNat ≤ s.used.toNat) (hh : Holds (afterRead s f.need) fs) :
    BlockInv (afterRead s f.need) := by
  have hc : Configured s := by simp [Configured, hw]
  have hu := hi.used_le_nat hc
  constructor
  · exact hi.region_wf
  · intro _
    refine ⟨(hi.geometry hc).capacity_pow, (hi.geometry hc).mask_eq, ?_, (hi.geometry hc).inside⟩
    show (afterRead s f.need).used.toNat ≤ s.capacity.toNat
    rw [afterRead_used _ _ hle]; omega
  · intro _; exact ⟨fs, hh⟩
  · intro _; exact hi.seed_used hc
  · exact hi.split_spsc
  · exact hi.split_handle
  · exact hi.whole_handles
  · intro _ h; simp [afterRead, hm] at h
  · intro _ h; simp [afterRead, hm] at h
  · exact hi.cfg_ok
  · have := hi.prod_ok
    show ProdOk (afterRead s f.need) s.prod
    cases hp : s.prod <;> simp [ProdOk, hp, hw] at this ⊢
  · have := hi.cons_ok
    show ConsOk (afterRead s f.need) s.cons
    cases hp : s.cons <;> simp [ConsOk, hp, hw] at this ⊢
  · intro _; exact (hi.counts hc).release rfl rfl rfl hle (afterRead_used s _ hle)

/-- Nothing is in progress on the producer side without its handle. -/
theorem quiet_prod {s : State} (hi : BlockInv s) (h : s.phase ≠ .split ∨ s.prodAlive = false) : Quiet s.prod := by
  have := hi.prod_ok
  cases hp : s.prod <;> simp [ProdOk, hp, Quiet] at this ⊢ <;> rcases h with h | h <;> simp_all

/-- Nothing is in progress on the consumer side without its handle. -/
theorem quiet_cons {s : State} (hi : BlockInv s) (h : s.phase ≠ .split ∨ s.consAlive = false) : Quiet s.cons := by
  have := hi.cons_ok
  cases hp : s.cons <;> simp [ConsOk, hp, Quiet] at this ⊢ <;> rcases h with h | h <;> simp_all

/-- A new ring meets the invariant. -/
theorem create_inv {s : State} (hi : BlockInv s) (hp : s.phase = .unconfigured) (mode : Mode) (c : Word)
    (h16 : ¬ c < 16#64) (h2 : isPowerOfTwo c = true) (hb : beyondInstance c = false) : BlockInv (s.create mode c) := by
  have hpow : ∃ k, 4 ≤ k ∧ k ≤ Config.kMax ∧ c.toNat = 2 ^ k := by
    simp only [isPowerOfTwo, decide_eq_true_eq] at h2
    simp only [beyondInstance, decide_eq_false_iff_not, not_lt] at hb
    have h3 := congrArg BitVec.toNat h2
    have h16n : 16 ≤ c.toNat := by bv_omega
    have h4 : (c - 1#64).toNat = c.toNat - 1 := by bv_omega
    rw [BitVec.toNat_and, h4] at h3
    have h5 : c.toNat.isPowerOfTwo := by
      rw [← Nat.and_sub_one_eq_zero_iff_isPowerOfTwo (by omega)]; simpa using h3
    obtain ⟨k, hk⟩ := h5
    refine ⟨k, ?_, ?_, hk⟩
    · by_contra hlt
      have : k ≤ 3 := by omega
      have := Nat.pow_le_pow_right (n := 2) (by omega) this
      omega
    · rw [hk] at hb; exact (Nat.pow_le_pow_iff_right (by omega)).1 hb
  constructor
  · rfl
  · intro _
    refine ⟨hpow, rfl, ?_, by simp [State.create]⟩
    show (State.used _).toNat ≤ c.toNat
    simp [State.create, State.used, usedOf]
  · intro _
    refine ⟨[], by simp, by simp [unread, State.create, State.used, usedOf, State.readFrom]⟩
  · intro _; simp [State.create]
  · intro h; simp [State.create] at h
  · intro h; simp [State.create] at h
  · intro _; simp [State.create]
  · intro _ _; simp [State.create]
  · intro _ _; constructor <;> simp [State.create]
    bv_omega
  · exact hi.cfg_ok
  · exact (quiet_prod hi (.inl (by simp [hp]))).prod _
  · exact (quiet_cons hi (.inl (by simp [hp]))).cons _
  · intro _; constructor <;> simp [State.create, State.used, usedOf]

/-- A block without a ring meets the invariant. -/
theorem loseRing_inv {s : State} (hi : CfgOk s.cfg) (hp : Quiet s.prod) (hc : Quiet s.cons) (h1 : s.prodAlive = false) (h2 : s.consAlive = false)  :
    BlockInv s.loseRing := by
  constructor
  · rfl
  · intro h; simp [Configured, State.loseRing] at h
  · intro h; simp [Configured, State.loseRing] at h
  · intro h; simp [Configured, State.loseRing] at h
  · intro h; simp [State.loseRing] at h
  · intro h; simp [State.loseRing] at h
  · intro _; exact ⟨h1, h2⟩
  · intro h; simp [State.loseRing] at h
  · intro h; simp [Configured, State.loseRing] at h
  · exact hi
  · exact hp.prod _
  · exact hc.cons _
  · intro h; simp [Configured, State.loseRing] at h

theorem BlockInv.hist {s : State} (hi : BlockInv s) (hp : s.phase = .split) : Histories s :=
  hi.histories (split_configured hp) (hi.split_spsc hp)

theorem prodOk_congr {s t : State} (h1 : t.phase = s.phase) (h2 : t.prodAlive = s.prodAlive) (h3 : t.pSeenR = s.pSeenR)
    (h4 : t.writePos = s.writePos) (h5 : t.capacity = s.capacity)
    (h6 : ∀ p n, t.readFrom p n = s.readFrom p n) {x : PortState} (h : ProdOk s x) : ProdOk t x := by
  cases x <;> first | exact h | (simp only [ProdOk, h1, h2, h3, h4, h5, h6] at h ⊢; exact h)

theorem consOk_congr {s t : State} (h1 : t.phase = s.phase) (h2 : t.consAlive = s.consAlive) (h3 : t.cSeenW = s.cSeenW)
    (h4 : t.readPos = s.readPos)
    (h6 : ∀ p n, t.readFrom p n = s.readFrom p n) {x : PortState} (h : ConsOk s x) : ConsOk t x := by
  cases x <;> first | exact h | (simp only [ConsOk, h1, h2, h3, h4, h6] at h ⊢; exact h)

theorem holds_congr {s t : State} (h1 : t.writePos = s.writePos) (h4 : t.readPos = s.readPos)
    (h6 : ∀ p n, t.readFrom p n = s.readFrom p n) {fs : List Frame} (h : Holds s fs) : Holds t fs := by
  simpa only [Holds, unread, State.used, h1, h4, h6] using h

/-- The producer side's snapshot moved `k` elements on, to `v`. -/
def withSeenR (s : State) (k : Nat) (v : Word) : State :=
  { s with pSeenR := v, pSeenAt := s.pSeenAt + k, draws := s.draws.tail, freeCount := s.freeCount + 1 }

theorem seenR_read (s : State) (k : Nat) (v : Word) (p : Word) (n : Nat) : (withSeenR s k v).readFrom p n = s.readFrom p n :=
  State.readFrom_eq (s := s) (t := withSeenR s k v) rfl rfl rfl p n

theorem seenR_inv {s : State} (hi : BlockInv s) (hp : s.phase = .split) {k : Nat} {v : Word}
    (hk : (s.histR.drop s.pSeenAt)[k]? = some v) (hq : (∃ f, s.prod = .p1 f) ∨ (∃ q, s.prod = .q1 q)) : BlockInv (withSeenR s k v) := by
  have H := hi.hist hp
  have hv : v - s.pSeenR ≤ s.readPos - s.pSeenR :=
    le_last H.rising_r H.seen_r H.last_r (List.mem_of_getElem? hk)
  have hkk : s.histR[s.pSeenAt + k]? = some v := by rwa [List.getElem?_drop] at hk
  have b := H.behind_r
  have r := H.room_r
  constructor
  · exact hi.region_wf
  · intro h; have g := hi.geometry h; exact ⟨g.1, g.2, g.3, g.4⟩
  · intro h; obtain ⟨fs, hh⟩ := hi.framed h; exact ⟨fs, holds_congr (s := s) (t := withSeenR s k v) rfl rfl (seenR_read s k v) hh⟩
  · intro h; have := hi.seed_used h; show s.regionSeed < s.freeCount + 1; omega
  · exact hi.split_spsc
  · exact hi.split_handle
  · exact hi.whole_handles
  · intro h; simp [withSeenR, hp] at h
  · intro _ _
    refine ⟨H.last_w, H.last_r, hkk, H.seen_w, ?_, H.rising_w, ?_, ?_, H.behind_w⟩
    · have := rising_rebase H.rising_r hk
      rw [List.drop_drop] at this
      exact this
    · exact w_rebase hv b
    · exact w_room hv b r
  · exact hi.cfg_ok
  · have := hi.prod_ok
    show ProdOk (withSeenR s k v) s.prod
    rcases hq with ⟨f, h⟩ | ⟨q, h⟩ <;> rw [h] at this ⊢ <;> exact this
  · exact consOk_congr (s := s) (t := withSeenR s k v) rfl rfl rfl rfl (seenR_read s k v) hi.cons_ok
  · intro h; exact (hi.counts h).congr rfl rfl rfl rfl

/-- An acquire-load of `read_pos` keeps the invariant. -/
theorem acqLoadReadPos_inv {s : State} (hi : BlockInv s) (hp : s.phase = .split) (d : Nat)
    (hq : (∃ f, s.prod = .p1 f) ∨ (∃ q, s.prod = .q1 q)) : BlockInv (acqLoadReadPos d s) := by
  obtain ⟨-, h2⟩ := acqPick_mem (drop_ne_nil (hi.hist hp).seen_r) s.readPos d
  exact inv_log (seenR_inv hi hp h2 hq) _

/-- The consumer side's snapshot moved `k` elements on, to `v`. -/
def withSeenW (s : State) (k : Nat) (v : Word) : State :=
  { s with cSeenW := v, cSeenAt := s.cSeenAt + k, draws := s.draws.tail, freeCount := s.freeCount + 1 }

theorem seenW_read (s : State) (k : Nat) (v : Word) (p : Word) (n : Nat) : (withSeenW s k v).readFrom p n = s.readFrom p n :=
  State.readFrom_eq (s := s) (t := withSeenW s k v) rfl rfl rfl p n

theorem seenW_inv {s : State} (hi : BlockInv s) (hp : s.phase = .split) {k : Nat} {v : Word}
    (hk : (s.histW.drop s.cSeenAt)[k]? = some v) (hq : s.cons = .c1 ∨ (∃ q, s.cons = .q1 q)) : BlockInv (withSeenW s k v) := by
  have H := hi.hist hp
  have hv : v - s.cSeenW ≤ s.writePos - s.cSeenW :=
    le_last H.rising_w H.seen_w H.last_w (List.mem_of_getElem? hk)
  have hkk : s.histW[s.cSeenAt + k]? = some v := by rwa [List.getElem?_drop] at hk
  have b := H.behind_w
  constructor
  · exact hi.region_wf
  · intro h; have g := hi.geometry h; exact ⟨g.1, g.2, g.3, g.4⟩
  · intro h; obtain ⟨fs, hh⟩ := hi.framed h; exact ⟨fs, holds_congr (s := s) (t := withSeenW s k v) rfl rfl (seenW_read s k v) hh⟩
  · intro h; have := hi.seed_used h; show s.regionSeed < s.freeCount + 1; omega
  · exact hi.split_spsc
  · exact hi.split_handle
  · exact hi.whole_handles
  · intro h; simp [withSeenW, hp] at h
  · intro _ _
    refine ⟨H.last_w, H.last_r, H.seen_r, hkk, H.rising_r, ?_, H.behind_r, H.room_r, ?_⟩
    · have := rising_rebase H.rising_w hk
      rw [List.drop_drop] at this
      exact this
    · exact w_seen hv b
  · exact hi.cfg_ok
  · exact prodOk_congr (s := s) (t := withSeenW s k v) rfl rfl rfl rfl rfl (seenW_read s k v) hi.prod_ok
  · have := hi.cons_ok
    show ConsOk (withSeenW s k v) s.cons
    rcases hq with h | ⟨q, h⟩ <;> rw [h] at this ⊢ <;> exact this
  · intro h; exact (hi.counts h).congr rfl rfl rfl rfl

/-- An acquire-load of `write_pos` keeps the invariant. -/
theorem acqLoadWritePos_inv {s : State} (hi : BlockInv s) (hp : s.phase = .split) (d : Nat)
    (hq : s.cons = .c1 ∨ (∃ q, s.cons = .q1 q)) : BlockInv (acqLoadWritePos d s) := by
  obtain ⟨-, h2⟩ := acqPick_mem (drop_ne_nil (hi.hist hp).seen_w) s.writePos d
  exact inv_log (seenW_inv hi hp h2 hq) _

/-- Bytes stored at `write_pos`, not withPublished. -/
def withStored (s : State) (bs : List Byte) : State := { s with region := writeFrom s.mask s.writePos bs s.region }

/-- What passes the space test on a snapshot fits the true free space. -/
theorem room_fits {c w p r n : Word} (h1 : r - p ≤ w - p) (h2 : w - p ≤ c) (h3 : n ≤ c - (w - p)) :
    (w - r).toNat + n.toNat ≤ c.toNat := w_fits h1 h2 h3

/-- Step P3 keeps the invariant (up to the port). -/
theorem stored_inv {s : State} (hi : BlockInv s) (hp : s.phase = .split) (bs : List Byte)
    (hfit : s.used.toNat + bs.length ≤ s.capacity.toNat) (hq : ∃ f w, s.prod = .p3 f w) : BlockInv (withStored s bs) := by
  have hc := split_configured hp
  have H := hi.hist hp
  have key : ∀ n, n ≤ s.used.toNat → (withStored s bs).readFrom s.readPos n = s.readFrom s.readPos n := by
    intro n hn
    exact readFrom_of_stored (t := withStored s bs) hi hc bs hfit rfl rfl rfl n hn
  have behind : s.cSeenW - s.readPos ≤ s.used := H.behind_w
  have key2 : ∀ n : Half, needOf n ≤ usedOf s.cSeenW s.readPos →
      (withStored s bs).readFrom s.readPos 16 = s.readFrom s.readPos 16 ∧
      (withStored s bs).readFrom (s.readPos + 16#64) n.toNat = s.readFrom (s.readPos + 16#64) n.toNat := by
    intro n hn
    have h1 : (needOf n).toNat ≤ s.used.toNat := by
      have : usedOf s.cSeenW s.readPos ≤ s.used := behind
      exact Nat.le_trans (by exact hn) this
    rw [needOf_toNat] at h1
    have h2 := key 16 (by omega)
    have h3 := key (16 + n.toNat) h1
    rw [State.readFrom_add, State.readFrom_add, h2] at h3
    exact ⟨h2, List.append_cancel_left h3⟩
  constructor
  · exact writeFrom_wf _ _ _ hi.region_wf
  · intro _
    have g := hi.geometry hc
    exact ⟨g.1, g.2, g.3, inside_stored (s := s) (t := withStored s bs) hi hc bs s.writePos rfl⟩
  · intro _
    obtain ⟨fs, h1, h2⟩ := hi.framed hc
    refine ⟨fs, h1, ?_⟩
    rw [← h2]; exact key _ (Nat.le_refl _)
  · exact hi.seed_used
  · exact hi.split_spsc
  · exact hi.split_handle
  · exact hi.whole_handles
  · intro h; simp [withStored, hp] at h
  · intro _ _; exact ⟨H.1, H.2, H.3, H.4, H.5, H.6, H.7, H.8, H.9⟩
  · exact hi.cfg_ok
  · have := hi.prod_ok
    show ProdOk (withStored s bs) s.prod
    obtain ⟨f, w, h⟩ := hq
    rw [h] at this ⊢; exact this
  · have := hi.cons_ok
    show ConsOk (withStored s bs) s.cons
    generalize s.cons = x at this
    cases x with
    | c4 r h n =>
      obtain ⟨h1, h2, h3, h4, h5, h6⟩ := this
      exact ⟨h1, h2, h3, h4, h5, (key2 _ h5).1.trans h6⟩
    | c5 r h n p =>
      obtain ⟨h1, h2, h3, h4, h5, h6, h7⟩ := this
      exact ⟨h1, h2, h3, h4, h5, (key2 _ h5).1.trans h6, (key2 _ h5).2.trans h7⟩
    | _ => exact this
  · intro h; exact (hi.counts h).congr rfl rfl rfl rfl

/-- `write_pos` release-stored `n` further on. -/
def withPublished (s : State) (n : Word) : State :=
  { s with
    writePos := s.writePos + n
    published := countOn s.published s.writePos (s.writePos + n)
    histW := s.histW ++ [s.writePos + n] }

theorem published_used (s : State) (n : Word) (h : s.used.toNat + n.toNat ≤ 2 ^ 63) :
    (withPublished s n).used.toNat = s.used.toNat + n.toNat := by
  have h1 : (withPublished s n).used = s.used + n := by
    simp only [withPublished, State.used, usedOf]; bv_omega
  rw [h1, BitVec.toNat_add]; omega

/-- Publishing makes the reserved bytes unread ones. -/
theorem published_unread {s : State} (n : Word) (bs : List Byte) (hn : bs.length = n.toNat) (h : s.used.toNat + n.toNat ≤ 2 ^ 63)
    (hb : s.readFrom s.writePos bs.length = bs) : unread (withPublished s n) = unread s ++ bs := by
  show (withPublished s n).readFrom s.readPos (withPublished s n).used.toNat = _
  rw [published_used s n h, State.readFrom_eq (s := s) (t := withPublished s n) rfl rfl rfl, State.readFrom_add, writePos_eq, ← hn, hb]
  rfl

/-- Step P4 keeps the invariant (up to the port). -/
theorem published_inv {s : State} (hi : BlockInv s) (hp : s.phase = .split) {f : Frame} (ha : f.agrees = true) (n : Word) (hn : n = f.need) (bs : List Byte) (hbs : bs = f.bytes)
    (hroom : n ≤ freeOf s.capacity s.writePos s.pSeenR)
    (hb : s.readFrom s.writePos bs.length = bs) (x : PortState) (hx : s.prod = x) (hq : Quiet x) : BlockInv (withPublished s n) := by
  have hc := split_configured hp
  have H := hi.hist hp
  obtain ⟨k, h4, hk, h16, h63⟩ := hi.cap hc
  have hu := hi.used_le_nat hc
  have fit : s.used.toNat + n.toNat ≤ s.capacity.toNat := room_fits H.behind_r H.room_r hroom
  have hlen : bs.length = n.toNat := by rw [hbs, hn]; exact f.length_bytes ha
  constructor
  · exact hi.region_wf
  · intro _
    have g := hi.geometry hc
    refine ⟨g.1, g.2, ?_, g.4⟩
    show (withPublished s n).used.toNat ≤ s.capacity.toNat
    rw [published_used s n (by omega)]; exact fit
  · intro _
    obtain ⟨fs, h1, h2⟩ := hi.framed hc
    refine ⟨fs ++ [f], by simpa [or_imp, forall_and, ha] using h1, ?_⟩
    rw [published_unread n bs hlen (by omega) hb, h2, hbs]; simp
  · exact hi.seed_used
  · exact hi.split_spsc
  · exact hi.split_handle
  · exact hi.whole_handles
  · intro h; simp [withPublished, hp] at h
  · intro _ _
    have b1 := H.behind_r; have b2 := H.room_r; have b3 := H.behind_w
    have fit' : (s.writePos - s.readPos).toNat + n.toNat ≤ s.capacity.toNat := fit
    have b4 : s.writePos - s.cSeenW ≤ s.writePos - s.readPos := w_le_trans b3
    have b4' : (s.writePos - s.cSeenW).toNat ≤ (s.writePos - s.readPos).toNat := b4
    have b5 := w_room2 b2 hroom
    have r1 : s.writePos - s.cSeenW ≤ s.writePos + n - s.cSeenW := by
      show (s.writePos - s.cSeenW).toNat ≤ (s.writePos + n - s.cSeenW).toNat
      rw [w_sum (by omega)]; omega
    have b1' : (s.readPos - s.pSeenR).toNat ≤ (s.writePos - s.pSeenR).toNat := b1
    have b3' : (s.cSeenW - s.readPos).toNat ≤ (s.writePos - s.readPos).toNat := b3
    refine ⟨by simp [withPublished], H.last_r, H.seen_r, getElem?_append_old H.seen_w, H.rising_r,
      rising_append H.rising_w H.seen_w H.last_w r1, ?_, ?_, ?_⟩
    · show (s.readPos - s.pSeenR).toNat ≤ (s.writePos + n - s.pSeenR).toNat
      rw [w_sum (by omega)]; omega
    · show (s.writePos + n - s.pSeenR).toNat ≤ s.capacity.toNat
      rw [w_sum (by omega)]; omega
    · show (s.cSeenW - s.readPos).toNat ≤ (s.writePos + n - s.readPos).toNat
      rw [w_sum (by omega)]; omega
  · exact hi.cfg_ok
  · show ProdOk (withPublished s n) s.prod
    rw [hx]; exact hq.prod _
  · exact consOk_congr (s := s) (t := withPublished s n) rfl rfl rfl rfl (State.readFrom_eq (s := s) (t := withPublished s n) rfl rfl rfl) hi.cons_ok
  · intro _; exact (hi.counts hc).publish (n := n) rfl rfl rfl (published_used s n (by omega))

/-- `read_pos` release-stored `n` further on. -/
def withReleased (s : State) (n : Word) : State :=
  { s with
    readPos := s.readPos + n
    released := countOn s.released s.readPos (s.readPos + n)
    histR := s.histR ++ [s.readPos + n] }

theorem released_used (s : State) (n : Word) (h : n.toNat ≤ s.used.toNat) :
    (withReleased s n).used.toNat = s.used.toNat - n.toNat := by
  simp only [withReleased, State.used, usedOf] at *; bv_omega

/-- Step C5 keeps the invariant (up to the port). -/
theorem released_inv {s : State} (hi : BlockInv s) (hp : s.phase = .split) {f : Frame} {fs : List Frame}
    (hh : Holds (afterRead s f.need) fs) (n : Word) (hn : n = f.need)
    (hle : n ≤ usedOf s.cSeenW s.readPos) (hq : Quiet s.cons) : BlockInv (withReleased s n) := by
  have hc := split_configured hp
  have H := hi.hist hp
  obtain ⟨k, h4, hk, h16, h63⟩ := hi.cap hc
  have hu := hi.used_le_nat hc
  have b1 := H.behind_r; have b2 := H.room_r; have b3 := H.behind_w
  have hle' : n.toNat ≤ s.used.toNat := Nat.le_trans hle b3
  constructor
  · exact hi.region_wf
  · intro _
    have g := hi.geometry hc
    refine ⟨g.1, g.2, ?_, g.4⟩
    show (withReleased s n).used.toNat ≤ s.capacity.toNat
    rw [released_used s n hle']; omega
  · intro _
    refine ⟨fs, hh.1, ?_⟩
    rw [← hh.2, ← hn]
    exact State.readFrom_eq (s := afterRead s n) (t := withReleased s n) rfl rfl rfl _ _
  · exact hi.seed_used
  · exact hi.split_spsc
  · exact hi.split_handle
  · exact hi.whole_handles
  · intro h; simp [withReleased, hp] at h
  · intro _ _
    have hle2 : n.toNat ≤ (s.cSeenW - s.readPos).toNat := hle
    have hle3 : n.toNat ≤ (s.writePos - s.readPos).toNat := hle'
    have b5 := w_inner b1
    have b1' : (s.readPos - s.pSeenR).toNat ≤ (s.writePos - s.pSeenR).toNat := b1
    have b2' : (s.writePos - s.pSeenR).toNat ≤ s.capacity.toNat := b2
    have b3' : (s.cSeenW - s.readPos).toNat ≤ (s.writePos - s.readPos).toNat := b3
    have r1 : s.readPos - s.pSeenR ≤ s.readPos + n - s.pSeenR := by
      show (s.readPos - s.pSeenR).toNat ≤ (s.readPos + n - s.pSeenR).toNat
      rw [w_sum (by omega)]; omega
    refine ⟨H.last_w, by simp [withReleased], getElem?_append_old H.seen_r, H.seen_w,
      rising_append H.rising_r H.seen_r H.last_r r1, H.rising_w, ?_, ?_, ?_⟩
    · show (s.readPos + n - s.pSeenR).toNat ≤ (s.writePos - s.pSeenR).toNat
      rw [w_sum (by omega)]; omega
    · exact H.room_r
    · show (s.cSeenW - (s.readPos + n)).toNat ≤ (s.writePos - (s.readPos + n)).toNat
      rw [w_sub hle2, w_sub hle3]; omega
  · exact hi.cfg_ok
  · exact prodOk_congr (s := s) (t := withReleased s n) rfl rfl rfl rfl rfl (State.readFrom_eq (s := s) (t := withReleased s n) rfl rfl rfl) hi.prod_ok
  · show ConsOk (withReleased s n) s.cons
    exact hq.cons _
  · intro _; exact (hi.counts hc).release (n := n) rfl rfl rfl hle' (released_used s n hle')

theorem whole_of_writeLegal {s : State} (h : s.writeLegal = true) : s.port = .prod ∧
    ((s.phase = .whole ∧ s.mode = .single) ∨ (s.phase = .split ∧ s.prodAlive = true)) := by
  simpa [State.writeLegal, State.prodMay] using h

theorem whole_of_readLegal {s : State} (h : s.readLegal = true) : s.port = .cons ∧
    ((s.phase = .whole ∧ s.mode = .single) ∨ (s.phase = .split ∧ s.consAlive = true)) := by
  simpa [State.readLegal, State.consMay] using h

theorem inv_post {s : State} (hi : BlockInv s) (r : Response) : BlockInv (s.setPort s.port (.responding r)) :=
  inv_setQuiet hi _ trivial

/-- `SPLIT` keeps the invariant (up to the port). -/
theorem split_inv {s : State} (hi : BlockInv s) (hp : s.phase = .whole) (hm : s.mode = .spsc) :
    BlockInv { s with phase := .split, prodAlive := true, consAlive := true } := by
  have hc : Configured s := by simp [Configured, hp]
  have H := hi.histories hc hm
  have g := hi.geometry hc
  constructor
  · exact hi.region_wf
  · intro _; exact ⟨g.1, g.2, g.3, g.4⟩
  · intro _; obtain ⟨fs, hh⟩ := hi.framed hc
    exact ⟨fs, holds_congr (s := s) (t := { s with phase := .split, prodAlive := true, consAlive := true }) rfl rfl (State.readFrom_eq (s := s) (t := { s with phase := .split, prodAlive := true, consAlive := true }) rfl rfl rfl) hh⟩
  · intro _; exact hi.seed_used hc
  · intro _; exact hm
  · intro _; exact .inl rfl
  · intro h; simp at h
  · intro h; simp at h
  · intro _ _; exact ⟨H.1, H.2, H.3, H.4, H.5, H.6, H.7, H.8, H.9⟩
  · exact hi.cfg_ok
  · exact (quiet_prod hi (.inl (by simp [hp]))).prod _
  · exact (quiet_cons hi (.inl (by simp [hp]))).cons _
  · intro _; exact (hi.counts hc).congr rfl rfl rfl rfl

/-- Dropping the producer's handle first keeps the invariant. -/
theorem drop1_inv {s : State} (hi : BlockInv s) (hp : s.phase = .split) (hca : s.consAlive = true) (hq : Quiet s.prod) : BlockInv { s with prodAlive := false } := by
  have hc := split_configured hp
  have H := hi.hist hp
  have g := hi.geometry hc
  constructor
  · exact hi.region_wf
  · intro _; exact ⟨g.1, g.2, g.3, g.4⟩
  · intro _; obtain ⟨fs, hh⟩ := hi.framed hc
    exact ⟨fs, holds_congr (s := s) (t := { s with prodAlive := false }) rfl rfl (State.readFrom_eq (s := s) (t := { s with prodAlive := false }) rfl rfl rfl) hh⟩
  · intro _; exact hi.seed_used hc
  · exact hi.split_spsc
  · intro _; exact .inr hca
  · intro h; exact absurd hp h
  · intro h; simp [hp] at h
  · intro _ _; exact ⟨H.1, H.2, H.3, H.4, H.5, H.6, H.7, H.8, H.9⟩
  · exact hi.cfg_ok
  · exact hq.prod _
  · exact consOk_congr (s := s) (t := { s with prodAlive := false }) rfl rfl rfl rfl (State.readFrom_eq (s := s) (t := { s with prodAlive := false }) rfl rfl rfl) hi.cons_ok
  · intro _; exact (hi.counts hc).congr rfl rfl rfl rfl

/-- Dropping the consumer's handle first keeps the invariant. -/
theorem drop2_inv {s : State} (hi : BlockInv s) (hp : s.phase = .split) (hca : s.prodAlive = true) (hq : Quiet s.cons) : BlockInv { s with consAlive := false } := by
  have hc := split_configured hp
  have H := hi.hist hp
  have g := hi.geometry hc
  constructor
  · exact hi.region_wf
  · intro _; exact ⟨g.1, g.2, g.3, g.4⟩
  · intro _; obtain ⟨fs, hh⟩ := hi.framed hc
    exact ⟨fs, holds_congr (s := s) (t := { s with consAlive := false }) rfl rfl (State.readFrom_eq (s := s) (t := { s with consAlive := false }) rfl rfl rfl) hh⟩
  · intro _; exact hi.seed_used hc
  · exact hi.split_spsc
  · intro _; exact .inl hca
  · intro h; exact absurd hp h
  · intro h; simp [hp] at h
  · intro _ _; exact ⟨H.1, H.2, H.3, H.4, H.5, H.6, H.7, H.8, H.9⟩
  · exact hi.cfg_ok
  · exact prodOk_congr (s := s) (t := { s with consAlive := false }) rfl rfl rfl rfl rfl (State.readFrom_eq (s := s) (t := { s with consAlive := false }) rfl rfl rfl) hi.prod_ok
  · exact hq.cons _
  · intro _; exact (hi.counts hc).congr rfl rfl rfl rfl

end Sys2Proof.Safety
end

