-- ==== Sys2Proof/Laws/Effects.lean ====
section
/-! SUPPORT. Said once: everything a command, the next step of a port, and a step of the machine can do. A proof about every step goes
through these lemmas. -/

namespace Sys2Proof.Safety

open Machine

/-! ## Ports that are ready -/

/-- Taking an input makes no port ready. -/
theorem ready_at (s : State) (p q : Port) (rest : List Input) : (s.at p rest).ready q = s.ready q := by cases q <;> rfl

/-- In mode `SINGLE` a request waits for all three ports. -/
theorem ready_single {s : State} (h : s.phase = .whole ∧ s.mode = .single) (p : Port) :
    s.ready p = true ↔ ∀ q, s.portState q = .idle := by
  rw [State.ready, if_pos h, decide_eq_true_eq]
  exact ⟨fun ⟨a, b, c⟩ q => by cases q <;> assumption, fun g => ⟨g .cfg, g .prod, g .cons⟩⟩

/-- Otherwise it waits for its own port. -/
theorem ready_other {s : State} (h : ¬ (s.phase = .whole ∧ s.mode = .single)) (p : Port) :
    s.ready p = true ↔ s.portState p = .idle := by
  rw [State.ready, if_neg h, decide_eq_true_eq]

/-- A step with a request next. -/
theorem step_request {s : State} {p bytes rest} (hb : s.inbox = .request p bytes :: rest) : step s = request bytes (s.at p rest) := by
  simp only [step, hb]

/-- A request at a ready port is executed. -/
theorem request_ready {s : State} {bytes i} (hr : s.ready s.port = true) (hd : decode .cmd bytes = .ok i) : request bytes s = exec i (s.log (.request i)) := by
  simp [request, hr, hd]

/-- A request that comes too early is refused. -/
theorem request_early {s : State} {bytes} (hr : ¬ s.ready s.port = true) : request bytes s = .refused .requestBeforeResponse := by
  simp [request, hr]

/-! ## Commands, ports, steps -/

/-- What a command starts in phase `Split`. -/
inductive Starts (s : State) : PortState → Prop where
  | write (f : Frame) (h : f.agrees = true) (hp : s.port = .prod) (ha : s.prodAlive = true) : Starts s (.p1 f)
  | read (hp : s.port = .cons) (ha : s.consAlive = true) : Starts s .c1
  | query (q : Query) (h : s.queryLegal = true) : Starts s (.q1 q)

/-- Everything a command can do. -/
inductive CommandEffect (i : Instr) (s : State) : State → Prop where
  | answers (r : Response) (hm : mayAnswer i r) (hf : frameOf r = []) (he : r ≠ .ok .empty) : CommandEffect i s (s.setPort s.port (.responding r))
  | starts (x : PortState) (hp : s.phase = .split) (hx : Starts s x) : CommandEffect i s (s.setPort s.port x)
  | creates (mode : Mode) (c : Word) (hi : i = .new mode c) (hc : s.port = .cfg) (hp : s.phase = .unconfigured) (h16 : ¬ c < 16#64) (h2 : isPowerOfTwo c = true)
      (hb : beyondInstance c = false) :
      CommandEffect i s ((s.create mode c).setPort s.port (.responding (.ok .empty)))
  | splits (hi : i = .split) (hc : s.port = .cfg) (hp : s.phase = .whole) (hm : s.mode = .spsc) :
      CommandEffect i s ({ s with phase := .split, prodAlive := true, consAlive := true }.setPort s.port (.responding (.ok .empty)))
  | dropsRing (hi : i = .dropRing) (hc : s.port = .cfg) (hp : s.phase = .whole) :
      CommandEffect i s (s.loseRing.setPort s.port (.responding (.ok .empty)))
  | dropsProducer (hi : i = .dropProducer) (hc : s.port = .prod) (hp : s.phase = .split) (ha : s.prodAlive = true) (hb : s.consAlive = true) :
      CommandEffect i s ({ s with prodAlive := false }.setPort s.port (.responding (.ok .empty)))
  | dropsLastProducer (hi : i = .dropProducer) (hc : s.port = .prod) (hp : s.phase = .split) (ha : s.prodAlive = true) (hb : s.consAlive = false) :
      CommandEffect i s ({ s with prodAlive := false }.loseRing.setPort s.port (.responding (.ok .empty)))
  | dropsConsumer (hi : i = .dropConsumer) (hc : s.port = .cons) (hp : s.phase = .split) (ha : s.consAlive = true) (hb : s.prodAlive = true) :
      CommandEffect i s ({ s with consAlive := false }.setPort s.port (.responding (.ok .empty)))
  | dropsLastConsumer (hi : i = .dropConsumer) (hc : s.port = .cons) (hp : s.phase = .split) (ha : s.consAlive = true) (hb : s.prodAlive = false) :
      CommandEffect i s ({ s with consAlive := false }.loseRing.setPort s.port (.responding (.ok .empty)))
  | writes (f : Frame) (bytes : List Byte) (need : Word) (hb : bytes = f.bytes) (hn : need = f.need)
      (hi : i = .writeEvent f.timestamp f.eventType f.flags f.payloadLen f.payload) (hc : s.port = .prod) (hp : s.phase = .whole)
      (hm : s.mode = .single) (ha : f.agrees = true) (hfree : need ≤ s.free) (hlen : bytes.length ≤ s.capacity.toNat) :
      CommandEffect i s (((afterStore s bytes need).log (.memWrite s.writePos bytes)).setPort s.port (.responding (.ok .empty)))
  | findsNoFrame (header : List Byte) (hh : header = s.readFrom s.readPos 16) (hi : i = .readEvent) (hc : s.port = .cons)
      (hp : s.phase = .whole) (hm : s.mode = .single) (h16 : 16#64 ≤ s.used)
      (hs : s.used < needOf (headerPayloadLen (headerOfBytes header))) :
      CommandEffect i s ((s.log (.memRead s.readPos header)).setPort s.port (.responding .none))
  | reads (header : List Byte) (h : HeaderBits) (n : Half) (payload : List Byte) (hh : header = s.readFrom s.readPos 16)
      (hd : h = headerOfBytes header) (hn : n = headerPayloadLen h) (hl : payload = s.readFrom (s.readPos + 16#64) n.toNat)
      (hi : i = .readEvent) (hc : s.port = .cons) (hp : s.phase = .whole) (hm : s.mode = .single) (h16 : 16#64 ≤ s.used)
      (hu : needOf n ≤ s.used) :
      CommandEffect i s ((((afterRead s (needOf n)).log (.memRead s.readPos header)).log
        (.memRead (s.readPos + 16#64) payload)).setPort s.port (.responding (.ok (.event h payload))))

/-- What a `WRITE_EVENT` does in mode `SINGLE`. -/
theorem writeSingle_effect {i : Instr} {s t : State} {f : Frame} (hi : i = .writeEvent f.timestamp f.eventType f.flags f.payloadLen f.payload)
    (hc : s.port = .prod) (hp : s.phase = .whole) (hm : s.mode = .single) (ha : f.agrees = true) (h : writeSingle f s = .next t) :
    CommandEffect i s t := by
  unfold writeSingle at h
  have hw : ∀ bytes need, bytes = f.bytes → need = f.need → need ≤ s.free → bytes.length ≤ s.capacity.toNat → _ :=
    fun bytes need hb hn => CommandEffect.writes f bytes need hb hn hi hc hp hm ha
  have hm : ∀ r a, mayAnswer i (.notEnoughSpace r a) := fun _ _ => ⟨_, _, _, _, _, hi⟩
  generalize f.bytes = bytes at *
  generalize f.need = need at *
  split at h
  · cases h; exact .answers _ (hm _ _) rfl nofun
  · rename_i hfree
    split at h
    · cases h
    · rename_i u hu
      obtain ⟨hlen, rfl⟩ := memWrite_ok hu
      cases h
      exact hw bytes need rfl rfl (BitVec.not_lt.1 hfree) hlen

/-- What a `READ_EVENT` does in mode `SINGLE`. -/
theorem readSingle_effect {s t : State} (hc : s.port = .cons) (hp : s.phase = .whole) (hm : s.mode = .single)
    (h : readSingle s = .next t) : CommandEffect .readEvent s t := by
  unfold readSingle at h
  split at h
  · cases h; exact .answers _ rfl rfl nofun
  · rename_i h16
    split at h
    · cases h
    · rename_i header u hu
      obtain ⟨-, hh, rfl⟩ := memRead_ok hu
      unfold readPayloadSingle at h
      have hf := CommandEffect.findsNoFrame (i := .readEvent) header hh rfl hc hp hm (BitVec.not_lt.1 h16)
      have hr := CommandEffect.reads (i := .readEvent) header _ _ (s.readFrom (s.readPos + 16#64) (headerPayloadLen (headerOfBytes header)).toNat)
        hh rfl rfl rfl rfl hc hp hm (BitVec.not_lt.1 h16)
      generalize headerOfBytes header = hd at *
      generalize headerPayloadLen hd = n at *
      split at h
      · cases h; exact hf ‹_›
      · rename_i hs
        split at h
        · cases h
        · rename_i payload v hm2
          obtain ⟨-, hl, rfl⟩ := memRead_ok hm2
          rw [State.readFrom_log] at hl
          rw [← hl] at hr
          cases h
          exact hr (BitVec.not_lt.1 hs)

/-- What a status query does. -/
theorem query_effect {i : Instr} {s t : State} {code : Byte} {q : Query} (hi : i = .used ∨ i = .free ∨ i = .isEmpty)
    (h : whenLegal s.queryLegal code (queryStatus q s) s = .next t) : CommandEffect i s t := by
  have hm : ∀ f, mayAnswer i (.ok f) := by intro f c; rcases hi with rfl | rfl | rfl <;> simp
  rcases whenLegal_cases h with ⟨hl, h⟩ | ⟨-, rfl⟩
  · unfold queryStatus at h
    split at h
    · rename_i hp
      cases h
      exact .starts _ hp (.query q hl)
    · cases h
      exact .answers _ (hm _) (by cases q <;> rfl) (by cases q <;> nofun)
  · refine .answers _ ?_ rfl nofun
    rcases hi with rfl | rfl | rfl <;> simp [mayAnswer]

/-- A command does one of these things. -/
theorem exec_command {i : Instr} {s t : State} (hc : i.format = .cmd) (h : exec i s = .next t) : CommandEffect i s t := by
  cases i with
  | new mode capacity =>
    rcases whenLegal_cases (show execNew mode capacity s = .next t from h) with ⟨hl, h⟩ | ⟨-, rfl⟩
    · simp only [State.newLegal, Bool.and_eq_true, decide_eq_true_eq] at hl
      unfold newRing at h
      split at h
      · cases h; exact .answers _ ⟨_, _, rfl⟩ rfl nofun
      · split at h
        · cases h; exact .answers _ ⟨_, _, rfl⟩ rfl nofun
        · split at h
          · cases h
          · rename_i h1 h2 h3
            cases h
            exact .creates mode capacity rfl hl.1 hl.2 h1 (by simpa using h2) (by simpa using h3)
    · exact .answers _ (by simp [mayAnswer]) rfl nofun
  | split =>
    rcases whenLegal_cases (show execSplit s = .next t from h) with ⟨hl, h⟩ | ⟨-, rfl⟩
    · simp only [State.splitLegal, Bool.and_eq_true, decide_eq_true_eq] at hl
      cases h; exact .splits rfl hl.1.1 hl.1.2 hl.2
    · exact .answers _ (by simp [mayAnswer]) rfl nofun
  | dropRing =>
    rcases whenLegal_cases (show execDropRing s = .next t from h) with ⟨hl, h⟩ | ⟨-, rfl⟩
    · simp only [State.dropRingLegal, Bool.and_eq_true, decide_eq_true_eq] at hl
      cases h; exact .dropsRing rfl hl.1 hl.2
    · exact .answers _ (by simp [mayAnswer]) rfl nofun
  | writeEvent a b c d e =>
    rcases whenLegal_cases (show execWriteEvent a b c d e s = .next t from h) with ⟨hl, h⟩ | ⟨-, rfl⟩
    · obtain ⟨hport, hl⟩ := whole_of_writeLegal hl
      unfold writeEvent at h
      split at h
      · cases h
      · rename_i ha
        split at h
        · rename_i hp
          cases h
          exact .starts _ hp (.write _ (by simpa using ha) hport (by simpa [hp] using hl))
        · rename_i hp
          have hw : s.phase = .whole ∧ s.mode = .single := by simpa [hp] using hl
          exact writeSingle_effect (f := ⟨a, b, c, d, e⟩) rfl hport hw.1 hw.2 (by simpa using ha) h
    · exact .answers _ (by simp [mayAnswer]) rfl nofun
  | dropProducer =>
    rcases whenLegal_cases (show execDropProducer s = .next t from h) with ⟨hl, h⟩ | ⟨-, rfl⟩
    · simp only [State.dropProducerLegal, Bool.and_eq_true, decide_eq_true_eq] at hl
      by_cases hca : s.consAlive = true
      · rw [if_pos hca] at h
        cases h
        exact .dropsProducer rfl hl.1.1 hl.1.2 hl.2 hca
      · rw [if_neg hca] at h
        cases h
        exact .dropsLastProducer rfl hl.1.1 hl.1.2 hl.2 (by simpa using hca)
    · exact .answers _ (by simp [mayAnswer]) rfl nofun
  | readEvent =>
    rcases whenLegal_cases (show execReadEvent s = .next t from h) with ⟨hl, h⟩ | ⟨-, rfl⟩
    · obtain ⟨hport, hl⟩ := whole_of_readLegal hl
      split at h
      · rename_i hp
        cases h
        exact .starts _ hp (.read hport (by simpa [hp] using hl))
      · rename_i hp
        have hw : s.phase = .whole ∧ s.mode = .single := by simpa [hp] using hl
        exact readSingle_effect hport hw.1 hw.2 h
    · exact .answers _ (by simp [mayAnswer]) rfl nofun
  | dropConsumer =>
    rcases whenLegal_cases (show execDropConsumer s = .next t from h) with ⟨hl, h⟩ | ⟨-, rfl⟩
    · simp only [State.dropConsumerLegal, Bool.and_eq_true, decide_eq_true_eq] at hl
      by_cases hca : s.prodAlive = true
      · rw [if_pos hca] at h
        cases h
        exact .dropsConsumer rfl hl.1.1 hl.1.2 hl.2 hca
      · rw [if_neg hca] at h
        cases h
        exact .dropsLastConsumer rfl hl.1.1 hl.1.2 hl.2 (by simpa using hca)
    · exact .answers _ (by simp [mayAnswer]) rfl nofun
  | headerSize => cases h; exact .answers _ (by simp [mayAnswer]) rfl nofun
  | totalSize _ => cases h; exact .answers _ (by simp [mayAnswer]) rfl nofun
  | headerNew _ _ _ => cases h; exact .answers _ (by simp [mayAnswer]) rfl nofun
  | encodeHeader _ _ _ _ => cases h; exact .answers _ (by simp [mayAnswer]) rfl nofun
  | decodeHeader _ => cases h; exact .answers _ (by simp [mayAnswer]) rfl nofun
  | used => exact query_effect (.inl rfl) h
  | free => exact query_effect (.inr (.inl rfl)) h
  | isEmpty => exact query_effect (.inr (.inr rfl)) h
  | reservedCode _ => cases h; exact .answers _ (by simp [mayAnswer]) rfl nofun
  | frameHeader a b c d e => cases hc
  | rspOk _ => cases hc
  | rspNone => cases hc
  | rspInvalidCapacity c r => cases hc
  | rspNotEnoughSpace _ _ => cases hc
  | rspBadCommand _ => cases hc
  | reasonTooSmall => cases hc
  | reasonNotPowerOfTwo => cases hc

/-- Everything the next step of a port can do. -/
inductive AdvanceEffect (s : State) : State → Prop where
  | idle (hx : s.portState s.port = .idle) : AdvanceEffect s s
  | handsOver (r : Response) (hx : s.portState s.port = .responding r) (hr : ∀ c q, r ≠ .invalidCapacity c q) :
      AdvanceEffect s ((s.log (.response r)).setPort s.port .idle)
  | owesReason (c : Word) (q : Reason) (hx : s.portState s.port = .responding (.invalidCapacity c q)) :
      AdvanceEffect s (s.setPort s.port (.reasonDue c q))
  | handsOverReason (c : Word) (q : Reason) (hx : s.portState s.port = .reasonDue c q) :
      AdvanceEffect s ((s.log (.response (.invalidCapacity c q))).setPort s.port .idle)
  | p1 (f : Frame) (d : Nat) (hx : s.portState s.port = .p1 f) :
      AdvanceEffect s ((acqLoadReadPos d s).setPort s.port (.p2 f (acqLoadReadPos d s).pSeenR))
  | p2Fails (f : Frame) (r : Word) (hx : s.portState s.port = .p2 f r) (hf : freeOf s.capacity s.writePos r < f.need) :
      AdvanceEffect s ((s.log (.ownLoad .writePos s.writePos)).setPort s.port
        (.responding (.notEnoughSpace f.need (freeOf s.capacity s.writePos r))))
  | p2Fits (f : Frame) (r : Word) (hx : s.portState s.port = .p2 f r) (hf : f.need ≤ freeOf s.capacity s.writePos r) :
      AdvanceEffect s ((s.log (.ownLoad .writePos s.writePos)).setPort s.port (.p3 f s.writePos))
  | p3 (f : Frame) (w : Word) (bytes : List Byte) (hx : s.portState s.port = .p3 f w) (hb : bytes = f.bytes)
      (hl : bytes.length ≤ s.capacity.toNat) :
      AdvanceEffect s (({ s with region := writeFrom s.mask w bytes s.region }.log (.memWrite w bytes)).setPort s.port (.p4 f w))
  | p4 (f : Frame) (w : Word) (need : Word) (hx : s.portState s.port = .p4 f w) (hn : need = f.need) :
      AdvanceEffect s ((relStoreWritePos (w + need) s).setPort s.port (.responding (.ok .empty)))
  | c1 (d : Nat) (hx : s.portState s.port = .c1) :
      AdvanceEffect s ((acqLoadWritePos d s).setPort s.port (.c2 (acqLoadWritePos d s).cSeenW))
  | c2None (w : Word) (hx : s.portState s.port = .c2 w) (hu : usedOf w s.readPos < 16#64) :
      AdvanceEffect s ((s.log (.ownLoad .readPos s.readPos)).setPort s.port (.responding .none))
  | c2Some (w : Word) (hx : s.portState s.port = .c2 w) (hu : 16#64 ≤ usedOf w s.readPos) :
      AdvanceEffect s ((s.log (.ownLoad .readPos s.readPos)).setPort s.port (.c3 w s.readPos))
  | c3None (w r : Word) (header : List Byte) (n : Half) (hx : s.portState s.port = .c3 w r) (hh : header = s.readFrom r 16)
      (hn : n = headerPayloadLen (headerOfBytes header)) (hu : usedOf w r < needOf n) :
      AdvanceEffect s ((s.log (.memRead r header)).setPort s.port (.responding .none))
  | c3Some (w r : Word) (header : List Byte) (h : HeaderBits) (n : Half) (hx : s.portState s.port = .c3 w r)
      (hh : header = s.readFrom r 16) (hd : h = headerOfBytes header) (hn : n = headerPayloadLen h) (hu : needOf n ≤ usedOf w r) :
      AdvanceEffect s ((s.log (.memRead r header)).setPort s.port (.c4 r h n))
  | c4 (r : Word) (h : HeaderBits) (n : Half) (payload : List Byte) (hx : s.portState s.port = .c4 r h n)
      (hp : payload = s.readFrom (r + 16#64) n.toNat) :
      AdvanceEffect s ((s.log (.memRead (r + 16#64) payload)).setPort s.port (.c5 r h n payload))
  | c5 (r : Word) (h : HeaderBits) (n : Half) (payload : List Byte) (hx : s.portState s.port = .c5 r h n payload) :
      AdvanceEffect s ((relStoreReadPos (r + needOf n) s).setPort s.port (.responding (.ok (.event h payload))))
  | q1Prod (q : Query) (d : Nat) (hx : s.portState s.port = .q1 q) (hp : s.port = .prod) :
      AdvanceEffect s ((acqLoadReadPos d s).setPort s.port (.q2 q (acqLoadReadPos d s).pSeenR))
  | q1Cons (q : Query) (d : Nat) (hx : s.portState s.port = .q1 q) (hp : s.port ≠ .prod) :
      AdvanceEffect s ((acqLoadWritePos d s).setPort s.port (.q2 q (acqLoadWritePos d s).cSeenW))
  | q2Prod (q : Query) (v : Word) (hx : s.portState s.port = .q2 q v) (hp : s.port = .prod) :
      AdvanceEffect s ((s.log (.ownLoad .writePos s.writePos)).setPort s.port
        (.responding (.ok (queryResult q s.capacity s.writePos v))))
  | q2Cons (q : Query) (v : Word) (hx : s.portState s.port = .q2 q v) (hp : s.port ≠ .prod) :
      AdvanceEffect s ((s.log (.ownLoad .readPos s.readPos)).setPort s.port
        (.responding (.ok (queryResult q s.capacity v s.readPos))))

/-- What step C3 does. -/
theorem stepC3_effect {s t : State} {w r : Word} (hx : s.portState s.port = .c3 w r) (h : stepC3 r s = .next t) : AdvanceEffect s t := by
  unfold stepC3 fetchHeader at h
  cases hm : memRead r 16 s with
  | error e => rw [hm] at h; cases h
  | ok p =>
    obtain ⟨header, u⟩ := p
    rw [hm] at h
    obtain ⟨-, hh, rfl⟩ := memRead_ok hm
    have hl : header.length = 16 := by rw [hh]; simp
    simp only at h
    rw [decode_hdr _ hl] at h
    simp only [exec, execFrameHeader, packHeader_fields] at h
    have hx' : (s.log (.memRead r header)).portState (s.log (.memRead r header)).port = .c3 w r := by
      simpa using hx
    rw [hx'] at h
    have h0 := AdvanceEffect.c3None w r header _ hx hh rfl
    have h1 := AdvanceEffect.c3Some w r header _ _ hx hh rfl rfl
    generalize headerOfBytes header = hd at *
    generalize headerPayloadLen hd = n at *
    simp only at h
    split at h
    · cases h; exact h0 ‹_›
    · cases h; exact h1 (BitVec.not_lt.1 ‹_›)

/-- The next step of a port does one of these things. -/
theorem advance_effect {s t : State} (h : advance s = .next t) : AdvanceEffect s t := by
  unfold advance at h
  split at h
  · rename_i hx; cases h; exact .idle hx
  · rename_i r hx
    cases r with
    | ok f => obtain ⟨-, rfl⟩ := handOver_cases h; exact .handsOver _ hx (by simp)
    | none => obtain ⟨-, rfl⟩ := handOver_cases h; exact .handsOver _ hx (by simp)
    | notEnoughSpace a b => obtain ⟨-, rfl⟩ := handOver_cases h; exact .handsOver _ hx (by simp)
    | badCommand c => obtain ⟨-, rfl⟩ := handOver_cases h; exact .handsOver _ hx (by simp)
    | invalidCapacity c q =>
      have h : execRspInvalidCapacity c q s = .next t := h
      rw [execRspInvalidCapacity, if_pos hx] at h
      cases h; exact .owesReason c q hx
  · rename_i c q hx
    have : handOverReason q s = .next t := by cases q <;> exact h
    obtain ⟨c', hx', rfl⟩ := handOverReason_cases this
    rw [hx] at hx'; cases hx'
    exact .handsOverReason c q hx
  · cases h; exact .p1 _ _ ‹_›
  · unfold stepP2 at h
    split at h
    · cases h; exact .p2Fails _ _ ‹_› ‹_›
    · cases h; exact .p2Fits _ _ ‹_› (BitVec.not_lt.1 ‹_›)
  · rename_i f w hx
    unfold stepP3 at h
    have hb := fun b (hb : b = f.bytes) => AdvanceEffect.p3 f w b hx hb
    generalize f.bytes = bytes at *
    split at h
    · cases h
    · rename_i u hu
      obtain ⟨hl, rfl⟩ := memWrite_ok hu
      cases h; exact hb bytes rfl hl
  · rename_i f w hx
    unfold stepP4 at h
    have hb := fun b (hb : b = f.need) => AdvanceEffect.p4 f w b hx hb
    generalize f.need = need at *
    cases h; exact hb need rfl
  · cases h; exact .c1 _ ‹_›
  · unfold stepC2 at h
    split at h
    · cases h; exact .c2None _ ‹_› ‹_›
    · cases h; exact .c2Some _ ‹_› (BitVec.not_lt.1 ‹_›)
  · exact stepC3_effect ‹_› h
  · rename_i r hd n hx
    unfold stepC4 at h
    split at h
    · cases h
    · rename_i p u hu
      obtain ⟨-, hp, rfl⟩ := memRead_ok hu
      cases h; exact .c4 _ _ _ _ hx hp
  · cases h; exact .c5 _ _ _ _ ‹_›
  · rename_i q hx
    unfold stepQ1 at h
    split at h
    · rename_i hp; cases h; exact .q1Prod q _ hx hp
    · rename_i hp; cases h; exact .q1Cons q _ hx (fun e => hp e)
  · rename_i q v hx
    unfold stepQ2 at h
    split at h
    · rename_i hp; cases h; exact .q2Prod q v hx hp
    · rename_i hp; cases h; exact .q2Cons q v hx (fun e => hp e)

/-- Everything a step can do: nothing, or a request at a ready port, or the next step of a port. -/
theorem step_effect {s t : State} (h : step s = .next t) :
    (s.inbox = [] ∧ t = s) ∨
    (∃ p bytes rest i u, s.inbox = .request p bytes :: rest ∧ s.ready p = true ∧ decode .cmd bytes = .ok i ∧
      u = (s.at p rest).log (.request i) ∧ CommandEffect i u t) ∨
    (∃ p rest u, s.inbox = .advance p :: rest ∧ u = s.at p rest ∧ AdvanceEffect u t) := by
  unfold step at h
  split at h
  · cases h; exact .inl ⟨‹_›, rfl⟩
  · rename_i p bytes rest hb
    right; left
    unfold request at h
    split at h
    · cases h
    · rename_i hr
      split at h
      · cases h
      · rename_i i hd
        refine ⟨p, bytes, rest, i, _, hb, ?_, hd, rfl, exec_command (format_decode_cmd hd) h⟩
        have : (s.at p rest).ready p = true := by simpa using hr
        cases p <;> exact this
  · rename_i p rest hb
    exact .inr (.inr ⟨p, rest, _, hb, rfl, advance_effect h⟩)

end Sys2Proof.Safety
end

