-- ==== Sys2Proof/Laws/PerInstr.lean ====
section
/-! SUPPORT. What holds of every item of the opcode table as syntax, one lemma a constructor: how many bytes its encoding has, from
the operand widths of spec/30_encoding.md R110 (commands), R111 (responses), R112 (reason codes) and R100 (the header). -/

namespace Sys2Proof.Laws.EncodedLength

open Machine

@[simp] theorem length_bytesOfWord (w : Word) : (bytesOfWord w).length = 8 := length_leBytes _ _

@[simp] theorem length_bytesOfHalf (h : Half) : (bytesOfHalf h).length = 2 := length_leBytes _ _

@[simp] theorem length_bytesOfReserved (r : Reserved) : (bytesOfReserved r).length = 4 := length_leBytes _ _

/-- The length of an encoding is its code's one byte and its operand bytes. -/
theorem length_encode (i : Instr) : (encode i).length = i.operandBytes.length + 1 := rfl

/-- How many bytes an item is encoded in: its code, then each field in its width in whole bytes (log entry 1). -/
def Statement (i : Instr) : Prop :=
  (encode i).length = match i with
    | .new _ _ => 1 + 1 + 8
    | .split => 1
    | .dropRing => 1
    | .writeEvent _ _ _ _ payload => 1 + 8 + 1 + 1 + 2 + payload.length
    | .dropProducer => 1
    | .readEvent => 1
    | .dropConsumer => 1
    | .headerSize => 1
    | .totalSize _ => 1 + 2
    | .headerNew _ _ _ => 1 + 8 + 1 + 2
    | .encodeHeader _ _ _ _ => 1 + 8 + 1 + 1 + 2
    | .decodeHeader _ => 1 + 16
    | .used => 1
    | .free => 1
    | .isEmpty => 1
    | .reservedCode _ => 1
    | .frameHeader _ _ _ _ _ => 16
    | .rspOk fields => 1 + fields.bytes.length
    | .rspNone => 1
    | .rspInvalidCapacity _ _ => 1 + 8 + 1
    | .rspNotEnoughSpace _ _ => 1 + 8 + 8
    | .rspBadCommand _ => 1 + 1
    | .reasonTooSmall => 1
    | .reasonNotPowerOfTwo => 1

theorem new (mode : Mode) (capacity : Word) : Statement (.new mode capacity) := by
  show ([mode.byte] ++ bytesOfWord capacity).length + 1 = 1 + 1 + 8
  simp

theorem split : Statement .split := rfl

theorem dropRing : Statement .dropRing := rfl

theorem writeEvent (t : Word) (e f : Byte) (n : Half) (payload : List Byte) : Statement (.writeEvent t e f n payload) := by
  show (bytesOfWord t ++ [e] ++ [f] ++ bytesOfHalf n ++ payload).length + 1 = 1 + 8 + 1 + 1 + 2 + payload.length
  simp
  omega

theorem dropProducer : Statement .dropProducer := rfl

theorem readEvent : Statement .readEvent := rfl

theorem dropConsumer : Statement .dropConsumer := rfl

theorem headerSize : Statement .headerSize := rfl

theorem totalSize (n : Half) : Statement (.totalSize n) := by
  show (bytesOfHalf n).length + 1 = 1 + 2
  simp

theorem headerNew (t : Word) (e : Byte) (n : Half) : Statement (.headerNew t e n) := by
  show (bytesOfWord t ++ [e] ++ bytesOfHalf n).length + 1 = 1 + 8 + 1 + 2
  simp

theorem encodeHeader (t : Word) (e f : Byte) (n : Half) : Statement (.encodeHeader t e f n) := by
  show (bytesOfWord t ++ [e] ++ [f] ++ bytesOfHalf n).length + 1 = 1 + 8 + 1 + 1 + 2
  simp

theorem decodeHeader (header : HeaderBits) : Statement (.decodeHeader header) := by
  show (headerBytes header).length + 1 = 1 + 16
  simp

theorem used : Statement .used := rfl

theorem free : Statement .free := rfl

theorem isEmpty : Statement .isEmpty := rfl

theorem reservedCode (code : Byte) : Statement (.reservedCode code) := rfl

theorem frameHeader (t : Word) (e f : Byte) (n : Half) (r : Reserved) : Statement (.frameHeader t e f n r) := by
  show (leBytes 7 (t.toNat / 256) ++ [e] ++ [f] ++ bytesOfHalf n ++ bytesOfReserved r).length + 1 = 16
  simp

theorem rspOk (fields : OkFields) : Statement (.rspOk fields) := Nat.add_comm _ _

theorem rspNone : Statement .rspNone := rfl

theorem rspInvalidCapacity (capacity : Word) (reason : Reason) : Statement (.rspInvalidCapacity capacity reason) := by
  show (bytesOfWord capacity ++ [reason.code]).length + 1 = 1 + 8 + 1
  simp

theorem rspNotEnoughSpace (required available : Word) : Statement (.rspNotEnoughSpace required available) := by
  show (bytesOfWord required ++ bytesOfWord available).length + 1 = 1 + 8 + 8
  simp

theorem rspBadCommand (cmd : Byte) : Statement (.rspBadCommand cmd) := rfl

theorem reasonTooSmall : Statement .reasonTooSmall := rfl

theorem reasonNotPowerOfTwo : Statement .reasonNotPowerOfTwo := rfl

end Sys2Proof.Laws.EncodedLength
end

