-- ==== Sys2Proof/Machine/Text.lean ====
section
/-! DEFINITION. The line syntax of spec/30_encoding.md R116: an agent label, the mnemonic with its `name=value` operands, and the
expected response. It is a notation for requests and responses; no step reads it (log entry 22). -/

namespace Sys2Proof.Machine

/-- One hexadecimal digit. -/
def hexDigit (n : Nat) : String :=
  if n < 10 then toString n
  else if n = 10 then "A"
  else if n = 11 then "B"
  else if n = 12 then "C"
  else if n = 13 then "D"
  else if n = 14 then "E"
  else "F"

/-- A byte as a hexadecimal pair (00_scope.md R9). -/
def hexPair (b : Byte) : String := hexDigit (b.toNat / 16) ++ hexDigit (b.toNat % 16)

/-- Texts with a separator between them. -/
def joined (sep : String) : List String → String
  | [] => ""
  | [t] => t
  | t :: u :: rest => t ++ sep ++ joined sep (u :: rest)

/-- A byte sequence as hex pairs, lowest offset first (00_scope.md R9). -/
def hexText (bs : List Byte) : String := joined " " (bs.map hexPair)

/-- A payload: a bracketed list of byte values (R116). -/
def payloadText (bs : List Byte) : String := "[" ++ joined "," (bs.map fun b => toString b.toNat) ++ "]"

/-- `name=value`, the value in decimal (R116). -/
def named (name : String) (v : Nat) : String := name ++ "=" ++ toString v

/-- `mode` by its name (R110). -/
def Mode.text : Mode → String
  | .single => "SINGLE"
  | .spsc => "SPSC"

/-- The mnemonic and operands of a request (R110, R116); a reserved code stands as its number. The rows that are no requests have no
request text. -/
def requestText : Instr → Option String
  | .new mode capacity => some ("NEW mode=" ++ Mode.text mode ++ ", " ++ named "capacity" capacity.toNat)
  | .split => some "SPLIT"
  | .dropRing => some "DROP_RING"
  | .writeEvent t e f n payload =>
    some ("WRITE_EVENT " ++ named "ts" t.toNat ++ ", " ++ named "type" e.toNat ++ ", " ++ named "flags" f.toNat ++ ", " ++
      named "len" n.toNat ++ ", payload=" ++ payloadText payload)
  | .dropProducer => some "DROP_PRODUCER"
  | .readEvent => some "READ_EVENT"
  | .dropConsumer => some "DROP_CONSUMER"
  | .headerSize => some "HEADER_SIZE"
  | .totalSize n => some ("TOTAL_SIZE " ++ named "payload_len" n.toNat)
  | .headerNew t e n =>
    some ("HEADER_NEW " ++ named "timestamp" t.toNat ++ ", " ++ named "event_type" e.toNat ++ ", " ++ named "payload_len" n.toNat)
  | .encodeHeader t e f n =>
    some ("ENCODE_HEADER " ++ named "timestamp" t.toNat ++ ", " ++ named "event_type" e.toNat ++ ", " ++ named "flags" f.toNat ++
      ", " ++ named "payload_len" n.toNat)
  | .decodeHeader header => some ("DECODE_HEADER header=" ++ hexText (headerBytes header))
  | .used => some "USED"
  | .free => some "FREE"
  | .isEmpty => some "IS_EMPTY"
  | .reservedCode code => some ("0x" ++ hexPair code)
  | .frameHeader _ _ _ _ _ => none
  | .rspOk _ => none
  | .rspNone => none
  | .rspInvalidCapacity _ _ => none
  | .rspNotEnoughSpace _ _ => none
  | .rspBadCommand _ => none
  | .reasonTooSmall => none
  | .reasonNotPowerOfTwo => none

/-- The four meaningful fields of a header, as the responses of R116 and 40_framing.md show them. -/
def fieldsText (sep : String) (t : Word) (e f : Byte) (n : Half) : String :=
  joined sep [named "ts" t.toNat, named "type" e.toNat, named "flags" f.toNat, named "len" n.toNat]

/-- What follows `OK` (R116; the examples of 40_framing.md and 41_ring_ops.md). -/
def okText : OkFields → String
  | .empty => ""
  | .event h payload =>
    " hdr=(" ++ fieldsText "," (headerTimestamp h) (headerEventType h) (headerFlags h) (headerPayloadLen h) ++ ") payload=" ++
      payloadText payload
  | .size v => " " ++ named "size" v.toNat
  | .header t e f n => " (" ++ fieldsText ", " t e f n ++ ")"
  | .encoded h => " header=" ++ hexText (headerBytes h)
  | .decoded t e f n r => " (" ++ fieldsText ", " t e f n ++ ", reserved=" ++ hexText (leBytes 4 r.toNat) ++ ")"
  | .value v => " " ++ named "value" v.toNat
  | .bit b => " " ++ named "value" b.toNat

/-- A response (R111, R112, R116). -/
def responseText : Response → String
  | .ok fields => "OK" ++ okText fields
  | .none => "NONE"
  | .invalidCapacity capacity reason =>
    "INVALID_CAPACITY " ++ named "capacity" capacity.toNat ++ " reason=0x" ++ hexPair (Reason.code reason)
  | .notEnoughSpace required available => "NOT_ENOUGH_SPACE " ++ named "required" required.toNat ++ " " ++ named "available" available.toNat
  | .badCommand cmd => "BAD_COMMAND cmd=0x" ++ hexPair cmd

/-- The agent label (R116). -/
def Capability.label : Capability → String
  | .owner => "O: "
  | .producer => "P: "
  | .consumer => "C: "

/-- One line: label, request, expected response (R116). -/
def lineText (agent : Capability) (i : Instr) (r : Response) : Option String :=
  (requestText i).map fun t => agent.label ++ t ++ " -> " ++ responseText r

end Sys2Proof.Machine
end

