-- ==== Sys2Proof/Tests/Slice0.lean ====
section
/-! SUPPORT. The model's own tests. Expected values come from spec/95_test_vectors.md (the vector is named) or from the tables of
spec/30_encoding.md, worked by hand; the `witness_` theorems show that the hypotheses of each statement of
Certificates/Slice0/Obligations.lean can be met together, clause by clause. -/

namespace Sys2Proof.Tests

open Machine Safety

/-! ## Small states -/

/-- A ring of the given mode and capacity right after `NEW`, seen from a port. -/
def fresh (mode : Mode) (capacity : Word) (p : Port) : State := { State.reset.create mode capacity with port := p }

/-- A ring of mode `SINGLE` with these pointers and region. -/
def ringAt (capacity w r : Word) (m : Region) (p : Port) : State :=
  { fresh .single capacity p with writePos := w, readPos := r, published := r.toNat + (w - r).toNat, released := r.toNat, region := m }

/-- A 16-byte ring in phase `Split`. -/
def split16 (p : Port) (m : Region) (w : Word) (hw : List Word) (seen : Word) (seenAt : Nat) (x y : PortState) : State :=
  { fresh .spsc 16#64 p with
    phase := .split
    prodAlive := true
    consAlive := true
    region := m
    writePos := w
    published := w.toNat
    histW := hw
    cSeenW := seen
    cSeenAt := seenAt
    prod := x
    cons := y }

/-- The frame of the example of 42_spsc_ops.md R168: `ts=7, type=9, flags=1, len=0`. -/
def f0 : Frame := ⟨7#64, 9#8, 1#8, 0#16, []⟩

/-- Its bytes from offset 0 on, written out from R168. -/
def f0Region : Region :=
  [(0, 0x07), (1, 0x00), (2, 0x00), (3, 0x00), (4, 0x00), (5, 0x00), (6, 0x00), (7, 0x00), (8, 0x09), (9, 0x01), (10, 0x00),
   (11, 0x00), (12, 0x00), (13, 0x00), (14, 0x00), (15, 0x00)]

/-- An empty split ring; `x` and `y` are in progress on the two sides. -/
def splitEmpty (p : Port) (x y : PortState) : State := split16 p [] 0#64 [0#64] 0#64 0 x y

/-- `f0` is stored and not published. -/
def splitStored (p : Port) (x y : PortState) : State := split16 p f0Region 0#64 [0#64] 0#64 0 x y

/-- `f0` is published and the consumer side has seen it. -/
def splitFull (p : Port) (x y : PortState) : State := split16 p f0Region 16#64 [0#64, 16#64] 16#64 1 x y

/-- A full ring of mode `SINGLE`: `f0`. -/
def single16 (p : Port) : State := ringAt 16#64 16#64 0#64 f0Region p

/-- One input is to come. -/
def given (s : State) (x : Input) : State := { s with inbox := [x] }

/-! ## Well-formedness: each check refuses an ill-formed term -/

theorem test_wf_payload_length : (Instr.writeEvent 1#64 1#8 0#8 3#16 [0x01, 0x02]).wf = false := by decide

theorem test_wf_payload_length_ok : (Instr.writeEvent 1#64 1#8 0#8 2#16 [0x01, 0x02]).wf = true := by decide

theorem test_wf_reserved_code : (Instr.reservedCode 0x10#8).wf = false := by decide

theorem test_wf_response_payload : (Instr.rspOk (.event 0#128 [0x01])).wf = false := by decide

/-! ## Decoding: words written out from 30_encoding.md R100, R110, R111, R112 -/

/-- `req` of program P1, line 1. -/
theorem test_decode_new : decode .cmd [0x00, 0x00, 0x40, 0, 0, 0, 0, 0, 0, 0] = .ok (.new .single 64#64) := by decide

theorem test_decode_split : decode .cmd [0x01] = .ok .split := by decide

theorem test_decode_drop_ring : decode .cmd [0x02] = .ok .dropRing := by decide

/-- `req` of program P1, line 2. -/
theorem test_decode_write_event :
    decode .cmd [0x10, 0x64, 0, 0, 0, 0, 0, 0, 0, 0x01, 0x00, 0x03, 0x00, 1, 2, 3] =
      .ok (.writeEvent 100#64 1#8 0#8 3#16 [1, 2, 3]) := by decide

theorem test_decode_drop_producer : decode .cmd [0x11] = .ok .dropProducer := by decide

theorem test_decode_read_event : decode .cmd [0x20] = .ok .readEvent := by decide

theorem test_decode_drop_consumer : decode .cmd [0x21] = .ok .dropConsumer := by decide

theorem test_decode_header_size : decode .cmd [0x30] = .ok .headerSize := by decide

/-- `req` of program P5, line 6. -/
theorem test_decode_total_size : decode .cmd [0x31, 0xFF, 0xFF] = .ok (.totalSize 65535#16) := by decide

/-- `req` of program P3, line 7. -/
theorem test_decode_header_new :
    decode .cmd [0x32, 0x02, 0, 0, 0, 0, 0, 0, 0, 0x07, 0x01, 0x00] = .ok (.headerNew 2#64 7#8 1#16) := by decide

/-- `req` of program P5, line 4. -/
theorem test_decode_encode_header :
    decode .cmd [0x33, 8, 7, 6, 5, 4, 3, 2, 1, 0xAB, 0, 0, 0] = .ok (.encodeHeader 0x0102030405060708#64 0xAB#8 0#8 0#16) := by
  decide

/-- `req` of program P5, line 5. -/
theorem test_decode_decode_header :
    decode .cmd [0x34, 8, 7, 6, 5, 4, 3, 2, 1, 0xAB, 0, 0, 0, 0, 0, 0, 0] =
      .ok (.decodeHeader 0x000000000000000AB0102030405060708#128) := by
  decide

theorem test_decode_used : decode .cmd [0x40] = .ok .used := by decide

theorem test_decode_free : decode .cmd [0x41] = .ok .free := by decide

theorem test_decode_is_empty : decode .cmd [0x42] = .ok .isEmpty := by decide

theorem test_decode_reserved : decode .cmd [0x43] = .ok (.reservedCode 0x43#8) := by decide

/-- The header of T14. -/
theorem test_decode_header :
    decode .hdr [0, 0, 0, 0, 0, 0, 0, 0, 0, 0, 0, 0, 0xDE, 0xAD, 0xBE, 0xEF] =
      .ok (.frameHeader 0#64 0#8 0#8 0#16 0xEFBEADDE#32) := by decide

/-- `rsp` of program P1, line 5. -/
theorem test_decode_rsp_ok : decode (.rsp .value) [0x00, 0x39, 0, 0, 0, 0, 0, 0, 0] = .ok (.rspOk (.value 57#64)) := by decide

theorem test_decode_rsp_none : decode (.rsp .event) [0x01] = .ok .rspNone := by decide

/-- `rsp` of program P3, line 2. -/
theorem test_decode_rsp_invalid_capacity :
    decode (.rsp .empty) [0x02, 0x64, 0, 0, 0, 0, 0, 0, 0, 0x01] = .ok (.rspInvalidCapacity 100#64 .notPowerOfTwo) := by decide

/-- `rsp` of program P3, line 5. -/
theorem test_decode_rsp_not_enough_space :
    decode (.rsp .empty) [0x03, 0x24, 0, 0, 0, 0, 0, 0, 0, 0x20, 0, 0, 0, 0, 0, 0, 0] =
      .ok (.rspNotEnoughSpace 36#64 32#64) := by decide

/-- `rsp` of program P3, line 1. -/
theorem test_decode_rsp_bad_command : decode (.rsp .event) [0xFF, 0x20] = .ok (.rspBadCommand 0x20#8) := by decide

theorem test_decode_reason_too_small : decode .reason [0x00] = .ok .reasonTooSmall := by decide

theorem test_decode_reason_not_power_of_two : decode .reason [0x01] = .ok .reasonNotPowerOfTwo := by decide

/-- What is no request, response or header is rejected by name (log entry 2; R111, R112: reserved). -/
theorem test_decode_rejects :
    decode .cmd [] = .error .empty ∧ decode .cmd [0x31, 0x14] = .error .truncated ∧ decode .cmd [0x20, 0x00] = .error .trailing ∧
      decode .cmd [0x00, 0x02, 0x40, 0, 0, 0, 0, 0, 0, 0] = .error .badMode ∧ decode (.rsp .bit) [0x00, 0x02] = .error .badBit ∧
      decode (.rsp .empty) [0x04] = .error .reservedStatus ∧ decode .reason [0x02] = .error .reservedReason := by decide

/-! ## The framing functions -/

theorem test_header_size : exec .headerSize State.reset = .next (State.reset.post (.ok (.size 16#64))) := by rfl

/-- T4. -/
theorem test_total_size : exec (.totalSize 65535#16) State.reset = .next (State.reset.post (.ok (.size 65551#64))) := by rfl

/-- T6. -/
theorem test_header_new :
    exec (.headerNew 0xFFFFFFFFFFFFFFFF#64 0xFF#8 0xFFFF#16) State.reset =
      .next (State.reset.post (.ok (.header 0xFFFFFFFFFFFFFFFF#64 0xFF#8 0#8 65535#16))) := by rfl

/-- T10. -/
theorem test_encode_header :
    headerBytes (encodeHeader 1700000000123456789#64 0x42#8 0#8 258#16) =
      [0x15, 0xCD, 0x85, 0x3D, 0xFE, 0x9C, 0x97, 0x17, 0x42, 0x00, 0x02, 0x01, 0, 0, 0, 0] := by decide

/-- T11: `flags` is copied. -/
theorem test_encode_header_flags :
    exec (.encodeHeader 0#64 0#8 0x80#8 1#16) State.reset =
      .next (State.reset.post (.ok (.encoded 0x00000000000180000000000000000000#128))) := by rfl

/-- T12. -/
theorem test_decode_header_fields :
    exec (.decodeHeader (headerOfBytes [0x66, 0, 0, 0, 0, 0, 0, 0, 0x03, 0x00, 0x05, 0x00, 0, 0, 0, 0])) State.reset =
      .next (State.reset.post (.ok (.decoded 102#64 3#8 0#8 5#16 0#32))) := by rfl

/-- A code of no row, R113. -/
theorem test_reserved_code : exec (.reservedCode 0x03#8) State.reset = .next (State.reset.post (.badCommand 0x03#8)) := by rfl

/-! ## The life of the ring -/

/-- S5. -/
theorem test_new_not_power_of_two :
    exec (.new .single 100#64) State.reset = .next (State.reset.post (.invalidCapacity 100#64 .notPowerOfTwo)) := by rfl

/-- S5 and T22: "too small" comes first. -/
theorem test_new_too_small :
    exec (.new .single 8#64) State.reset = .next (State.reset.post (.invalidCapacity 8#64 .tooSmall)) ∧
      exec (.new .spsc 7#64) State.reset = .next (State.reset.post (.invalidCapacity 7#64 .tooSmall)) := ⟨by rfl, by rfl⟩

/-- `CONFIG` after `NEW` (T72, T23). -/
theorem test_config_after_new :
    (fresh .spsc 64#64 .cfg).config = 0x05#8 ∧ (fresh .single 16#64 .cfg).config = 0x01#8 ∧ State.reset.config = 0x00#8 := by decide

/-- T72: `SPLIT`. -/
theorem test_split :
    ∃ t, exec .split (fresh .spsc 64#64 .cfg) = .next t ∧ t.config = 0x1E#8 ∧ t.cfg = .responding (.ok .empty) :=
  ⟨_, rfl, by decide, rfl⟩

/-- T72: a second `SPLIT`. -/
theorem test_second_split : exec .split (splitEmpty .cfg .idle .idle) =
    .next ((splitEmpty .cfg .idle .idle).post (.badCommand 0x01#8)) := by rfl

/-- T74. -/
theorem test_drop_ring : ∃ t, exec .dropRing (fresh .spsc 64#64 .cfg) = .next t ∧ t.config = 0x00#8 :=
  ⟨_, rfl, if_pos rfl⟩

/-- T72: `DROP_RING` after the split. -/
theorem test_drop_ring_split : exec .dropRing (splitEmpty .cfg .idle .idle) =
    .next ((splitEmpty .cfg .idle .idle).post (.badCommand 0x02#8)) := by rfl

/-- T72: the producer goes first. -/
theorem test_drop_producer :
    ∃ t, exec .dropProducer (splitEmpty .prod .idle .idle) = .next t ∧ t.config = 0x16#8 ∧
      exec (.writeEvent 1#64 1#8 0#8 0#16 []) { t with prod := .idle } =
        .next ({ t with prod := .idle }.post (.badCommand 0x10#8)) :=
  ⟨_, rfl, by decide, by rfl⟩

/-- T73: the consumer goes first. -/
theorem test_drop_consumer : ∃ t, exec .dropConsumer (splitEmpty .cons .idle .idle) = .next t ∧ t.config = 0x0E#8 :=
  ⟨_, rfl, by decide⟩

/-! ## Writing, reading, asking -/

/-- S3. -/
theorem test_write_not_enough_space :
    exec (.writeEvent 1#64 1#8 0#8 20#16 (List.replicate 20 0x00)) (fresh .single 32#64 .prod) =
      .next ((fresh .single 32#64 .prod).post (.notEnoughSpace 36#64 32#64)) := by rfl

/-- S4: the fourth frame, 24 bytes from position 60 in a ring of 64, splits inside its header. -/
theorem test_write_across_wrap :
    ∃ t, exec (.writeEvent 4#64 0x14#8 0x80#8 8#16 [0xD1, 0xD2, 0xD3, 0xD4, 0xD5, 0xD6, 0xD7, 0xD8])
        (ringAt 64#64 60#64 36#64 [] .prod) = .next t ∧
      t.writePos = 84#64 ∧ t.prod = .responding (.ok .empty) ∧
      t.region = [(0, 0x00), (1, 0x00), (2, 0x00), (3, 0x00), (4, 0x14), (5, 0x80), (6, 0x08), (7, 0x00), (8, 0x00), (9, 0x00),
        (10, 0x00), (11, 0x00), (12, 0xD1), (13, 0xD2), (14, 0xD3), (15, 0xD4), (16, 0xD5), (17, 0xD6), (18, 0xD7), (19, 0xD8),
        (60, 0x04), (61, 0x00), (62, 0x00), (63, 0x00)] :=
  ⟨_, rfl, by decide, by decide, by decide⟩

/-- T42: the frame that fills the ring is read back, and the ring is empty. -/
theorem test_read :
    ∃ t, exec .readEvent (single16 .cons) = .next t ∧ t.readPos = 16#64 ∧
      t.cons = .responding (.ok (.event (headerOfBytes [0x07, 0, 0, 0, 0, 0, 0, 0, 0x09, 0x01, 0, 0, 0, 0, 0, 0]) [])) :=
  ⟨_, rfl, by decide, by decide⟩

/-- T42: reading an empty ring. -/
theorem test_read_none : exec .readEvent (fresh .single 16#64 .cons) = .next ((fresh .single 16#64 .cons).post .none) := by rfl

/-- T34: `used` across the wrap of the pointers. -/
theorem test_used : exec .used (ringAt 64#64 12#64 0xFFFFFFFFFFFFFFF8#64 [] .prod) =
    .next ((ringAt 64#64 12#64 0xFFFFFFFFFFFFFFF8#64 [] .prod).post (.ok (.value 20#64))) := by rfl

/-- The example of 41_ring_ops.md R149. -/
theorem test_free : exec .free (ringAt 64#64 57#64 0#64 [] .cons) =
    .next ((ringAt 64#64 57#64 0#64 [] .cons).post (.ok (.value 7#64))) := by rfl

/-- S4, at its end. -/
theorem test_is_empty : exec .isEmpty (ringAt 64#64 84#64 84#64 [] .cons) =
    .next ((ringAt 64#64 84#64 84#64 [] .cons).post (.ok (.bit true))) := by rfl

/-- T35, T36. -/
theorem test_region_wrap :
    (writeFrom 63#64 60#64 [1, 2, 3, 4, 5, 6] [] = [(0, 5), (1, 6), (60, 1), (61, 2), (62, 3), (63, 4)]) ∧
      (ringAt 64#64 0#64 0#64 [(0, 5), (1, 6), (60, 1), (61, 2), (62, 3), (63, 4)] .cfg).readFrom 60#64 6 = [1, 2, 3, 4, 5, 6] := by
  decide

/-- T32, T31. -/
theorem test_offsets :
    (fresh .single 64#64 .cfg).offsetOf 0xFFFFFFFFFFFFFFF8#64 = 56 ∧ (fresh .single 64#64 .cfg).offsetOf 84#64 = 20 := by decide

/-- The register bytes at the end of program P1. -/
theorem test_register_bytes :
    (ringAt 64#64 57#64 57#64 [] .cfg).regBytes .writePos = [0x39, 0, 0, 0, 0, 0, 0, 0] ∧
      (ringAt 64#64 57#64 57#64 [] .cfg).regByte 0x108 = some 0x3F#8 ∧ (ringAt 64#64 57#64 57#64 [] .cfg).regByte 0x010 = none := by
  decide

/-! ## Mode `SPSC`, step by step: the example of 42_spsc_ops.md R168 and R169 -/

theorem test_p2 : ∃ t, advance (splitEmpty .prod (.p2 f0 0#64) .idle) = .next t ∧ t.prod = .p3 f0 0#64 ∧
    t.events = [⟨.prod, .ownLoad .writePos 0#64⟩] := ⟨_, rfl, rfl, rfl⟩

theorem test_p3 : ∃ t, advance (splitEmpty .prod (.p3 f0 0#64) .idle) = .next t ∧ t.region = f0Region ∧ t.writePos = 0#64 :=
  ⟨_, rfl, by decide, rfl⟩

theorem test_p4 : ∃ t, advance (splitStored .prod (.p4 f0 0#64) .idle) = .next t ∧ t.writePos = 16#64 ∧
    t.histW = [0#64, 16#64] := ⟨_, rfl, by decide, by decide⟩

theorem test_c3 : ∃ t, advance (splitFull .cons .idle (.c3 16#64 0#64)) = .next t ∧
    t.cons = .c4 0#64 0x00000000000001090000000000000007#128 0#16 := ⟨_, rfl, by decide⟩

/-- The frame is not wholly present by the value C1 returned. -/
theorem test_frame_header_too_long : ∃ t, exec (.frameHeader 7#64 9#8 1#8 1#16 0#32) (splitFull .cons .idle (.c3 16#64 0#64)) = .next t ∧
    t.cons = .responding .none := ⟨_, rfl, by decide⟩

theorem test_c5 : ∃ t, advance (splitFull .cons .idle (.c5 0#64 f0.header 0#16 [])) = .next t ∧ t.readPos = 16#64 ∧
    t.histR = [0#64, 16#64] := ⟨_, rfl, by decide, by decide⟩

/-- A stale load: the history holds 0 and 16, the snapshot is 0, and draw 0 returns 0 (42_spsc_ops.md R169, example). -/
theorem test_stale_load :
    (acqLoadWritePos 0 (split16 .cons f0Region 16#64 [0#64, 16#64] 0#64 0 .idle .c1)).cSeenW = 0#64 ∧
      (acqLoadWritePos 1 (split16 .cons f0Region 16#64 [0#64, 16#64] 0#64 0 .idle .c1)).cSeenW = 16#64 := by decide

/-! ## Handing over -/

/-- S5: the response in its two parts. -/
theorem test_rsp_invalid_capacity :
    exec (.rspInvalidCapacity 8#64 .tooSmall) (State.reset.post (.invalidCapacity 8#64 .tooSmall)) =
      .next { State.reset with cfg := .reasonDue 8#64 .tooSmall } := by rfl

theorem test_reason_too_small :
    exec .reasonTooSmall { State.reset with cfg := .reasonDue 8#64 .tooSmall } =
      .next { State.reset with events := [⟨.cfg, .response (.invalidCapacity 8#64 .tooSmall)⟩] } := by rfl

theorem test_reason_not_power_of_two :
    exec .reasonNotPowerOfTwo { State.reset with cfg := .reasonDue 8#64 .tooSmall } = .refused .responseNotDue := by rfl

theorem test_rsp_ok : exec (.rspOk (.size 16#64)) (State.reset.post (.ok (.size 16#64))) =
    .next { State.reset with events := [⟨.cfg, .response (.ok (.size 16#64))⟩] } := by rfl

theorem test_rsp_bad_command : exec (.rspBadCommand 0x20#8) (State.reset.post (.badCommand 0x20#8)) =
    .next { State.reset with events := [⟨.cfg, .response (.badCommand 0x20#8)⟩] } := by rfl

/-! ## The line syntax: the example lines of 30_encoding.md R116, 40_framing.md R133, 41_ring_ops.md R140 -/

theorem test_line_new : lineText .owner (.new .single 64#64) (.ok .empty) = some "O: NEW mode=SINGLE, capacity=64 -> OK" := by rfl

theorem test_line_write :
    lineText .owner (.writeEvent 100#64 1#8 0#8 3#16 [1, 2, 3]) (.ok .empty) =
      some "O: WRITE_EVENT ts=100, type=1, flags=0, len=3, payload=[1,2,3] -> OK" := by rfl

theorem test_line_read :
    lineText .owner .readEvent (.ok (.event (encodeHeader 100#64 1#8 0#8 3#16) [1, 2, 3])) =
      some "O: READ_EVENT -> OK hdr=(ts=100,type=1,flags=0,len=3) payload=[1,2,3]" := by rfl

theorem test_line_errors :
    responseText (.invalidCapacity 100#64 .notPowerOfTwo) = "INVALID_CAPACITY capacity=100 reason=0x01" ∧
      responseText (.notEnoughSpace 36#64 32#64) = "NOT_ENOUGH_SPACE required=36 available=32" ∧
      responseText (.ok (.encoded (encodeHeader 0x0102030405060708#64 0xAB#8 0#8 0#16))) =
        "OK header=08 07 06 05 04 03 02 01 AB 00 00 00 00 00 00 00" := ⟨by rfl, by rfl, by rfl⟩

/-! ## Placing an instruction -/

/-- `NEW` with the operand fields the table gives no bits: capacity 0. -/
theorem test_with_fetch_word_new :
    ∃ t, step (State.reset.withFetchWord 8 0x00) = .next t ∧ t.cfg = .responding (.invalidCapacity 0#64 .tooSmall) :=
  ⟨_, rfl, by decide⟩

theorem test_with_fetch_word_header :
    ∃ t, step (State.reset.withFetchWord 128 0x00000000000001090000000000000007) = .next t ∧
      t.cons = .c4 0#64 0x00000000000001090000000000000007#128 0#16 :=
  ⟨_, rfl, by decide⟩

/-! ## Witnesses: the hypotheses of the statements can be met -/

/-- A 16-byte ring meets the invariant when these checks hold; `fs` are the frames it holds. -/
theorem built_inv {s : State} (fs : List Frame) (cap : s.capacity = 16#64) (mask : s.mask = 15#64) (used : s.used ≤ 16#64)
    (wf : Memory.wf s.region = true) (inside : ∀ c ∈ s.region, c.1 < 16) (agree : ∀ f ∈ fs, f.agrees = true)
    (unr : unread s = fs.flatMap Frame.bytes) (seed : s.regionSeed < s.freeCount)
    (whole : s.phase ≠ .split → s.prodAlive = false ∧ s.consAlive = false) (sp : s.phase = .split → s.mode = .spsc ∧ s.prodAlive = true)
    (fresh : s.phase = .whole → s.mode = .spsc → s.writePos = 0#64 ∧ s.readPos = 0#64)
    (hist : s.mode = .spsc → Histories s) (cfg : CfgOk s.cfg) (prod : ProdOk s s.prod) (cons : ConsOk s s.cons)
    (counts : Counts s) : BlockInv s where
  region_wf := wf
  geometry _ := ⟨⟨4, by omega, by simp [Config.kMax], by rw [cap]; rfl⟩, by rw [mask, cap]; rfl, by rw [cap]; exact used,
    by rw [cap]; exact inside⟩
  framed _ := ⟨fs, agree, unr⟩
  seed_used _ := seed
  split_spsc h := (sp h).1
  split_handle h := .inl (sp h).2
  whole_handles := whole
  unsplit_fresh := fresh
  histories _ := hist
  cfg_ok := cfg
  prod_ok := prod
  cons_ok := cons
  counts _ := counts

theorem reset_inv : BlockInv State.reset := by
  constructor <;> simp [State.reset, Memory.wf, Configured, CfgOk, ProdOk, ConsOk]

theorem fresh_inv (mode : Mode) (p : Port) : BlockInv (fresh mode 16#64 p) := by
  refine built_inv [] rfl rfl (by simp [fresh, State.create, State.used, usedOf]) rfl (by simp [fresh, State.create]) (by simp)
    (by simp [fresh, unread, State.create, State.used, usedOf, State.readFrom]) (by simp [fresh, State.create, State.reset])
    (fun _ => ⟨rfl, rfl⟩) (by simp [fresh, State.create]) (fun _ _ => ⟨rfl, rfl⟩) (fun _ => ?_) trivial trivial trivial
    (by constructor <;> simp [fresh, State.create, State.used, usedOf])
  constructor <;> simp [fresh, State.create]

theorem single16_inv (p : Port) : BlockInv (single16 p) := by
  refine built_inv [f0] rfl rfl (by cases p <;> decide) rfl (by cases p <;> decide) (by decide) (by cases p <;> decide) (by cases p <;> decide)
    (fun _ => ⟨rfl, rfl⟩) (by cases p <;> decide) (by cases p <;> decide) (fun h => nomatch h) trivial trivial trivial ⟨rfl, rfl⟩

/-- An empty ring of mode `SINGLE` that one frame has passed through. -/
theorem passed_inv : BlockInv (ringAt 16#64 16#64 16#64 f0Region .cfg) :=
  built_inv [] rfl rfl (by decide) rfl (by decide) nofun (by decide) (by decide) (fun _ => ⟨rfl, rfl⟩) nofun nofun nofun trivial trivial
    trivial ⟨rfl, rfl⟩

/-- The histories of the split rings. -/
theorem split16_hist {p m w hw seen seenAt x y} (h : (split16 p m w hw seen seenAt x y).histW.getLast? = some w ∧
    hw[seenAt]? = some seen ∧ (hw.drop seenAt).Pairwise (fun a b => a - seen ≤ b - seen) ∧ w ≤ 16#64 ∧ seen ≤ w) :
    Histories (split16 p m w hw seen seenAt x y) := by
  obtain ⟨h1, h2, h3, h4, h5⟩ := h
  constructor <;> simp_all [split16, fresh, State.create, State.reset]
  exact Nat.zero_le _

/-- What such a ring holds does not depend on what is in progress. -/
theorem unread_split16 (p m w hw seen seenAt x y) :
    unread (split16 p m w hw seen seenAt x y) = unread (ringAt 16#64 w 0#64 m .cfg) :=
  State.readFrom_eq (s := ringAt 16#64 w 0#64 m .cfg) (t := split16 p m w hw seen seenAt x y) rfl rfl rfl _ _

theorem splitEmpty_inv (p : Port) (x y : PortState) (hx : ProdOk (splitEmpty p x y) x) (hy : ConsOk (splitEmpty p x y) y) :
    BlockInv (splitEmpty p x y) := by
  refine built_inv [] rfl rfl (by show (0#64 - 0#64 : Word) ≤ 16#64; decide) rfl (by simp [splitEmpty, split16]) (by simp)
    ((unread_split16 ..).trans (by decide))
    (by show 0 < 1; decide) (fun h => absurd rfl h) (fun _ => ⟨rfl, rfl⟩) (fun h => nomatch h) (fun _ => split16_hist ?_) trivial hx hy
    ⟨rfl, by show (0 : Nat) = 0 + (0#64 - 0#64 : Word).toNat; decide⟩
  exact ⟨rfl, rfl, by decide, by decide, by decide⟩

theorem splitStored_inv (p : Port) (x y : PortState) (hx : ProdOk (splitStored p x y) x) (hy : ConsOk (splitStored p x y) y) :
    BlockInv (splitStored p x y) := by
  refine built_inv [] rfl rfl (by show (0#64 - 0#64 : Word) ≤ 16#64; decide) rfl (by show ∀ c ∈ f0Region, c.1 < 16; decide) (by simp)
    ((unread_split16 ..).trans (by decide))
    (by show 0 < 1; decide) (fun h => absurd rfl h) (fun _ => ⟨rfl, rfl⟩) (fun h => nomatch h) (fun _ => split16_hist ?_) trivial hx hy
    ⟨rfl, by show (0 : Nat) = 0 + (0#64 - 0#64 : Word).toNat; decide⟩
  exact ⟨rfl, rfl, by decide, by decide, by decide⟩

theorem splitFull_inv (p : Port) (x y : PortState) (hx : ProdOk (splitFull p x y) x) (hy : ConsOk (splitFull p x y) y) :
    BlockInv (splitFull p x y) := by
  refine built_inv [f0] rfl rfl (by show (16#64 - 0#64 : Word) ≤ 16#64; decide) rfl (by show ∀ c ∈ f0Region, c.1 < 16; decide) (by decide)
    ((unread_split16 ..).trans (by decide))
    (by show 0 < 1; decide) (fun h => absurd rfl h) (fun _ => ⟨rfl, rfl⟩) (fun h => nomatch h) (fun _ => split16_hist ?_) trivial hx hy
    ⟨rfl, by show (16#64 : Word).toNat = 0 + (16#64 - 0#64 : Word).toNat; decide⟩
  exact ⟨rfl, rfl, by decide, by decide, by decide⟩

theorem given_inv {s : State} (hi : BlockInv s) (x : Input) : BlockInv (given s x) := inv_at hi s.port [x]

/-- An operation at its step P3, and the same with the input that does the step. -/
theorem p3_inv : BlockInv (splitEmpty .prod (.p3 f0 0#64) .idle) :=
  splitEmpty_inv _ _ _ ⟨rfl, rfl, rfl, rfl, by decide⟩ trivial

theorem p1_inv : BlockInv (splitEmpty .prod (.p1 f0) .idle) := splitEmpty_inv _ _ _ ⟨rfl, rfl, rfl⟩ trivial

theorem p4_inv : BlockInv (splitStored .prod (.p4 f0 0#64) .idle) :=
  splitStored_inv _ _ _ ⟨rfl, rfl, rfl, rfl, by decide, by decide⟩ trivial

/-- A write that will not fit. -/
theorem p2_full_inv : BlockInv (splitFull .prod (.p2 f0 0#64) .idle) := splitFull_inv _ _ _ ⟨rfl, rfl, rfl, rfl⟩ trivial

theorem c1_inv : BlockInv (splitEmpty .cons .idle .c1) := splitEmpty_inv _ _ _ trivial ⟨rfl, rfl⟩

theorem c2_empty_inv : BlockInv (splitEmpty .cons .idle (.c2 0#64)) := splitEmpty_inv _ _ _ trivial ⟨rfl, rfl, rfl⟩

theorem c3_inv : BlockInv (splitFull .cons .idle (.c3 16#64 0#64)) :=
  splitFull_inv _ _ _ trivial ⟨rfl, rfl, rfl, rfl, by decide⟩

theorem c5_inv : BlockInv (splitFull .cons .idle (.c5 0#64 f0.header 0#16 [])) :=
  splitFull_inv _ _ _ trivial ⟨rfl, rfl, rfl, by decide, by decide, by decide, rfl⟩

theorem q2_inv (q : Query) : BlockInv (splitFull .cons .idle (.q2 q 16#64)) := splitFull_inv _ _ _ trivial ⟨rfl, rfl⟩

/-- StepKeepsInvariant, StepStopsOnlyOnBrokenRulesOfUse, StepKeepsRegionCanonical, OnlyTheOwnersPortWrites: a step that stores. -/
theorem witness_step :
    ∃ s t : State, BlockInv s ∧ Configured s ∧ Memory.wf s.region = true ∧ step s = .next t ∧ Configured t ∧ s.region = [] ∧ t.region = f0Region :=
  ⟨_, _, given_inv p3_inv (.advance .prod), nofun, rfl, rfl, nofun, rfl, by decide⟩

theorem witness_StepKeepsOneResponsePerRequest :
    ∃ s t : State, Balanced s ∧ step s = .next t ∧ t.events.length = 1 :=
  ⟨given State.reset (.request .cfg [0x30]), _, by intro p; cases p <;> decide, rfl, rfl⟩

theorem witness_StepRunsDecodedRequest :
    ∃ (s : State) (p : Port) (rest : List Input) (i : Instr), s.inbox = .request p [0x30] :: rest ∧ s.ready p = true ∧ decode .cmd [0x30] = .ok i ∧ decode .cmd [] = .error .empty :=
  ⟨given State.reset (.request .cfg [0x30]), .cfg, [], .headerSize, rfl, rfl, rfl, rfl⟩

/-- All three clauses; the first in mode `SINGLE` and outside it. -/
theorem witness_RequestsWaitForResponses :
    (∃ (s : State) (i : Instr), s.inbox = [.request .cons [0x20]] ∧ decode .cmd [0x20] = .ok i ∧ s.phase = .whole ∧ s.mode = .single ∧
      ∀ q, s.portState q = .idle) ∧
    (∃ s : State, s.inbox = [.request .cons [0x20]] ∧ ¬ (s.phase = .whole ∧ s.mode = .single) ∧ s.portState .prod ≠ .idle ∧
      s.portState .cons = .idle) ∧
    (∃ s : State, s.inbox = [.request .cons [0x20]] ∧ s.phase = .whole ∧ s.mode = .single ∧ s.portState .prod ≠ .idle) ∧
    (∃ s : State, s.inbox = [.request .prod [0x20]] ∧ ¬ (s.phase = .whole ∧ s.mode = .single) ∧ s.portState .prod ≠ .idle) :=
  ⟨⟨given (fresh .single 16#64 .cfg) (.request .cons [0x20]), .readEvent, rfl, rfl, rfl, rfl, by intro q; cases q <;> rfl⟩,
    ⟨given (splitEmpty .cfg (.p1 f0) .idle) (.request .cons [0x20]), rfl, by decide, by decide, by decide⟩,
    ⟨{ given (fresh .single 16#64 .cfg) (.request .cons [0x20]) with prod := .responding .none }, rfl, rfl, rfl, by decide⟩,
    ⟨given (splitEmpty .cfg (.p1 f0) .idle) (.request .prod [0x20]), rfl, by decide, by decide⟩⟩

/-- Every clause: whatever a port is doing. -/
theorem witness_StepAdvancesPort (x : PortState) :
    ∃ (s : State) (rest : List Input), s.inbox = .advance .cons :: rest ∧ s.portState .cons = x ∧ 16 ≤ s.capacity.toNat :=
  ⟨given (splitEmpty .cons .idle x) (.advance .cons), [], rfl, rfl, by show 16 ≤ (16#64 : Word).toNat; decide⟩

theorem witness_DecodeOfEncode : ∃ i : Instr, i.wf = true ∧ i = .writeEvent 1#64 1#8 0#8 2#16 [0x01, 0x02] := ⟨_, rfl, rfl⟩

theorem witness_EveryHeaderDecodes : ∃ bs cs : List Byte, bs.length = 16 ∧ cs.length = 15 := ⟨List.replicate 16 0xFF, List.replicate 15 0, rfl, rfl⟩

theorem witness_IllegalCommandAnswersBadCommand :
    (∃ i : Instr, i.format = .cmd ∧ ¬ Legal i State.reset ∧ i.code = 0x20#8) ∧ commandCodes.contains 0x03#8 = false ∧
      commandCodes.contains 0xFF#8 = false :=
  ⟨⟨.readEvent, rfl, by simp [Legal, State.reset], rfl⟩, by decide, by decide⟩

/-- The two clauses; of the second, every step that posts a response. -/
theorem witness_CommandsAnswerTheirStatuses :
    (∃ t r, Instr.headerSize.format = .cmd ∧ exec .headerSize State.reset = .next t ∧ t.portState .cfg = .responding r) ∧
    (∃ (s t : State) (q a : Word), BlockInv s ∧ s.prod = .p2 f0 0#64 ∧ advance s = .next t ∧ t.prod = .responding (.notEnoughSpace q a)) ∧
    (∃ s t : State, BlockInv s ∧ s.prod = .p4 f0 0#64 ∧ advance s = .next t ∧ t.prod = .responding (.ok .empty)) ∧
    (∃ s t : State, BlockInv s ∧ s.cons = .c2 0#64 ∧ advance s = .next t ∧ t.cons = .responding .none) ∧
    (∃ (s t : State) (h : HeaderBits) (p : List Byte), BlockInv s ∧ s.cons = .c5 0#64 h 0#16 p ∧ advance s = .next t ∧ t.cons = .responding (.ok (.event h p))) ∧
    (∃ s t : State, BlockInv s ∧ s.cons = .q2 .used 16#64 ∧ advance s = .next t ∧ t.cons = .responding (.ok (.value 16#64))) ∧
    (∃ s t : State, BlockInv s ∧ s.cons = .q2 .isEmpty 16#64 ∧ advance s = .next t ∧ t.cons = .responding (.ok (.bit false))) :=
  ⟨⟨_, _, rfl, rfl, rfl⟩, ⟨_, _, _, _, p2_full_inv, rfl, rfl, rfl⟩, ⟨_, _, p4_inv, rfl, rfl, rfl⟩, ⟨_, _, c2_empty_inv, rfl, rfl, rfl⟩,
    ⟨_, _, _, _, c5_inv, rfl, rfl, rfl⟩, ⟨_, _, q2_inv .used, rfl, rfl, by decide⟩, ⟨_, _, q2_inv .isEmpty, rfl, rfl, by decide⟩⟩

theorem witness_ErrorResponsesChangeNothing :
    (∃ t, Instr.readEvent.format = .cmd ∧ exec .readEvent State.reset = .next t ∧ t.cfg = .responding (.badCommand 0x20#8)) ∧
    (∃ (s t : State) (q a : Word), advance s = .next t ∧ 0 < stepsLeft (s.portState s.port) ∧ t.portState s.port = .responding (.notEnoughSpace q a)) :=
  ⟨⟨_, rfl, rfl, rfl⟩, ⟨splitFull .prod (.p2 f0 0#64) .idle, _, _, _, rfl, by decide, rfl⟩⟩

/-- The first, second and fourth clause; the third can be met exactly when `K_MAX` is below 63 (93 U8). -/
theorem witness_NewCreatesRing :
    (State.reset.port = .cfg ∧ State.reset.phase = .unconfigured ∧ 15#64 < 16#64) ∧
    (16#64 ≤ 17#64 ∧ 17#64 &&& (17#64 - 1#64) ≠ 0#64) ∧
    (Config.kMax < 63 → ∃ c : Word, 16#64 ≤ c ∧ c &&& (c - 1#64) = 0#64 ∧ 2 ^ Config.kMax < c.toNat) ∧
    (16#64 ≤ 16#64 ∧ 16#64 &&& (16#64 - 1#64) = 0#64 ∧ (16#64).toNat ≤ 2 ^ Config.kMax) := by
  refine ⟨by decide, by decide, fun h => ⟨0x8000000000000000#64, by decide, by decide, ?_⟩, by decide, by decide, ?_⟩
  · exact Nat.pow_lt_pow_right (n := 63) (by omega) h
  · exact Nat.pow_le_pow_right (n := 2) (i := 4) (by omega) (by simp [Config.kMax])

theorem witness_SplitMakesBothHandles :
    (∃ s : State, s.port = .cfg ∧ s.phase = .whole ∧ s.mode = .spsc ∧ BlockInv s) ∧ (splitEmpty .cfg .idle .idle).phase = .split ∧
      (fresh .single 16#64 .cfg).mode = .single := ⟨⟨_, rfl, rfl, rfl, fresh_inv .spsc .cfg⟩, rfl, rfl⟩

theorem witness_DropRingEndsTheRing :
    ∃ (s t : State) (i : Instr), s.port = .cfg ∧ s.phase = .whole ∧ t.phase = .unconfigured ∧ Legal i { t with port := .cons } :=
  ⟨fresh .single 16#64 .cfg, State.reset, .headerSize, rfl, rfl, rfl, trivial⟩

/-- Each drop first and second, and the ports of dropped handles. -/
theorem witness_DropsEndTheHandles :
    (∃ s : State, s.port = .prod ∧ s.phase = .split ∧ s.prodAlive = true ∧ s.consAlive = true) ∧
    (∃ s : State, s.port = .prod ∧ s.phase = .split ∧ s.prodAlive = true ∧ s.consAlive = false ∧ BlockInv s) ∧
    (∃ s : State, s.port = .cons ∧ s.phase = .split ∧ s.consAlive = true ∧ s.prodAlive = true) ∧
    (∃ s : State, s.port = .cons ∧ s.phase = .split ∧ s.consAlive = true ∧ s.prodAlive = false ∧ BlockInv s) ∧
    (∃ s : State, s.phase = .split ∧ s.port = .prod ∧ s.prodAlive = false ∧ Legal .headerSize s) ∧
    (∃ s : State, s.phase = .split ∧ s.port = .cons ∧ s.consAlive = false ∧ Instr.format .readEvent = .cmd) ∧
    (∃ s : State, s.phase = .unconfigured ∧ s.port = .prod ∧ s.prodAlive = false ∧ Instr.format .dropProducer = .cmd) :=
  ⟨⟨splitEmpty .prod .idle .idle, rfl, rfl, rfl, rfl⟩,
    ⟨_, rfl, rfl, rfl, rfl, drop2_inv (splitEmpty_inv .prod .idle .idle trivial trivial) rfl rfl trivial⟩,
    ⟨splitEmpty .cons .idle .idle, rfl, rfl, rfl, rfl⟩,
    ⟨_, rfl, rfl, rfl, rfl, drop1_inv (splitEmpty_inv .cons .idle .idle trivial trivial) rfl rfl trivial⟩,
    ⟨{ splitEmpty .prod .idle .idle with prodAlive := false }, rfl, rfl, rfl, trivial⟩,
    ⟨{ splitEmpty .cons .idle .idle with consAlive := false }, rfl, rfl, rfl, rfl⟩,
    ⟨{ State.reset with port := .prod }, rfl, rfl, rfl, rfl⟩⟩

theorem beyond16 : beyondInstance 16#64 = false := by
  have := Nat.pow_le_pow_right (n := 2) (i := 4) (j := Config.kMax) (by omega) (by simp [Config.kMax])
  simpa [beyondInstance] using this

theorem new16 : exec (.new .spsc 16#64) State.reset = .next ((State.reset.create .spsc 16#64).post (.ok .empty)) := by
  have h : exec (.new .spsc 16#64) State.reset = newRing .spsc 16#64 State.reset := rfl
  rw [h]
  simp only [newRing, beyond16]
  rfl

theorem witness_CapabilitiesComeAndGo :
    (∃ t, exec (.new .spsc 16#64) State.reset = .next t ∧ t.phase = .whole ∧ State.reset.phase = .unconfigured) ∧
    (∃ s t : State, s.phase = .whole ∧ exec .split s = .next t ∧ t.phase = .split) ∧
    (∃ s t : State, s.exists_ .producer = true ∧ s.port = .prod ∧ exec .dropProducer s = .next t) ∧
    (∃ s t : State, s.exists_ .consumer = true ∧ s.port = .cons ∧ exec .dropConsumer s = .next t) ∧
    (∃ s : State, BlockInv s ∧ s.exists_ .owner = false) :=
  ⟨⟨_, new16, rfl, rfl⟩, ⟨fresh .spsc 16#64 .cfg, _, rfl, rfl, rfl⟩, ⟨splitEmpty .prod .idle .idle, _, rfl, rfl, rfl⟩,
    ⟨splitEmpty .cons .idle .idle, _, rfl, rfl, rfl⟩, ⟨_, splitEmpty_inv .cfg .idle .idle trivial trivial, rfl⟩⟩

theorem witness_DecodeHeaderReadsTheFields : ∃ bs : List Byte, bs.length = 16 := ⟨List.replicate 16 0xFF, rfl⟩

theorem single_geometry (p : Port) : Geometry (single16 p) := (single16_inv p).geometry nofun

theorem fresh_geometry (mode : Mode) (p : Port) : Geometry (fresh mode 16#64 p) := (fresh_inv mode p).geometry nofun

/-- Refused, full, and a frame that fits exactly. -/
theorem witness_WriteEventSingle :
    (Geometry (single16 .prod) ∧ (single16 .prod).port = .prod ∧ (single16 .prod).phase = .whole ∧ (single16 .prod).mode = .single) ∧
    (1#16).toNat ≠ ([] : List Byte).length ∧
    ((0#16).toNat = ([] : List Byte).length ∧ (single16 .prod).free.toNat < 16 + ([] : List Byte).length) ∧
    (Geometry (fresh .single 16#64 .prod) ∧ (fresh .single 16#64 .prod).phase = .whole ∧ (fresh .single 16#64 .prod).mode = .single ∧
      16 + ([] : List Byte).length ≤ (fresh .single 16#64 .prod).free.toNat) :=
  ⟨⟨single_geometry _, rfl, rfl, rfl⟩, by decide, ⟨rfl, by decide⟩, fresh_geometry _ _, rfl, rfl, by decide⟩

theorem witness_MismatchedPayloadIsRefused :
    Legal (.writeEvent 1#64 1#8 0#8 3#16 []) (fresh .single 16#64 .prod) ∧ Legal (.writeEvent 1#64 1#8 0#8 3#16 []) (splitEmpty .prod .idle .idle) ∧
      (3#16).toNat ≠ ([] : List Byte).length := ⟨⟨rfl, .inl ⟨rfl, rfl⟩⟩, ⟨rfl, .inr ⟨rfl, rfl⟩⟩, by decide⟩

/-- A header whose frame is not wholly there: `payload_len` 1 in a ring of 16. -/
def cutRegion : Region := Region.set f0Region 10 0x01

/-- Empty, cut short, whole. -/
theorem witness_ReadEventSingle :
    (Geometry (fresh .single 16#64 .cons) ∧ (fresh .single 16#64 .cons).used.toNat < 16) ∧
    (∃ s : State, Geometry s ∧ s.port = .cons ∧ s.phase = .whole ∧ s.mode = .single ∧ 16 ≤ s.used.toNat ∧
      s.used.toNat < 16 + fromLe (((s.readFrom s.readPos 16).drop 10).take 2)) ∧
    (∃ s : State, Geometry s ∧ s.port = .cons ∧ s.phase = .whole ∧ s.mode = .single ∧ 16 ≤ s.used.toNat ∧
      16 + fromLe (((s.readFrom s.readPos 16).drop 10).take 2) ≤ s.used.toNat) :=
  ⟨⟨fresh_geometry _ _, by decide⟩,
    ⟨ringAt 16#64 16#64 0#64 cutRegion .cons, ⟨⟨4, by omega, by simp [Config.kMax], rfl⟩, rfl, by decide, by decide⟩, rfl, rfl, rfl,
      by decide, by decide⟩,
    ⟨single16 .cons, single_geometry _, rfl, rfl, rfl, by decide, by decide⟩⟩

theorem witness_StatusQueriesSingle :
    (single16 .prod).port = .prod ∧ (single16 .cons).port = .cons ∧ (single16 .cons).phase = .whole ∧ (single16 .cons).mode = .single :=
  ⟨rfl, rfl, rfl, rfl⟩

theorem single_holds (p : Port) : Holds (single16 p) [f0] := by cases p <;> exact ⟨by decide, by decide⟩

theorem fresh_holds (mode : Mode) (p : Port) : Holds (fresh mode 16#64 p) [] := by cases p <;> cases mode <;> exact ⟨nofun, by decide⟩

theorem witness_SpaceIsExact :
    (BlockInv (single16 .prod) ∧ Configured (single16 .prod) ∧ Holds (single16 .prod) [f0] ∧ (single16 .prod).port = .prod ∧
      (single16 .prod).phase = .whole ∧ (single16 .prod).mode = .single ∧ f0.agrees = true) ∧
    (BlockInv (fresh .single 16#64 .prod) ∧ Holds (fresh .single 16#64 .prod) [] ∧ f0.need.toNat ≤ 16 - totalSize []) :=
  ⟨⟨single16_inv _, nofun, single_holds _, rfl, rfl, rfl, rfl⟩, fresh_inv _ _, fresh_holds _ _, by decide⟩

/-- A write that fills the ring, a read of what it holds, a read of an empty one. -/
theorem witness_RingIsAQueueOfFrames :
    (BlockInv (fresh .single 16#64 .prod) ∧ Holds (fresh .single 16#64 .prod) [] ∧ f0.agrees = true ∧ totalSize [] + f0.need.toNat ≤ 16) ∧
    (BlockInv (single16 .cons) ∧ Holds (single16 .cons) [f0] ∧ (single16 .cons).port = .cons) ∧
    (BlockInv (fresh .single 16#64 .cons) ∧ Holds (fresh .single 16#64 .cons) []) :=
  ⟨⟨fresh_inv _ _, fresh_holds _ _, rfl, by decide⟩, ⟨single16_inv _, single_holds _, rfl⟩, fresh_inv _ _, fresh_holds _ _⟩

/-- An empty ring whose pointers do not stand at 0. -/
theorem witness_FifoRoundTrip :
    ∃ s : State, BlockInv s ∧ s.phase = .whole ∧ s.mode = .single ∧ s.writePos = 16#64 ∧ s.writePos = s.readPos ∧
      (∀ f ∈ [f0], f.agrees = true) ∧ totalSize [f0] ≤ s.capacity.toNat :=
  ⟨_, passed_inv, rfl, rfl, rfl, rfl, by decide, by decide⟩

theorem witness_PseudoOperationsExpand :
    ([0xAA] : List Byte).length < 65536 ∧ BlockInv (single16 .cons) ∧ Holds (single16 .cons) [f0] ∧ (single16 .cons).port = .cons ∧
      (single16 .cons).phase = .whole ∧ (single16 .cons).mode = .single :=
  ⟨by decide, single16_inv _, single_holds _, rfl, rfl, rfl⟩

/-- As long as the region, and one byte longer. -/
theorem witness_MemWriteStoresByteByByte :
    Geometry (fresh .single 16#64 .prod) ∧ (List.replicate 16 (0xFF : Byte)).length ≤ (fresh .single 16#64 .prod).capacity.toNat ∧
      (fresh .single 16#64 .prod).capacity.toNat < (List.replicate 17 (0xFF : Byte)).length :=
  ⟨fresh_geometry _ _, by decide, by decide⟩

theorem witness_ReadAfterWrite :
    ∃ t, Geometry (fresh .single 16#64 .prod) ∧ memWrite 14#64 [1, 2, 3, 4] (fresh .single 16#64 .prod) = .ok t ∧ SameBytes t t ∧
      t.mask = 15#64 ∧ t.capacity = 16#64 := ⟨_, fresh_geometry _ _, rfl, fun _ => rfl, rfl, rfl⟩

theorem witness_ReadsAndEmptyAccessesChangeNothing : 16 ≤ (fresh .single 16#64 .prod).capacity.toNat := by decide

theorem witness_OffsetsRepeatWithCapacity : Geometry (fresh .single 16#64 .prod) ∧ 3 < 18 ∧ 18 < 3 + (fresh .single 16#64 .prod).capacity.toNat :=
  ⟨fresh_geometry _ _, by omega, by decide⟩

/-- Each configuration of the `CONFIG` table; the offset ranges meet at 0x007, 0x008, 0x07F, 0x087, 0x088, 0x0FF, 0x107, 0x10F, 0x111. -/
theorem witness_RegisterBlock :
    (∃ s : State, BlockInv s ∧ s.phase = .unconfigured) ∧ (∃ s : State, BlockInv s ∧ s.phase = .whole ∧ s.mode = .single) ∧
    (∃ s : State, BlockInv s ∧ s.phase = .whole ∧ s.mode = .spsc) ∧
    (∃ s : State, BlockInv s ∧ s.phase = .split ∧ s.prodAlive = true ∧ s.consAlive = true) ∧
    (∃ s : State, BlockInv s ∧ s.phase = .split ∧ s.prodAlive = false) ∧
    (∃ s : State, BlockInv s ∧ s.phase = .split ∧ s.prodAlive = true ∧ s.consAlive = false) :=
  have h := splitEmpty_inv .cfg .idle .idle trivial trivial
  ⟨⟨_, reset_inv, rfl⟩, ⟨_, fresh_inv .single .cfg, rfl, rfl⟩, ⟨_, fresh_inv .spsc .cfg, rfl, rfl⟩, ⟨_, h, rfl, rfl, rfl⟩,
    ⟨_, drop1_inv h rfl rfl trivial, rfl, rfl⟩, ⟨_, drop2_inv h rfl rfl trivial, rfl, rfl, rfl⟩⟩

theorem witness_AcquireLoadsDrawFromTheHistory :
    (splitEmpty .prod .idle .idle).pSeenAt < (splitEmpty .prod .idle .idle).histR.length ∧
      (splitEmpty .cons .idle .idle).cSeenAt < (splitEmpty .cons .idle .idle).histW.length := by decide

theorem witness_OwnersLoadWhatTheyStored : Histories (splitFull .prod .idle .idle) :=
  split16_hist ⟨rfl, rfl, by decide, by decide, by decide⟩

theorem witness_SplitRequestsStartTheProtocol :
    ((splitEmpty .prod .idle .idle).port = .prod ∧ (splitEmpty .prod .idle .idle).phase = .split ∧
      (splitEmpty .prod .idle .idle).prodAlive = true ∧ (2#16).toNat = ([0x01, 0x02] : List Byte).length) ∧
    ((splitEmpty .cons .idle .idle).port = .cons ∧ (splitEmpty .cons .idle .idle).phase = .split ∧
      (splitEmpty .cons .idle .idle).consAlive = true) := ⟨⟨rfl, rfl, rfl, rfl⟩, rfl, rfl, rfl⟩

/-- P1, and P2 with a frame that fits exactly and one that does not. -/
theorem witness_WriteLoadsAndTests :
    (∃ s : State, s.port = .prod ∧ s.prod = .p1 f0 ∧ s.pSeenAt < s.histR.length) ∧
    (∃ s : State, s.port = .prod ∧ s.prod = .p2 f0 0#64 ∧ f0.need ≤ s.capacity - (s.writePos - 0#64)) ∧
    (∃ s : State, s.port = .prod ∧ s.prod = .p2 f0 0#64 ∧ s.capacity - (s.writePos - 0#64) < f0.need) :=
  ⟨⟨splitEmpty .prod (.p1 f0) .idle, rfl, rfl, by decide⟩, ⟨splitEmpty .prod (.p2 f0 0#64) .idle, rfl, rfl, by decide⟩,
    ⟨splitFull .prod (.p2 f0 0#64) .idle, rfl, rfl, by decide⟩⟩

theorem witness_WriteStoresAndPublishes :
    (∃ s : State, Geometry s ∧ s.port = .prod ∧ s.prod = .p3 f0 0#64 ∧ f0.bytes.length ≤ s.capacity.toNat) ∧
    (∃ s : State, s.port = .prod ∧ s.prod = .p4 f0 0#64) :=
  ⟨⟨_, p3_inv.geometry nofun, rfl, rfl, by decide⟩, splitStored .prod (.p4 f0 0#64) .idle, rfl, rfl⟩

/-- C1, and C2 with nothing and with a frame to read. -/
theorem witness_ReadLoadsAndTests :
    (∃ s : State, s.port = .cons ∧ s.cons = .c1 ∧ s.cSeenAt < s.histW.length) ∧
    (∃ s : State, s.port = .cons ∧ s.cons = .c2 0#64 ∧ 0#64 - s.readPos < 16#64) ∧
    (∃ s : State, s.port = .cons ∧ s.cons = .c2 16#64 ∧ 16#64 ≤ 16#64 - s.readPos) :=
  ⟨⟨splitEmpty .cons .idle .c1, rfl, rfl, by decide⟩, ⟨splitEmpty .cons .idle (.c2 0#64), rfl, rfl, by decide⟩,
    ⟨splitFull .cons .idle (.c2 16#64), rfl, rfl, by decide⟩⟩

/-- A frame of 16 bytes is wholly present, one of 17 is not. -/
theorem witness_FrameHeaderSaysHowFarToRead :
    (∃ s : State, s.portState s.port = .c3 16#64 0#64) ∧ 16 + (0#16).toNat ≤ (16#64 - 0#64).toNat ∧
      (16#64 - 0#64).toNat < 16 + (1#16).toNat := ⟨⟨splitFull .cons .idle (.c3 16#64 0#64), rfl⟩, by decide, by decide⟩

theorem witness_ReadCopiesAndReleases :
    (∃ s : State, s.port = .cons ∧ s.cons = .c4 0#64 f0.header 0#16 ∧ (0#16).toNat ≤ s.capacity.toNat) ∧
    (∃ s : State, s.port = .cons ∧ s.cons = .c5 0#64 f0.header 0#16 []) :=
  ⟨⟨splitFull .cons .idle (.c4 0#64 f0.header 0#16), rfl, rfl, by decide⟩, splitFull .cons .idle (.c5 0#64 f0.header 0#16 []), rfl, rfl⟩

theorem witness_StatusQueriesSpsc (q : Query) :
    (∃ s : State, s.port = .prod ∧ s.prod = .q1 q ∧ s.pSeenAt < s.histR.length) ∧
    (∃ s : State, s.port = .cons ∧ s.cons = .q1 q ∧ s.cSeenAt < s.histW.length) ∧
    (∃ s : State, s.port = .prod ∧ s.prod = .q2 q 0#64) ∧ (∃ s : State, s.port = .cons ∧ s.cons = .q2 q 0#64) :=
  ⟨⟨splitEmpty .prod (.q1 q) .idle, rfl, rfl, Nat.one_pos⟩, ⟨splitEmpty .cons .idle (.q1 q), rfl, rfl, Nat.one_pos⟩,
    ⟨splitEmpty .prod (.q2 q 0#64) .idle, rfl, rfl⟩, splitEmpty .cons .idle (.q2 q 0#64), rfl, rfl⟩

/-- Every response. -/
theorem witness_ResponsesAreHandedOver (r : Response) : ∃ s : State, s.portState s.port = .responding r := ⟨State.reset.post r, rfl⟩

theorem witness_InvalidCapacityIsHandedOverWithItsReason (reason : Reason) :
    (∃ s : State, s.portState s.port = .responding (.invalidCapacity 8#64 reason)) ∧
      ∃ s : State, s.portState s.port = .reasonDue 8#64 reason :=
  ⟨⟨State.reset.post (.invalidCapacity 8#64 reason), rfl⟩, State.reset.setPort .cfg (.reasonDue 8#64 reason), rfl⟩

theorem witness_WhatIsNotDueIsRefused :
    (∀ r, State.reset.portState .cfg ≠ .responding r) ∧ (∀ c reason, State.reset.portState .cfg ≠ .reasonDue c reason) ∧
      ∀ w r, State.reset.portState .cfg ≠ .c3 w r := ⟨nofun, nofun, nofun⟩

theorem witness_LagIsOneSided : ∃ s : State, BlockInv s ∧ Configured s ∧ s.mode = .spsc ∧ s.cSeenW = 16#64 :=
  ⟨_, splitFull_inv .cfg .idle .idle trivial trivial, nofun, rfl, rfl⟩

theorem witness_AdvisoryStatusIsSafe :
    (∃ s : State, BlockInv s ∧ s.port = .prod ∧ s.prod = .p1 f0 ∧ f0.need ≤ s.capacity - (s.writePos - s.pSeenR)) ∧
    (∃ s : State, BlockInv s ∧ s.port = .cons ∧ s.cons = .c1) ∧
    (∃ s t : State, BlockInv s ∧ s.phase = .split ∧ step s = .next t ∧ t.phase = .split ∧ t.port ≠ .cons) ∧
    (∃ s t : State, BlockInv s ∧ s.phase = .split ∧ step s = .next t ∧ t.phase = .split ∧ t.port ≠ .prod) :=
  ⟨⟨_, p1_inv, rfl, rfl, by decide⟩, ⟨_, c1_inv, rfl, rfl⟩, ⟨_, _, given_inv p4_inv (.advance .prod), rfl, rfl, rfl, by decide⟩,
    _, _, given_inv c5_inv (.advance .cons), rfl, rfl, rfl, by decide⟩

/-- A step that stores, one that reads, and a state of both ranges. -/
theorem witness_TheTwoSidesNeverMeet :
    (∃ s t : State, BlockInv s ∧ s.phase = .split ∧ step s = .next t ∧ Event.mk .prod (.memWrite 0#64 f0.bytes) ∈ t.events.drop s.events.length) ∧
    (∃ s t : State, BlockInv s ∧ s.phase = .split ∧ step s = .next t ∧ Event.mk .cons (.memRead 0#64 f0.bytes) ∈ t.events.drop s.events.length) ∧
    (∃ s : State, BlockInv s ∧ Configured s ∧ s.mode = .spsc ∧ 15 < (s.cSeenW - s.readPos).toNat) ∧
    (∃ s : State, BlockInv s ∧ Configured s ∧ s.mode = .spsc ∧ 15 < (s.pSeenR + s.capacity - s.writePos).toNat) :=
  ⟨⟨_, _, given_inv p3_inv (.advance .prod), rfl, rfl, by decide⟩, ⟨_, _, given_inv c3_inv (.advance .cons), rfl, rfl, by decide⟩,
    ⟨_, splitFull_inv .cfg .idle .idle trivial trivial, nofun, rfl, by decide⟩,
    _, splitEmpty_inv .cfg .idle .idle trivial trivial, nofun, rfl, by decide⟩

/-- Each step of both modes; a frame in each of its four states, at a boundary, with a step from there. -/
theorem witness_FramesLiveTheirLifecycle :
    (∃ s t : State, BlockInv s ∧ s.port = .prod ∧ s.prod = .p3 f0 0#64 ∧ advance s = .next t) ∧
    (∃ s t : State, BlockInv s ∧ s.port = .prod ∧ s.prod = .p4 f0 0#64 ∧ advance s = .next t) ∧
    (∃ s t : State, BlockInv s ∧ s.port = .cons ∧ s.cons = .c5 0#64 f0.header 0#16 [] ∧ advance s = .next t) ∧
    (∃ s t : State, BlockInv s ∧ s.port = .prod ∧ s.phase = .whole ∧ s.mode = .single ∧
      exec (.writeEvent 7#64 9#8 1#8 0#16 []) s = .next t ∧ t.prod = .responding (.ok .empty)) ∧
    (∃ s t : State, BlockInv s ∧ s.port = .cons ∧ s.phase = .whole ∧ s.mode = .single ∧
      exec .readEvent s = .next t ∧ t.cons = .responding (.ok (.event f0.header []))) ∧
    (∃ s t : State, BlockInv s ∧ Configured s ∧ step s = .next t ∧ Configured t ∧ FrameReserved s 0 16) ∧
    (∃ s t : State, BlockInv s ∧ Configured s ∧ step s = .next t ∧ Configured t ∧ FrameConsumed s 0 16 ∧ FrameAbsent t 16) ∧
    (∃ s t : State, BlockInv s ∧ Configured s ∧ Holds s ([] ++ f0 :: []) ∧ step s = .next t ∧ Configured t ∧ FrameReadable s 0 16) :=
  ⟨⟨_, _, p3_inv, rfl, rfl, rfl⟩, ⟨_, _, p4_inv, rfl, rfl, rfl⟩, ⟨_, _, c5_inv, rfl, rfl, rfl⟩,
    ⟨_, _, fresh_inv .single .prod, rfl, rfl, rfl, rfl, rfl⟩, ⟨_, _, single16_inv .cons, rfl, rfl, rfl, rfl, by decide⟩,
    ⟨_, _, given_inv p4_inv (.advance .prod), nofun, rfl, nofun, rfl, _, _, rfl, rfl⟩,
    ⟨_, _, given_inv passed_inv (.advance .cfg), nofun, rfl, nofun, Nat.le_refl 16, Nat.le_refl 16, nofun⟩,
    _, _, given_inv c5_inv (.advance .cons), nofun, ⟨by decide, by decide⟩, rfl, nofun, Nat.le_refl 16, Nat.le_refl 0⟩

/-! A run without end: a frame is written and read, then the consumer polls the empty ring for ever. -/

/-- A write at step P1; the inputs of the write, of one read, and the draws of their two acquire-loads. -/
def liveStart : State :=
  { splitEmpty .prod (.p1 f0) .idle with
    inbox := List.replicate 4 (.advance .prod) ++ .request .cons [0x20] :: List.replicate 6 (.advance .cons)
    draws := [0, 1] }

/-- The next state, where there is one. -/
def stepOr (s : State) : State :=
  match step s with
  | .next t => t
  | .fault _ => s
  | .refused _ => s

/-- The state `n` steps on. -/
def after : Nat → State → State
  | 0, s => s
  | n + 1, s => stepOr (after n s)

/-- There is a next state. -/
def goesOn (s : State) : Bool :=
  match step s with
  | .next _ => true
  | .fault _ => false
  | .refused _ => false

theorem step_of_goesOn {s : State} (h : goesOn s = true) : step s = .next (stepOr s) := by
  unfold goesOn at h
  unfold stepOr
  split at h <;> simp_all

/-- The ring when the frame has been read; `x` is in progress on the consumer side. -/
def polled (x : PortState) (c : Nat) (es : List Event) : State :=
  { split16 .cons f0Region 16#64 [0#64, 16#64] 16#64 1 (.responding (.ok .empty)) x with
    readPos := 16#64
    histR := [0#64, 16#64]
    released := 16
    freeCount := c
    events := es }

/-- A poll has four steps: request, C1, C2, response `NONE`. -/
def pollAt (n : Nat) : PortState := [.idle, .c1, .c2 16#64].getD (n % 4) (.responding .none)

def pollEvent (n : Nat) : Event :=
  ⟨.cons, [.request .readEvent, .acqLoad .writePos 16#64, .ownLoad .readPos 16#64].getD (n % 4) (.response .none)⟩

def pollInput (n : Nat) : Input := if n % 4 = 0 then .request .cons [0x20] else .advance .cons

def pollRun (n : Nat) : State :=
  polled (pollAt n) (3 + (n + 2) / 4) ((after 11 liveStart).events ++ (List.range n).map pollEvent)

/-- The four steps of a poll. -/
theorem poll_steps (c : Nat) (es : List Event) :
    step ((polled .idle c es).arrive [.request .cons [0x20]] []) = .next (polled .c1 c (es ++ [⟨.cons, .request .readEvent⟩])) ∧
    step ((polled .c1 c es).arrive [.advance .cons] []) = .next (polled (.c2 16#64) (c + 1) (es ++ [⟨.cons, .acqLoad .writePos 16#64⟩])) ∧
    step ((polled (.c2 16#64) c es).arrive [.advance .cons] []) =
      .next (polled (.responding .none) c (es ++ [⟨.cons, .ownLoad .readPos 16#64⟩])) ∧
    step ((polled (.responding .none) c es).arrive [.advance .cons] []) = .next (polled .idle c (es ++ [⟨.cons, .response .none⟩])) := by
  refine ⟨rfl, ?_, ?_, rfl⟩
  · have h : acqPick [16#64] 16#64 (Config.acqDraw c) = (0, 16#64) := by simp [acqPick, Nat.mod_one]
    show Host.Outcome.next ((acqLoadWritePos (Config.acqDraw c) (polled .c1 c es)).setPort .cons
      (.c2 (acqLoadWritePos (Config.acqDraw c) (polled .c1 c es)).cSeenW)) = _
    simp only [acqLoadWritePos, show (polled .c1 c es).histW.drop (polled .c1 c es).cSeenAt = [16#64] from rfl,
      show (polled .c1 c es).writePos = 16#64 from rfl, h]
    rfl
  · show stepC2 16#64 (polled (.c2 16#64) c es) = _
    rw [stepC2, if_pos (show usedOf 16#64 (polled (.c2 16#64) c es).readPos < 16#64 from (by decide : usedOf 16#64 16#64 < 16#64))]
    rfl

theorem pollRun_step (n : Nat) : step ((pollRun n).arrive [pollInput n] []) = .next (pollRun (n + 1)) := by
  obtain ⟨q, r, hr, rfl⟩ : ∃ q r, r < 4 ∧ n = 4 * q + r := ⟨n / 4, n % 4, Nat.mod_lt _ (by omega), by omega⟩
  have hm : (4 * q + r) % 4 = r := by omega
  have hm' : (4 * q + r + 1) % 4 = (r + 1) % 4 := by omega
  simp only [pollRun, pollAt, pollInput, List.range_succ, List.map_append, ← List.append_assoc, List.map_cons, List.map_nil, pollEvent, hm, hm']
  obtain ⟨h0, h1, h2, h3⟩ := poll_steps (3 + (4 * q + r + 2) / 4) ((after 11 liveStart).events ++ (List.range (4 * q + r)).map pollEvent)
  obtain rfl | rfl | rfl | rfl : r = 0 ∨ r = 1 ∨ r = 2 ∨ r = 3 := by omega
  · rw [show 3 + (4 * q + 0 + 1 + 2) / 4 = 3 + (4 * q + 0 + 2) / 4 by omega]; exact h0
  · rw [show 3 + (4 * q + 1 + 1 + 2) / 4 = 3 + (4 * q + 1 + 2) / 4 + 1 by omega]; exact h1
  · rw [show 3 + (4 * q + 2 + 1 + 2) / 4 = 3 + (4 * q + 2 + 2) / 4 by omega]; exact h2
  · rw [show 3 + (4 * q + 3 + 1 + 2) / 4 = 3 + (4 * q + 3 + 2) / 4 by omega]; exact h3

def liveRun (n : Nat) : State := if n < 11 then after n liveStart else pollRun (n - 11)

def liveWorld : World where
  inputs n := if n < 11 then [] else [pollInput (n - 11)]
  draws _ := []

theorem liveRun_first {n : Nat} (h : n < 11) : goesOn (after n liveStart) = true ∧ (after n liveStart).phase = .split := by
  have : ∀ n ∈ List.range 11, goesOn (after n liveStart) = true ∧ (after n liveStart).phase = .split := by decide
  exact this n (List.mem_range.2 h)

theorem liveRun_joins : after 11 liveStart = pollRun 0 := by decide

theorem liveRun_poll (k : Nat) : liveRun (11 + k) = pollRun k := by simp [liveRun]

theorem liveRun_run : IsRun liveWorld liveRun := by
  intro n
  by_cases h : n < 11
  · have h1 := step_of_goesOn (liveRun_first h).1
    have h2 : liveRun (n + 1) = stepOr (after n liveStart) := by
      by_cases h' : n + 1 < 11
      · rw [liveRun, if_pos h']; rfl
      · obtain rfl : n = 10 := by omega
        rw [liveRun_poll 0, ← liveRun_joins]; rfl
    rw [h2, ← h1]
    simp [liveWorld, liveRun, h, State.arrive]
  · obtain ⟨k, rfl⟩ : ∃ k, n = 11 + k := ⟨n - 11, by omega⟩
    have := pollRun_step k
    simpa [liveWorld, liveRun_poll, Nat.add_assoc] using this

theorem liveRun_split (n : Nat) : (liveRun n).phase = .split := by
  by_cases h : n < 11
  · rw [liveRun, if_pos h]; exact (liveRun_first h).2
  · rw [liveRun, if_neg h]; rfl

theorem liveRun_fair : FairToConsumer liveRun ∧ FairToProducer liveRun := by
  refine ⟨fun _ _ => ⟨11, fun m hm _ => ?_⟩, fun _ _ => ⟨11, fun m hm h => ?_⟩⟩ <;> obtain ⟨k, rfl⟩ := Nat.exists_eq_add_of_le hm
  · rw [Nat.add_assoc, liveRun_poll]; rfl
  · rw [LoadsReadPos, Nat.add_assoc, liveRun_poll, liveRun_poll] at h
    simp only [pollRun, polled, List.range_succ, List.map_append, ← List.append_assoc] at h
    have := List.append_cancel_left h
    simp [pollEvent] at this

theorem liveRun_polls : PollsForever liveRun := fun n =>
  ⟨11 + (4 * n + 1), by omega, by rw [liveRun_poll]; simp [pollRun, pollAt, polled, split16, Nat.add_mod],
    by rw [Nat.add_assoc, liveRun_poll]; simp [pollRun, pollAt, polled, split16, Nat.add_mod]⟩

/-- In the run above a frame is published at its fourth step, and released. -/
theorem witness_OperationsFinish :
    (∃ s : State, BlockInv s ∧ 0 < stepsLeft (s.portState s.port)) ∧ (∃ s t : State, step s = .next t ∧ Port.cons ≠ t.port) ∧
    ∃ world run, IsRun world run ∧ BlockInv (run 0) ∧ (∀ n, (run n).phase = .split) ∧ FairToConsumer run ∧ FairToProducer run ∧
      PollsForever run ∧ RetriesFrom 0 run ∧ (run 0).published < (run 4).published ∧ (run 4).released < (run 4).published :=
  ⟨⟨_, p1_inv, by decide⟩, ⟨given (splitEmpty .cfg (.p3 f0 0#64) .idle) (.advance .prod), _, rfl, by decide⟩,
    liveWorld, liveRun, liveRun_run, inv_arrive p1_inv liveStart.inbox [0, 1], liveRun_split, liveRun_fair.1, liveRun_fair.2, liveRun_polls,
    fun k _ => ⟨11 + k, by omega, .inl (by rw [liveRun_poll]; show 0 < 16; decide)⟩, by decide, by decide⟩

/-- A frame that fits; and, in a full ring with the consumer idle, one that does not. -/
theorem witness_AnUninterruptedWriteIsOneWrite :
    (∃ s : State, BlockInv s ∧ s.prod = .p1 f0 ∧ Holds s [] ∧ s.inbox = List.replicate 4 (.advance .prod) ++ [] ∧
      ∃ k v, s.pSeenAt ≤ k ∧ s.histR[k]? = some v ∧ f0.need ≤ s.capacity - (s.writePos - v)) ∧
    (∃ s : State, BlockInv s ∧ s.prod = .p1 f0 ∧ Holds s [f0] ∧ s.inbox = List.replicate 4 (.advance .prod) ++ [] ∧
      ∃ k v, s.pSeenAt ≤ k ∧ s.histR[k]? = some v ∧ s.capacity - (s.writePos - v) < f0.need) :=
  ⟨⟨_, inv_at p1_inv .prod (List.replicate 4 (.advance .prod)), rfl, ⟨nofun, by decide⟩, rfl,
      0, 0#64, by decide, rfl, by decide⟩,
    _, inv_at (splitFull_inv .prod (.p1 f0) .idle ⟨rfl, rfl, rfl⟩ trivial) .prod (List.replicate 4 (.advance .prod)), rfl,
    ⟨by decide, by decide⟩, rfl, 0, 0#64, by decide, rfl, by decide⟩

theorem witness_StepConservesFrames :
    ∃ (s t : State) (fs : List Frame), BlockInv s ∧ Configured s ∧ Holds s fs ∧ step s = .next t ∧ Configured t ∧ stored t ≠ stored s :=
  ⟨_, _, [], given_inv p3_inv (.advance .prod), nofun, ⟨nofun, by decide⟩, rfl, nofun, by decide⟩

/-- A run of one step, the store of a frame into an empty ring. -/
theorem witness_ReceivedIsAPrefixOfStored :
    ∃ (world : World) (run : Nat → State), IsRunTo 1 world run ∧ BlockInv (run 0) ∧ (∀ k, k ≤ 1 → Configured (run k)) ∧ unread (run 0) = [] ∧
      inHand (run 0).cons = [] ∧ reserved (run 0).prod = [] ∧ stored (run 1) = [f0.bytes] := by
  let s := given (splitEmpty .prod (.p3 f0 0#64) .idle) (.advance .prod)
  obtain ⟨t, ht, hc, hs⟩ : ∃ t, step s = .next t ∧ Configured t ∧ stored t = [f0.bytes] := ⟨_, rfl, nofun, by decide⟩
  refine ⟨⟨fun _ => [], fun _ => []⟩, fun n => if n = 0 then s else t, ?_, given_inv p3_inv _, ?_, ?_, rfl, rfl, hs⟩
  · intro k hk
    obtain rfl : k = 0 := by omega
    exact ht
  · intro k _
    by_cases h : k = 0
    · subst h; exact nofun
    · simpa [h] using hc
  · show unread (given (splitEmpty .prod (.p3 f0 0#64) .idle) (.advance .prod)) = []
    decide

end Sys2Proof.Tests
end

section
/-! SUPPORT. Every step keeps the invariant of the block: what each command and each next step of a port can do (Laws/Effects.lean) is one
of the updates that keep it (Laws/Updates.lean). -/

namespace Sys2Proof.Safety

open Machine

/-! ## Which port an operation in progress is at -/

/-- What only the producer side can have in progress is in progress at port `PROD`, and agrees with the state. -/
theorem BlockInv.at_prod {s : State} (hi : BlockInv s) {p : Port} {x : PortState} (hx : s.portState p = x) (hcfg : ¬ CfgOk x)
    (hcons : ¬ ConsOk s x) : p = .prod ∧ s.prod = x ∧ ProdOk s x := by
  subst hx
  cases p with
  | cfg => exact absurd hi.cfg_ok hcfg
  | prod => exact ⟨rfl, rfl, hi.prod_ok⟩
  | cons => exact absurd hi.cons_ok hcons

/-- What only the consumer side can have in progress is in progress at port `CONS`, and agrees with the state. -/
theorem BlockInv.at_cons {s : State} (hi : BlockInv s) {p : Port} {x : PortState} (hx : s.portState p = x) (hcfg : ¬ CfgOk x)
    (hprod : ¬ ProdOk s x) : p = .cons ∧ s.cons = x ∧ ConsOk s x := by
  subst hx
  cases p with
  | cfg => exact absurd hi.cfg_ok hcfg
  | prod => exact absurd hi.prod_ok hprod
  | cons => exact ⟨rfl, rfl, hi.cons_ok⟩

/-- A query in progress at port `PROD`. -/
theorem BlockInv.prod_query {s : State} (hi : BlockInv s) {x : PortState} (hx : s.portState s.port = x) (hp : s.port = .prod) :
    s.prod = x ∧ ProdOk s x := by
  rw [hp] at hx
  subst hx
  exact ⟨rfl, hi.prod_ok⟩

/-- A query in progress at another port is in progress at port `CONS`. -/
theorem BlockInv.cons_query {s : State} (hi : BlockInv s) {x : PortState} (hx : s.portState s.port = x) (hp : s.port ≠ .prod)
    (hcfg : ¬ CfgOk x) : s.port = .cons ∧ s.cons = x ∧ ConsOk s x := by
  subst hx
  cases h : s.port with
  | cfg => rw [h] at hcfg; exact absurd hi.cfg_ok hcfg
  | prod => exact absurd h hp
  | cons => exact ⟨rfl, rfl, hi.cons_ok⟩

/-- A port that is ready for a request has nothing in progress. -/
theorem idle_of_ready {s : State} {p : Port} (h : s.ready p = true) : s.portState p = .idle := by
  by_cases hs : s.phase = .whole ∧ s.mode = .single
  · exact (ready_single hs p).1 h p
  · exact (ready_other hs p).1 h

theorem quiet_of_idle {x : PortState} (h : x = .idle) : Quiet x := by
  subst h
  trivial

/-! ## Commands -/

/-- What a command starts in phase `Split` agrees with the state. -/
theorem Starts.inv {s : State} {x : PortState} (h : Starts s x) (hi : BlockInv s) (hp : s.phase = .split) :
    BlockInv (s.setPort s.port x) := by
  cases h with
  | write f ha hport halive => rw [hport]; exact inv_setProd hi ⟨hp, halive, ha⟩
  | read hport halive => rw [hport]; exact inv_setCons hi ⟨hp, halive⟩
  | query q hq =>
    rcases Bool.or_eq_true_iff.1 hq with hq | hq
    · obtain ⟨hport, hmay⟩ := whole_of_writeLegal hq
      rw [hport]
      exact inv_setProd hi ⟨hp, by simpa [hp] using hmay⟩
    · obtain ⟨hport, hmay⟩ := whole_of_readLegal hq
      rw [hport]
      exact inv_setCons hi ⟨hp, by simpa [hp] using hmay⟩

/-- In mode `SINGLE`, a header read at `read_pos` of a ring that is not empty is that of the oldest frame held. -/
theorem oldest_of_header {s : State} {fs : List Frame} (hh : Holds s fs) (h16 : 16#64 ≤ s.used) {header : List Byte}
    (hd : header = s.readFrom s.readPos 16) :
    ∃ f rest, fs = f :: rest ∧ f.agrees = true ∧ f.need = needOf (headerPayloadLen (headerOfBytes header)) ∧
      f.need.toNat ≤ s.used.toNat ∧ Holds (afterRead s f.need) rest := by
  have hpos : 0 < s.used.toNat := Nat.lt_of_lt_of_le (by decide) (show 16 ≤ s.used.toNat from h16)
  obtain ⟨f, rest, hfs, ha, hle, hhead, -, hrest⟩ := afterRead_holds hh hpos
  refine ⟨f, rest, hfs, ha, ?_, hle, hrest⟩
  rw [hd, hhead, headerOfBytes_headerBytes, f.payloadLen_header, Frame.need]

/-- Every command, given to a port with nothing in progress, keeps the invariant. -/
theorem CommandEffect.inv {i : Instr} {s t : State} (h : CommandEffect i s t) (hi : BlockInv s)
    (hidle : s.portState s.port = .idle) : BlockInv t := by
  cases h with
  | answers r => exact inv_post hi r
  | starts x hp hx => exact hx.inv hi hp
  | creates mode c _ _ hp h16 h2 hb => exact inv_setQuiet (create_inv hi hp mode c h16 h2 hb) _ trivial
  | splits _ _ hp hm => exact inv_setQuiet (split_inv hi hp hm) _ trivial
  | dropsRing _ _ hp =>
    have hns : s.phase ≠ .split := by simp [hp]
    obtain ⟨hpa, hca⟩ := hi.whole_handles hns
    exact inv_setQuiet (loseRing_inv hi.cfg_ok (quiet_prod hi (.inl hns)) (quiet_cons hi (.inl hns)) hpa hca) _ trivial
  | dropsProducer _ hport hp _ hca =>
    rw [hport] at hidle
    exact inv_setQuiet (drop1_inv hi hp hca (quiet_of_idle hidle)) _ trivial
  | dropsLastProducer _ hport _ _ hca =>
    rw [hport] at hidle
    have hcons : Quiet s.cons := quiet_cons hi (.inr hca)
    exact inv_setQuiet (loseRing_inv (s := { s with prodAlive := false }) hi.cfg_ok (quiet_of_idle hidle) hcons rfl hca) _ trivial
  | dropsConsumer _ hport hp _ hpa =>
    rw [hport] at hidle
    exact inv_setQuiet (drop2_inv hi hp hpa (quiet_of_idle hidle)) _ trivial
  | dropsLastConsumer _ hport _ _ hpa =>
    rw [hport] at hidle
    have hprod : Quiet s.prod := quiet_prod hi (.inr hpa)
    exact inv_setQuiet (loseRing_inv (s := { s with consAlive := false }) hi.cfg_ok hprod (quiet_of_idle hidle) hpa rfl) _ trivial
  | writes f bytes need hb hn _ _ hp hm ha hfree =>
    have hlen : bytes.length = need.toNat := by rw [hb, hn]; exact f.length_bytes ha
    have hfit : s.used.toNat + need.toNat ≤ s.capacity.toNat :=
      fits (hi.used_le_nat (by simp [Configured, hp])) (BitVec.not_lt.2 hfree)
    rw [← hlen] at hfit
    exact inv_setQuiet (inv_log (afterStore_inv_single hi hp hm ha bytes hb need hlen hfit) _) _ trivial
  | findsNoFrame => exact inv_setQuiet (inv_log hi _) _ trivial
  | reads header h n payload hh hd hn _ _ _ hp hm h16 =>
    obtain ⟨fs, hfs⟩ := hi.framed (by simp [Configured, hp])
    obtain ⟨f, rest, -, -, hneed, hle, hrest⟩ := oldest_of_header hfs h16 hh
    rw [← hd, ← hn] at hneed
    rw [← hneed]
    exact inv_setQuiet (inv_log (inv_log (afterRead_inv_single hi hp hm hle hrest) _) _) _ trivial

/-! ## Steps of a port -/

/-- P3: the frame's bytes are stored behind the unread ones, and read back. -/
theorem store_keeps_inv {s : State} (hi : BlockInv s) (hport : s.port = .prod) {f : Frame} {w : Word} (hx : s.prod = .p3 f w)
    {bytes : List Byte} (hb : bytes = f.bytes) :
    BlockInv (({ s with region := writeFrom s.mask w bytes s.region }.log (.memWrite w bytes)).setPort s.port (.p4 f w)) := by
  have hok := hi.prod_ok
  rw [hx] at hok
  obtain ⟨hp, halive, ha, rfl, hroom⟩ := hok
  have H := hi.hist hp
  have hlen : bytes.length = f.need.toNat := by rw [hb]; exact f.length_bytes ha
  have hfit : s.used.toNat + bytes.length ≤ s.capacity.toNat := by
    rw [hlen]; exact room_fits H.behind_r H.room_r hroom
  have hread : (withStored s bytes).readFrom s.writePos bytes.length = bytes :=
    readFrom_stored (t := withStored s bytes) hi (split_configured hp) bytes (by omega) rfl rfl
  change BlockInv (((withStored s bytes).log (.memWrite s.writePos bytes)).setPort s.port _)
  rw [hport]
  refine inv_setProd (inv_log (stored_inv hi hp bytes hfit ⟨f, _, hx⟩) _) ⟨hp, halive, ha, rfl, hroom, ?_⟩
  rw [State.readFrom_log, ← hb]
  exact hread

/-- P4: the frame stored is published. -/
theorem publish_keeps_inv {s : State} (hi : BlockInv s) {f : Frame} {w need : Word} (hx : s.prod = .p4 f w) (hn : need = f.need) :
    BlockInv ((relStoreWritePos (w + need) s).setPort .prod (.responding (.ok .empty))) := by
  have hok := hi.prod_ok
  rw [hx] at hok
  obtain ⟨hp, -, ha, rfl, hroom, hread⟩ := hok
  have hi' : BlockInv (s.setPort .prod (.responding (.ok .empty))) := inv_setQuiet hi _ trivial
  have hpub := published_inv hi' hp ha need hn f.bytes rfl (by rw [hn]; exact hroom) (by simpa using hread) _ rfl trivial
  exact inv_log hpub (.relStore .writePos (s.writePos + need))

/-- C5: the frame copied is released. -/
theorem release_keeps_inv {s : State} (hi : BlockInv s) {r : Word} {h : HeaderBits} {n : Half} {payload : List Byte}
    (hx : s.cons = .c5 r h n payload) (x : PortState) (hq : Quiet x) :
    BlockInv ((relStoreReadPos (r + needOf n) s).setPort .cons x) := by
  have hok := hi.cons_ok
  rw [hx] at hok
  obtain ⟨hp, -, rfl, hn, hle, hread, -⟩ := hok
  have hi' : BlockInv (s.setPort .cons x) := inv_setQuiet hi _ hq
  obtain ⟨fs, hfs⟩ := hi'.framed (split_configured hp)
  have hused : needOf n ≤ s.used := BitVec.le_trans hle (hi.hist hp).behind_w
  have h16 : 16#64 ≤ s.used := by
    show 16 ≤ s.used.toNat
    have : (needOf n).toNat ≤ s.used.toNat := hused
    rw [needOf_toNat] at this
    omega
  obtain ⟨f, rest, -, -, hneed, -, hrest⟩ := oldest_of_header (s := s.setPort .cons x) hfs h16 (header := headerBytes h)
    (by rw [← hread]; simp)
  rw [headerOfBytes_headerBytes, ← hn] at hneed
  exact inv_log (released_inv hi' hp hrest (needOf n) hneed.symm hle hq) (.relStore .readPos (s.readPos + needOf n))

/-- Every step of a port keeps the invariant. -/
theorem AdvanceEffect.inv {s t : State} (h : AdvanceEffect s t) (hi : BlockInv s) : BlockInv t := by
  cases h with
  | idle => exact hi
  | handsOver r => exact inv_setQuiet (inv_log hi _) _ trivial
  | owesReason c q => exact inv_setQuiet hi _ trivial
  | handsOverReason c q => exact inv_setQuiet (inv_log hi _) _ trivial
  | p1 f d hx =>
    obtain ⟨hport, hprod, hp, halive, ha⟩ := hi.at_prod hx id id
    rw [hport]
    exact inv_setProd (acqLoadReadPos_inv hi hp d (.inl ⟨f, hprod⟩)) ⟨hp, halive, ha, rfl⟩
  | p2Fails f r => exact inv_setQuiet (inv_log hi _) _ trivial
  | p2Fits f r hx hf =>
    obtain ⟨hport, -, hp, halive, ha, rfl⟩ := hi.at_prod hx id id
    rw [hport]
    exact inv_setProd (inv_log hi _) ⟨hp, halive, ha, rfl, hf⟩
  | p3 f w bytes hx hb =>
    obtain ⟨hport, hprod, -⟩ := hi.at_prod hx id id
    exact store_keeps_inv hi hport hprod hb
  | p4 f w need hx hn =>
    obtain ⟨hport, hprod, -⟩ := hi.at_prod hx id id
    rw [hport]
    exact publish_keeps_inv hi hprod hn
  | c1 d hx =>
    obtain ⟨hport, hcons, hp, halive⟩ := hi.at_cons hx id id
    rw [hport]
    exact inv_setCons (acqLoadWritePos_inv hi hp d (.inl hcons)) ⟨hp, halive, rfl⟩
  | c2None w => exact inv_setQuiet (inv_log hi _) _ trivial
  | c2Some w hx hu =>
    obtain ⟨hport, -, hp, halive, rfl⟩ := hi.at_cons hx id id
    rw [hport]
    exact inv_setCons (inv_log hi _) ⟨hp, halive, rfl, rfl, hu⟩
  | c3None w r header n => exact inv_setQuiet (inv_log hi _) _ trivial
  | c3Some w r header h n hx hh hd hn hu =>
    obtain ⟨hport, -, hp, halive, rfl, rfl, -⟩ := hi.at_cons hx id id
    rw [hport]
    refine inv_setCons (inv_log hi _) ⟨hp, halive, rfl, hn, hu, ?_⟩
    rw [hd, headerBytes_headerOfBytes header (by simp [hh]), hh]
    simp
  | c4 r h n payload hx hl =>
    obtain ⟨hport, -, hp, halive, rfl, hn, hu, hread⟩ := hi.at_cons hx id id
    rw [hport]
    exact inv_setCons (inv_log hi _) ⟨hp, halive, rfl, hn, hu, by simpa using hread, by simp [hl]⟩
  | c5 r h n payload hx =>
    obtain ⟨hport, hcons, -⟩ := hi.at_cons hx id id
    rw [hport]
    exact release_keeps_inv hi hcons _ trivial
  | q1Prod q d hx hport =>
    obtain ⟨hprod, hp, halive⟩ := hi.prod_query hx hport
    rw [hport]
    exact inv_setProd (acqLoadReadPos_inv hi hp d (.inr ⟨q, hprod⟩)) ⟨hp, halive⟩
  | q1Cons q d hx hport =>
    obtain ⟨hport, hcons, hp, halive⟩ := hi.cons_query hx hport id
    rw [hport]
    exact inv_setCons (acqLoadWritePos_inv hi hp d (.inr ⟨q, hcons⟩)) ⟨hp, halive⟩
  | q2Prod q v => exact inv_setQuiet (inv_log hi _) _ trivial
  | q2Cons q v => exact inv_setQuiet (inv_log hi _) _ trivial

/-! ## Steps of the machine -/

/-- Settles O3: a step is a command at a ready port or the next step of a port, and each of these keeps the invariant. -/
theorem stepKeepsInvariant : Obligations.StepKeepsInvariant := by
  intro s t hi h
  rcases step_effect h with ⟨-, rfl⟩ | ⟨p, bytes, rest, i, u, -, hready, -, rfl, hu⟩ | ⟨p, rest, u, -, rfl, hu⟩
  · exact hi
  · exact hu.inv (inv_log (inv_at hi p rest) _) (by simpa using idle_of_ready hready)
  · exact hu.inv (inv_at hi p rest)

end Sys2Proof.Safety
end

section
/-! SUPPORT. What a step can do to the region, and which port's steps may change which element of a ring. -/

namespace Sys2Proof.Safety

open Machine

/-! ## The region -/

/-- What a step can do to the region: nothing, lose its bytes with the ring, or store bytes at consecutive positions (20_memory.md R72). -/
inductive RegionChange (s t : State) : Prop where
  | same (h : t.region = s.region)
  | emptied (h : t.region = [])
  | stored (pos : Word) (bytes : List Byte) (h : t.region = writeFrom s.mask pos bytes s.region)

theorem RegionChange.wf {s t : State} (h : RegionChange s t) (hw : Memory.wf s.region = true) : Memory.wf t.region = true := by
  cases h with
  | same h => rw [h]; exact hw
  | emptied h => rw [h]; rfl
  | stored pos bytes h => rw [h]; exact writeFrom_wf _ _ _ hw

theorem CommandEffect.regionChange {i : Instr} {s t : State} (h : CommandEffect i s t) : RegionChange s t := by
  cases h with
  | creates | dropsRing | dropsLastProducer | dropsLastConsumer => exact .emptied (by simp [State.create, State.loseRing])
  | writes f bytes => exact .stored s.writePos bytes (by simp [afterStore])
  | reads => exact .same (by simp [afterRead])
  | answers | starts | splits | dropsProducer | dropsConsumer | findsNoFrame => exact .same (by simp)

theorem AdvanceEffect.regionChange {s t : State} (h : AdvanceEffect s t) : RegionChange s t := by
  cases h with
  | p3 f w bytes => exact .stored w bytes (by simp)
  | p1 | q1Prod => exact .same (by simp [acqLoadReadPos])
  | c1 | q1Cons => exact .same (by simp [acqLoadWritePos])
  | p4 => exact .same (by simp [relStoreWritePos])
  | c5 => exact .same (by simp [relStoreReadPos])
  | idle | handsOver | owesReason | handsOverReason | p2Fails | p2Fits | c2None | c2Some | c3None | c3Some | c4 | q2Prod | q2Cons =>
    exact .same (by simp)

/-- Settles O5: a step leaves the region alone, empties it, or stores bytes one by one, and each store keeps the form. -/
theorem stepKeepsRegionCanonical : Obligations.StepKeepsRegionCanonical := by
  intro s t hw h
  rcases step_effect h with ⟨-, rfl⟩ | ⟨p, bytes, rest, i, u, -, -, -, rfl, hu⟩ | ⟨p, rest, u, -, rfl, hu⟩
  · exact hw
  · exact hu.regionChange.wf hw
  · exact hu.regionChange.wf hw

/-! ## Who changes what -/

/-- Whatever of a ring is not as before, the port of the step may change (10_state.md R37). -/
structure OwnersChanges (s t : State) : Prop where
  mode : t.mode = s.mode
  capacity : t.capacity = s.capacity
  mask : t.mask = s.mask
  phase : t.phase ≠ s.phase → t.port = .cfg
  writePos : t.writePos ≠ s.writePos → t.port = .prod
  readPos : t.readPos ≠ s.readPos → t.port = .cons
  bytes : (∃ o, t.byteAt o ≠ s.byteAt o) → t.port = .prod
  prodAlive : t.prodAlive ≠ s.prodAlive → t.port = .cfg ∨ t.port = .prod
  consAlive : t.consAlive ≠ s.consAlive → t.port = .cfg ∨ t.port = .cons
  pSeenR : t.pSeenR ≠ s.pSeenR → t.port = .prod
  cSeenW : t.cSeenW ≠ s.cSeenW → t.port = .cons

theorem SameCore.byteAt {s t : State} (h : SameCore s t) (o : Nat) : t.byteAt o = s.byteAt o := by
  simp [State.byteAt, h.region, h.regionSeed]

/-- Where nothing of the ring has changed there is nothing to ask. -/
theorem SameCore.ownersChanges {s t : State} (h : SameCore s t) : OwnersChanges s t where
  mode := h.mode
  capacity := h.capacity
  mask := h.mask
  phase hne := absurd h.phase hne
  writePos hne := absurd h.writePos hne
  readPos hne := absurd h.readPos hne
  bytes hne := hne.elim fun o ho => absurd (h.byteAt o) ho
  prodAlive hne := absurd h.prodAlive hne
  consAlive hne := absurd h.consAlive hne
  pSeenR hne := absurd h.pSeenR hne
  cSeenW hne := absurd h.cSeenW hne

/-- What has changed since `u` has changed since a state with the same ring. -/
theorem SameCore.ownersChanges_trans {s u t : State} (h : SameCore s u) (g : OwnersChanges u t) : OwnersChanges s t := by
  constructor
  case bytes => simpa only [h.byteAt] using g.bytes
  case mode => exact g.mode.trans h.mode
  case capacity => exact g.capacity.trans h.capacity
  case mask => exact g.mask.trans h.mask
  case phase => rw [← h.phase]; exact g.phase
  case writePos => rw [← h.writePos]; exact g.writePos
  case readPos => rw [← h.readPos]; exact g.readPos
  case prodAlive => rw [← h.prodAlive]; exact g.prodAlive
  case consAlive => rw [← h.consAlive]; exact g.consAlive
  case pSeenR => rw [← h.pSeenR]; exact g.pSeenR
  case cSeenW => rw [← h.cSeenW]; exact g.cSeenW

theorem sameCore_log_setPort (s : State) (a : Action) (p : Port) (x : PortState) : SameCore s ((s.log a).setPort p x) :=
  (sameCore_log s a).trans (sameCore_setPort _ p x)

/-- Once the ring is lost there is none. -/
theorem not_configured_of_lost (s : State) (p : Port) (x : PortState) : ¬ Configured (s.loseRing.setPort p x) := by
  simp [Configured, State.loseRing]

/-- A command changes what its port owns; creating and losing a ring do not happen while the ring exists. -/
theorem CommandEffect.ownersChanges {i : Instr} {s t : State} (h : CommandEffect i s t) (hs : Configured s) (ht : Configured t) :
    OwnersChanges s t := by
  cases h with
  | answers | starts => exact (sameCore_setPort _ _ _).ownersChanges
  | findsNoFrame => exact (sameCore_log_setPort _ _ _ _).ownersChanges
  | creates _ _ _ _ hp => exact absurd hp hs
  | dropsRing | dropsLastProducer | dropsLastConsumer => exact absurd ht (not_configured_of_lost _ _ _)
  | splits _ hport | dropsProducer _ hport | dropsConsumer _ hport => constructor <;> simp [State.byteAt, hport]
  | writes _ _ _ _ _ _ hport => constructor <;> simp [afterStore, hport]
  | reads _ _ _ _ _ _ _ _ _ hport => constructor <;> simp [afterRead, State.byteAt, hport]

/-- The next step of a port changes what the port owns. -/
theorem AdvanceEffect.ownersChanges {s t : State} (h : AdvanceEffect s t) (hi : BlockInv s) : OwnersChanges s t := by
  cases h with
  | idle => exact SameCore.ownersChanges (by constructor <;> rfl)
  | owesReason => exact (sameCore_setPort _ _ _).ownersChanges
  | handsOver | handsOverReason | p2Fails | p2Fits | c2None | c2Some | c3None | c3Some | c4 | q2Prod | q2Cons =>
    exact (sameCore_log_setPort _ _ _ _).ownersChanges
  | p1 f d hx =>
    have hport := (hi.at_prod hx id id).1
    constructor <;> simp [acqLoadReadPos, State.byteAt, hport]
  | p3 f w bytes hx =>
    have hport := (hi.at_prod hx id id).1
    constructor <;> simp [hport]
  | p4 f w need hx =>
    have hport := (hi.at_prod hx id id).1
    constructor <;> simp [relStoreWritePos, State.byteAt, hport]
  | c1 d hx =>
    have hport := (hi.at_cons hx id id).1
    constructor <;> simp [acqLoadWritePos, State.byteAt, hport]
  | c5 r header n payload hx =>
    have hport := (hi.at_cons hx id id).1
    constructor <;> simp [relStoreReadPos, State.byteAt, hport]
  | q1Prod q d hx hport => constructor <;> simp [acqLoadReadPos, State.byteAt, hport]
  | q1Cons q d hx hport =>
    have hport := (hi.cons_query hx hport id).1
    constructor <;> simp [acqLoadWritePos, State.byteAt, hport]

/-- While the ring exists a step changes what its port owns. -/
theorem step_ownersChanges {s t : State} (hi : BlockInv s) (hs : Configured s) (h : step s = .next t) (ht : Configured t) :
    OwnersChanges s t := by
  rcases step_effect h with ⟨-, rfl⟩ | ⟨p, bytes, rest, i, u, -, -, -, rfl, hu⟩ | ⟨p, rest, u, -, rfl, hu⟩
  · exact SameCore.ownersChanges (by constructor <;> rfl)
  · exact ((sameCore_at s p rest).trans (sameCore_log _ _)).ownersChanges_trans (hu.ownersChanges hs ht)
  · exact (sameCore_at s p rest).ownersChanges_trans (hu.ownersChanges (inv_at hi p rest))

/-- Settles O57: a step changes nothing of the ring but what belongs to its port. -/
theorem onlyTheOwnersPortWrites : Obligations.OnlyTheOwnersPortWrites := by
  intro s t hi hs h ht
  obtain ⟨hmode, hcap, hmask, hphase, hw, hr, hbytes, hpa, hca, hp, hc⟩ := step_ownersChanges hi hs h ht
  exact ⟨hmode, hcap, hmask, hphase, hw, hr, hbytes, hpa, hca, hp, hc⟩

end Sys2Proof.Safety
end

section
/-! SUPPORT. The register block as a view of the state (spec/10_state.md R31). -/

namespace Sys2Proof.Machine

open Safety

@[simp] theorem State.length_regBytes (s : State) (r : Reg) : (s.regBytes r).length = r.size := by
  cases r <;> simp [State.regBytes, bytesOfWord, Reg.size]

/-- A register has its own bytes, from its offset on. -/
theorem State.regByteIn_offset_add (s : State) (r : Reg) (o : Nat) : s.regByteIn r (r.offset + o) = (s.regBytes r)[o]? := by
  simp [State.regByteIn]

/-- A register has no byte at the offsets before it and behind it. -/
theorem State.regByteIn_eq_none (s : State) (r : Reg) {o : Nat} (h : o < r.offset ∨ r.offset + r.size ≤ o) :
    s.regByteIn r o = none := by
  rcases h with h | h
  · simp [State.regByteIn, Nat.not_le.2 h]
  · rw [State.regByteIn, if_pos (by omega), List.getElem?_eq_none]
    rw [State.length_regBytes]
    omega

/-- The registers do not overlap. -/
theorem Reg.disjoint {r q : Reg} (h : q ≠ r) : q.offset + q.size ≤ r.offset ∨ r.offset + r.size ≤ q.offset := by
  revert h
  cases r <;> cases q <;> decide

/-- The block has a register's bytes where the register stands. -/
theorem State.regByte_offset_add (s : State) (r : Reg) {o : Nat} (h : o < r.size) :
    s.regByte (r.offset + o) = (s.regBytes r)[o]? := by
  have hother : ∀ q, q ≠ r → s.regByteIn q (r.offset + o) = none := by
    intro q hq
    apply State.regByteIn_eq_none
    rcases Reg.disjoint hq with h | h <;> omega
  rw [← State.regByteIn_offset_add]
  cases r <;> simp [State.regByte, hother]

/-- The block has no byte in the three pads, where no register stands. -/
theorem State.regByte_pad (s : State) {o : Nat} (h : (0x008 ≤ o ∧ o < 0x080) ∨ (0x088 ≤ o ∧ o < 0x100) ∨ 0x111 ≤ o) :
    s.regByte o = none := by
  have hout : ∀ r : Reg, o < r.offset ∨ r.offset + r.size ≤ o := by
    intro r
    cases r <;> simp only [Reg.offset, Reg.size] <;> omega
  simp [State.regByte, State.regByteIn_eq_none, hout]

/-- `CONFIG` under the invariant: its values are the six of the table (R31). -/
theorem config_eq {s : State} (hi : BlockInv s) :
    s.config = match s.phase, s.mode, s.prodAlive, s.consAlive with
      | .unconfigured, _, _, _ => 0x00#8
      | .whole, .single, _, _ => 0x01#8
      | .whole, .spsc, _, _ => 0x05#8
      | .split, _, true, true => 0x1E#8
      | .split, _, false, _ => 0x16#8
      | .split, _, true, false => 0x0E#8 := by
  have hhandles := hi.whole_handles
  have hmode := hi.split_spsc
  have halive := hi.split_handle
  unfold State.config
  cases hp : s.phase with
  | unconfigured => rfl
  | whole =>
    obtain ⟨hpa, hca⟩ := hhandles (by simp [hp])
    rw [hpa, hca]
    cases s.mode <;> rfl
  | split =>
    rw [hmode hp]
    rcases halive hp with hpa | hca
    · rw [hpa]
      cases s.consAlive <;> rfl
    · rw [hca]
      cases s.prodAlive <;> rfl

/-- Settles O39: the byte at an offset is that of the one register that stands there, if one does. -/
theorem registerBlock : Obligations.RegisterBlock := by
  refine ⟨fun s => ⟨?_, ?_, ?_, ?_, ?_, ?_, ?_, ?_⟩, by decide, fun s hi => config_eq hi⟩
  · intro o ho
    have h := s.regByte_offset_add .writePos ho
    rwa [show Reg.writePos.offset + o = o from Nat.zero_add o] at h
  · exact fun o h1 h2 => s.regByte_pad (by omega)
  · intro o ho
    exact s.regByte_offset_add .readPos ho
  · exact fun o h1 h2 => s.regByte_pad (by omega)
  · intro o ho
    exact s.regByte_offset_add .capacity ho
  · intro o ho
    exact s.regByte_offset_add .mask ho
  · exact s.regByte_offset_add .config (o := 0) (by decide)
  · exact fun o h1 h2 => s.regByte_pad (by omega)

end Sys2Proof.Machine
end

section
/-! SUPPORT. The frame lifecycle (spec/10_state.md R39): how a step moves the counts of published and released bytes, and what that makes
of a frame. -/

namespace Sys2Proof.Safety

open Machine

/-! ## The counts and the pointers -/

theorem Counts.released_le {s : State} (h : Counts s) : s.released ≤ s.published := by
  rw [h.published_eq]
  exact Nat.le_add_right _ _

/-- `write_pos` is the count of published bytes without its wrap. -/
theorem Counts.writePos_eq {s : State} (h : Counts s) : s.writePos = BitVec.ofNat 64 s.published := by
  rw [h.published_eq, BitVec.ofNat_add, ← h.readPos_eq, Safety.writePos_eq]

@[simp] theorem totalSize_nil : totalSize [] = 0 := rfl

@[simp] theorem totalSize_cons (f : Frame) (fs : List Frame) : totalSize (f :: fs) = f.need.toNat + totalSize fs := by
  simp [totalSize]

@[simp] theorem totalSize_append (fs gs : List Frame) : totalSize (fs ++ gs) = totalSize fs + totalSize gs := by
  simp [totalSize]

/-- A frame held is readable: it lies between the pointers, behind the frames before it. -/
theorem Holds.readable {s : State} {before after : List Frame} {f : Frame} (h : Holds s (before ++ f :: after)) (hc : Counts s) :
    FrameReadable s (s.released + totalSize before) f.need.toNat := by
  have hused := h.used
  have hpub := hc.published_eq
  simp only [totalSize_append, totalSize_cons] at hused
  exact ⟨by omega, Nat.le_add_right _ _⟩

/-! ## How a step moves the counts -/

theorem not_p4_of_idle {x : PortState} (h : x = .idle) (f : Frame) (w : Word) : x ≠ .p4 f w := by
  rw [h]
  nofun

/-- Only in phase `Split` is a frame stored and not published. -/
theorem BlockInv.split_of_p4 {s : State} (hi : BlockInv s) {f : Frame} {w : Word} (hx : s.prod = .p4 f w) : s.phase = .split := by
  have hok := hi.prod_ok
  rw [hx] at hok
  exact hok.1

/-- What a step does to the two counts while the ring exists: nothing; it publishes, and then a frame stored and not published is what it
publishes; or it releases the oldest frame held. -/
inductive CountMove (s t : State) : Prop where
  | stays (hp : t.published = s.published) (hr : t.released = s.released) (hq : ∀ f w, s.prod = .p4 f w → t.prod = .p4 f w)
  | publishes (n : Nat) (hn : 0 < n) (hp : t.published = s.published + n) (hr : t.released = s.released)
      (hq : ∀ f w, s.prod = .p4 f w → f.need.toNat = n)
  | releases (f : Frame) (rest : List Frame) (hh : Holds s (f :: rest)) (hp : t.published = s.published)
      (hr : t.released = s.released + f.need.toNat) (hq : ∀ f w, s.prod = .p4 f w → t.prod = .p4 f w)

/-- A step at a port with no frame stored and unpublished leaves one there is elsewhere. -/
theorem p4_of_setPort {s u : State} {x : PortState} (hprod : u.prod = s.prod) (hx : ∀ f w, s.portState s.port ≠ .p4 f w) (f : Frame) (w : Word)
    (h : s.prod = .p4 f w) : (u.setPort s.port x).prod = .p4 f w := by
  have hport : s.port ≠ .prod := by
    intro hp
    rw [hp] at hx
    exact hx f w h
  simpa [hport, hprod] using h

/-- A step that leaves both pointers alone, at a port with no frame stored and unpublished. -/
theorem CountMove.of_setPort {s u : State} {x : PortState} (hp : u.published = s.published) (hr : u.released = s.released)
    (hprod : u.prod = s.prod) (hx : ∀ f w, s.portState s.port ≠ .p4 f w) : CountMove s (u.setPort s.port x) :=
  .stays (by simpa using hp) (by simpa using hr) (p4_of_setPort hprod hx)

/-- The counts moved since `u` have moved as far since a state with the same ring and the same write in progress. -/
theorem SameCore.countMove_trans {s u t : State} (h : SameCore s u) (hprod : u.prod = s.prod) (m : CountMove u t) : CountMove s t := by
  cases m with
  | stays hp hr hq => exact .stays (hp.trans h.published) (hr.trans h.released) (hprod ▸ hq)
  | publishes n hn hp hr hq => exact .publishes n hn (by rw [hp, h.published]) (hr.trans h.released) (hprod ▸ hq)
  | releases f rest hh hp hr hq =>
    exact .releases f rest ((h.holds _).1 hh) (hp.trans h.published) (by rw [hr, h.released]) (hprod ▸ hq)

/-- What a command, given to a port with nothing in progress, does to the counts. -/
theorem CommandEffect.countMove {i : Instr} {s t : State} (h : CommandEffect i s t) (hi : BlockInv s) (hs : Configured s)
    (ht : Configured t) (hidle : s.portState s.port = .idle) : CountMove s t := by
  have hx := not_p4_of_idle hidle
  cases h with
  | answers | starts | splits | dropsProducer | dropsConsumer | findsNoFrame => exact .of_setPort rfl rfl rfl hx
  | creates _ _ _ _ hp => exact absurd hp hs
  | dropsRing | dropsLastProducer | dropsLastConsumer => exact absurd ht (not_configured_of_lost _ _ _)
  | writes f bytes need _ hn _ hport =>
    rw [hport] at hx
    exact .publishes need.toNat (by rw [hn]; exact Nat.lt_of_lt_of_le (by decide) (need_pos f)) (by simp [afterStore])
      (by simp [afterStore]) (fun f w hp4 => absurd hp4 (hx f w))
  | reads header h n payload hh hd hn _ _ _ _ _ h16 =>
    obtain ⟨fs, hfs⟩ := hi.framed hs
    obtain ⟨f, rest, rfl, -, hneed, -, -⟩ := oldest_of_header hfs h16 hh
    rw [← hd, ← hn] at hneed
    refine .releases f rest hfs (by simp [afterRead]) ?_ ?_
    · rw [hneed]
      simp [afterRead]
    · exact p4_of_setPort (u := ((afterRead s (needOf n)).log _).log _) rfl hx

/-- The frame whose release is next is the oldest held. -/
theorem oldest_of_c5 {s : State} (hi : BlockInv s) {r : Word} {h : HeaderBits} {n : Half} {payload : List Byte}
    (hx : s.cons = .c5 r h n payload) : r = s.readPos ∧ ∃ f rest, Holds s (f :: rest) ∧ f.need = needOf n := by
  have hok := hi.cons_ok
  rw [hx] at hok
  obtain ⟨hp, -, hr, hn, hle, hread, -⟩ := hok
  obtain ⟨fs, hfs⟩ := hi.framed (split_configured hp)
  have hused : (needOf n).toNat ≤ s.used.toNat := BitVec.le_trans hle (hi.hist hp).behind_w
  rw [needOf_toNat] at hused
  obtain ⟨f, rest, rfl, -, hneed, -, -⟩ := oldest_of_header hfs (show 16 ≤ s.used.toNat by omega) hread.symm
  rw [headerOfBytes_headerBytes, ← hn] at hneed
  exact ⟨hr, f, rest, hfs, hneed⟩

/-- What the next step of a port does to the counts. -/
theorem AdvanceEffect.countMove {s t : State} (h : AdvanceEffect s t) (hi : BlockInv s) : CountMove s t := by
  cases h with
  | idle => exact .stays rfl rfl fun _ _ h => h
  | p4 f w need hx hn =>
    obtain ⟨hport, hprod, -, -, -, rfl, -⟩ := hi.at_prod hx id id
    refine .publishes need.toNat ?_ (by simp [relStoreWritePos]) (by simp [relStoreWritePos]) ?_
    · rw [hn]
      exact Nat.lt_of_lt_of_le (by decide) (need_pos f)
    · intro g v hg
      rw [hprod] at hg
      cases hg
      rw [hn]
  | c5 r h n payload hx =>
    obtain ⟨hport, hcons, -⟩ := hi.at_cons hx id id
    obtain ⟨rfl, f, rest, hfs, hneed⟩ := oldest_of_c5 hi hcons
    refine .releases f rest hfs (by simp [relStoreReadPos]) ?_ ?_
    · rw [hneed]
      simp [relStoreReadPos]
    · exact p4_of_setPort (u := relStoreReadPos _ s) rfl (by simp [hx])
  | handsOver _ hx | owesReason _ _ hx | handsOverReason _ _ hx | p1 _ _ hx | p2Fails _ _ hx | p2Fits _ _ hx | p3 _ _ _ hx | c1 _ hx
  | c2None _ hx | c2Some _ hx | c3None _ _ _ _ hx | c3Some _ _ _ _ _ hx | c4 _ _ _ _ hx | q1Prod _ _ hx | q1Cons _ _ hx
  | q2Prod _ _ hx | q2Cons _ _ hx =>
    exact .of_setPort rfl rfl rfl (by simp [hx])

/-- What a step does to the counts while the ring exists. -/
theorem step_countMove {s t : State} (hi : BlockInv s) (hs : Configured s) (h : step s = .next t) (ht : Configured t) : CountMove s t := by
  rcases step_effect h with ⟨-, rfl⟩ | ⟨p, bytes, rest, i, u, -, hready, -, rfl, hu⟩ | ⟨p, rest, u, -, rfl, hu⟩
  · exact .stays rfl rfl fun _ _ h => h
  · exact ((sameCore_at s p rest).trans (sameCore_log _ _)).countMove_trans rfl
      (hu.countMove (inv_log (inv_at hi p rest) _) hs ht (by simpa using idle_of_ready hready))
  · exact (sameCore_at s p rest).countMove_trans rfl (hu.countMove (inv_at hi p rest))

/-! ## What a move makes of a frame -/

theorem CountMove.absent {s t : State} (m : CountMove s t) {start : Nat} (h : FrameAbsent t start) : FrameAbsent s start := by
  obtain ⟨hle, hnot⟩ := h
  cases m with
  | publishes n hn hp => exact ⟨by omega, by omega⟩
  | stays hp _ hq | releases _ _ _ hp _ hq =>
    exact ⟨by omega, fun he f w hx => hnot (by omega) f w (hq f w hx)⟩

theorem CountMove.reserved {s t : State} (m : CountMove s t) (hc : Counts s) {start need : Nat} (h : FrameReserved s start need) :
    FrameReserved t start need ∨ FrameReadable t start need := by
  obtain ⟨hstart, f, w, hneed, hx⟩ := h
  have hle := hc.released_le
  cases m with
  | publishes n hn hp hr hq =>
    have := hq f w hx
    exact .inr ⟨by omega, by omega⟩
  | stays hp _ hq | releases _ _ _ hp _ hq => exact .inl ⟨by omega, f, w, hneed, hq f w hx⟩

theorem CountMove.consumed {s t : State} (m : CountMove s t) {start need : Nat} (h : FrameConsumed s start need) :
    FrameConsumed t start need := by
  unfold FrameConsumed at *
  cases m <;> omega

/-- Releasing the oldest frame held leaves the frames behind it readable. -/
theorem CountMove.readable {s t : State} (m : CountMove s t) (hc : Counts s) {before after : List Frame} {f : Frame}
    (h : Holds s (before ++ f :: after)) :
    FrameReadable t (s.released + totalSize before) f.need.toNat ∨ FrameConsumed t (s.released + totalSize before) f.need.toNat := by
  obtain ⟨hend, -⟩ := h.readable hc
  unfold FrameReadable FrameConsumed
  cases m with
  | stays | publishes => exact .inl ⟨by omega, by omega⟩
  | releases g rest hh hp hr =>
    have hfs := hh.unique h
    cases before with
    | nil =>
      obtain ⟨rfl, -⟩ := List.cons.inj hfs
      exact .inr (by simp [hr])
    | cons g' before =>
      obtain ⟨rfl, -⟩ := List.cons.inj hfs
      simp only [totalSize_cons] at hend ⊢
      exact .inl ⟨by omega, by omega⟩

/-! ## The steps of a frame's life -/

/-- P3 takes its frame from `Absent` to `Reserved`. -/
theorem p3_reserves {s t : State} {f : Frame} {w : Word} (hi : BlockInv s) (hport : s.port = .prod) (hx : s.prod = .p3 f w)
    (h : advance s = .next t) :
    w = BitVec.ofNat 64 s.published ∧ FrameAbsent s s.published ∧ FrameReserved t s.published f.need.toNat := by
  have hx' : s.portState s.port = .p3 f w := by rw [hport]; exact hx
  obtain ⟨-, -, hp, -, -, hw, -⟩ := hi.at_prod hx' id id
  refine ⟨by rw [hw]; exact (hi.counts (split_configured hp)).writePos_eq, ⟨Nat.le_refl _, fun _ f w => by simp [hx]⟩, ?_⟩
  cases advance_effect h with
  | p3 g v bytes hg =>
    rw [hx'] at hg
    cases hg
    exact ⟨by simp, f, w, rfl, by simp [hport]⟩
  | _ => simp_all

/-- P4 takes its frame from `Reserved` to `Readable`. -/
theorem p4_publishes {s t : State} {f : Frame} {w : Word} (hi : BlockInv s) (hport : s.port = .prod) (hx : s.prod = .p4 f w)
    (h : advance s = .next t) :
    w = BitVec.ofNat 64 s.published ∧ FrameReserved s s.published f.need.toNat ∧ FrameReadable t s.published f.need.toNat := by
  have hx' : s.portState s.port = .p4 f w := by rw [hport]; exact hx
  obtain ⟨-, -, hp, -, -, rfl, -⟩ := hi.at_prod hx' id id
  have hc := hi.counts (split_configured hp)
  refine ⟨hc.writePos_eq, ⟨rfl, f, _, rfl, hx⟩, ?_⟩
  cases advance_effect h with
  | p4 g v need hg hn =>
    rw [hx'] at hg
    cases hg
    rw [← hn]
    exact ⟨by simp [relStoreWritePos], by simpa [relStoreWritePos] using hc.released_le⟩
  | _ => simp_all

/-- C5 takes the frame it read from `Readable` to `Consumed`. -/
theorem c5_consumes {s t : State} {r : Word} {hd : HeaderBits} {n : Half} {b : List Byte} (hi : BlockInv s) (hport : s.port = .cons)
    (hx : s.cons = .c5 r hd n b) (h : advance s = .next t) :
    r = BitVec.ofNat 64 s.released ∧ FrameReadable s s.released (needOf n).toNat ∧ FrameConsumed t s.released (needOf n).toNat := by
  have hx' : s.portState s.port = .c5 r hd n b := by rw [hport]; exact hx
  obtain ⟨-, -, hp, -⟩ := hi.at_cons hx' id id
  have hc := hi.counts (split_configured hp)
  obtain ⟨rfl, f, rest, hfs, hneed⟩ := oldest_of_c5 hi hx
  refine ⟨hc.readPos_eq, by simpa [hneed] using hfs.readable (before := []) hc, ?_⟩
  cases advance_effect h with
  | c5 r' hd' n' b' hg =>
    rw [hx'] at hg
    cases hg
    simp [FrameConsumed, relStoreReadPos]
  | _ => simp_all

/-- One write in mode `SINGLE` takes its frame from `Absent` to `Readable`. -/
theorem write_single_makes_readable {s t : State} {ts : Word} {e fl : Byte} {n : Half} {payload : List Byte} (hi : BlockInv s)
    (hport : s.port = .prod) (hp : s.phase = .whole) (h : exec (.writeEvent ts e fl n payload) s = .next t)
    (ht : t.prod = .responding (.ok .empty)) :
    s.writePos = BitVec.ofNat 64 s.published ∧ FrameAbsent s s.published ∧ FrameReadable t s.published (16 + payload.length) := by
  have hc := hi.counts (by simp [Configured, hp])
  refine ⟨hc.writePos_eq, ⟨Nat.le_refl _, fun _ f w hx => by simpa [hp] using hi.split_of_p4 hx⟩, ?_⟩
  cases exec_command rfl h with
  | answers r _ _ hne => simp [hport, hne] at ht
  | starts x hsplit => simp [hp] at hsplit
  | writes f bytes need hb hn heq _ _ _ ha =>
    cases heq
    have hlen : need.toNat = 16 + f.payload.length := by
      simp only [Frame.agrees, decide_eq_true_eq] at ha
      rw [hn, Frame.need, needOf_toNat, ha]
    rw [← hlen]
    exact ⟨by simp [afterStore], by simpa [afterStore] using hc.released_le⟩
  | _ => contradiction

/-- One read in mode `SINGLE` takes its frame from `Readable` to `Consumed`. -/
theorem read_single_consumes {s t : State} {hd : HeaderBits} {payload : List Byte} (hi : BlockInv s) (hport : s.port = .cons)
    (hp : s.phase = .whole) (h : exec .readEvent s = .next t) (ht : t.cons = .responding (.ok (.event hd payload))) :
    s.readPos = BitVec.ofNat 64 s.released ∧ FrameReadable s s.released (16 + payload.length) ∧
      FrameConsumed t s.released (16 + payload.length) := by
  have hc := hi.counts (by simp [Configured, hp])
  refine ⟨hc.readPos_eq, ?_⟩
  cases exec_command rfl h with
  | answers r _ hf =>
    obtain rfl : r = .ok (.event hd payload) := by simpa [hport] using ht
    simp [frameOf] at hf
  | starts x hsplit => simp [hp] at hsplit
  | findsNoFrame => simp [hport] at ht
  | reads bytes hd' n payload' hb _ hn hl _ _ _ _ _ hu =>
    obtain ⟨-, rfl⟩ : hd' = hd ∧ payload' = payload := by simpa [hport] using ht
    have hlen : (needOf n).toNat = 16 + payload'.length := by rw [needOf_toNat, hl, State.length_readFrom]
    have hused : (needOf n).toNat ≤ s.used.toNat := hu
    have hpub := hc.published_eq
    rw [← hlen]
    exact ⟨⟨by omega, Nat.le_refl _⟩, by simp [FrameConsumed, afterRead]⟩
  | _ => contradiction

/-! ## The states of a frame exclude each other -/

/-- In mode `SINGLE` no frame is `Reserved`. -/
theorem not_reserved_single {s : State} (hi : BlockInv s) (hm : s.mode = .single) (start need : Nat) : ¬ FrameReserved s start need := by
  rintro ⟨-, f, w, -, hx⟩
  have hspsc := hi.split_spsc (hi.split_of_p4 hx)
  simp [hm] at hspsc

theorem FrameAbsent.exclusive {s : State} {start need : Nat} (h : FrameAbsent s start) (hc : Counts s) (hn : 0 < need) :
    ¬ FrameReserved s start need ∧ ¬ FrameReadable s start need ∧ ¬ FrameConsumed s start need := by
  obtain ⟨hle, hnot⟩ := h
  have hrel := hc.released_le
  refine ⟨?_, ?_, ?_⟩
  · rintro ⟨hstart, f, w, -, hx⟩
    exact hnot hstart f w hx
  · rintro ⟨hend, -⟩
    omega
  · unfold FrameConsumed
    omega

theorem FrameReserved.exclusive {s : State} {start need : Nat} (h : FrameReserved s start need) (hc : Counts s) (hn : 0 < need) :
    ¬ FrameReadable s start need ∧ ¬ FrameConsumed s start need := by
  obtain ⟨hstart, -⟩ := h
  have hrel := hc.released_le
  unfold FrameReadable FrameConsumed
  omega

theorem FrameReadable.exclusive {s : State} {start need : Nat} (h : FrameReadable s start need) (hn : 0 < need) :
    ¬ FrameConsumed s start need := by
  unfold FrameReadable FrameConsumed at *
  omega

/-- Settles O55: each step of a frame's life on its own, then what every step leaves of a frame's state, by how it moves the counts. -/
theorem framesLiveTheirLifecycle : Obligations.FramesLiveTheirLifecycle := by
  refine ⟨?_, ?_, ?_, ?_, ?_, ?_, ?_, ?_, ?_⟩
  · exact fun s t f w hi hport hx h => p3_reserves hi hport hx h
  · exact fun s t f w hi hport hx h => p4_publishes hi hport hx h
  · exact fun s t r hd n b hi hport hx h => c5_consumes hi hport hx h
  · exact fun s t ts e fl n payload hi hport hp _ h ht => write_single_makes_readable hi hport hp h ht
  · exact fun s t hd payload hi hport hp _ h ht => read_single_consumes hi hport hp h ht
  · exact fun s start need hi hm => not_reserved_single hi hm start need
  · intro s start need hi hs hn
    have hc := hi.counts hs
    exact ⟨fun h => h.exclusive hc hn, fun h => h.exclusive hc hn, fun h => h.exclusive hn⟩
  · intro s t start need hi hs h ht
    have m := step_countMove hi hs h ht
    exact ⟨m.absent, m.reserved (hi.counts hs), m.consumed⟩
  · intro s t before f after hi hs hfs h ht
    have hc := hi.counts hs
    exact ⟨hfs.readable hc, (step_countMove hi hs h ht).readable hc hfs⟩

end Sys2Proof.Safety
end

section
/-! SUPPORT. The region access primitives and the pointer access primitives of mode `SPSC`, each by what it changes and leaves
unchanged (spec/20_memory.md R68, R72 to R75, R78 to R80). -/

namespace Sys2Proof.Machine

/-- More bytes than the region has fault (log entry 17). -/
theorem memWrite_of_lt {pos : Word} {bytes : List Byte} {s : State} (h : s.capacity.toNat < bytes.length) :
    memWrite pos bytes s = .error .accessLongerThanRegion := if_pos h

theorem State.readFrom_getElem? (s : State) (p : Word) {n i : Nat} (hi : i < n) :
    (s.readFrom p n)[i]? = some (s.byteAt (s.offsetOf (p + BitVec.ofNat 64 i))) := by
  have hi' : i < (s.readFrom p n).length := by simpa using hi
  rw [List.getElem?_eq_getElem hi', State.readFrom_getElem]

/-- Counted from the start of the history, the element taken is the snapshot's or a newer one. -/
theorem acqPick_drop {hist : List Word} {seen : Nat} (h : seen < hist.length) (now : Word) (d : Nat) :
    hist[seen + (acqPick (hist.drop seen) now d).1]? = some (acqPick (hist.drop seen) now d).2 := by
  have hnewer : hist.drop seen ≠ [] := by simpa using h
  rw [← List.getElem?_drop]
  exact (acqPick_mem hnewer now d).2

/-- The draw `k - seen` takes element `k`. -/
theorem acqPick_drop_sub {hist : List Word} {seen k : Nat} (hseen : seen ≤ k) (hk : k < hist.length) (now : Word) :
    seen + (acqPick (hist.drop seen) now (k - seen)).1 = k := by
  have hlt : k - seen < (hist.drop seen).length := by
    rw [List.length_drop]
    omega
  simp only [acqPick, Nat.mod_eq_of_lt hlt, List.getElem?_eq_getElem hlt]
  omega

end Sys2Proof.Machine

namespace Sys2Proof.Safety

open Machine

/-! ## Physical offsets -/

theorem Geometry.offsetOf_eq_mod {s : State} (g : Geometry s) (p : Word) : s.offsetOf p = p.toNat % s.capacity.toNat := by
  obtain ⟨k, -, -, hk⟩ := g.capacity_pow
  rw [State.offsetOf, g.mask_eq, offset_of_mask hk]

theorem Geometry.offsetOf_lt {s : State} (g : Geometry s) (p : Word) : s.offsetOf p < s.capacity.toNat := by
  obtain ⟨k, -, -, hk⟩ := g.capacity_pow
  rw [g.offsetOf_eq_mod, hk]
  exact Nat.mod_lt _ (Nat.two_pow_pos k)

theorem Geometry.offsetOf_add_capacity {s : State} (g : Geometry s) (p : Word) : s.offsetOf (p + s.capacity) = s.offsetOf p := by
  obtain ⟨k, -, -, hk⟩ := g.capacity_pow
  have hwrap := offset_of_add hk p s.capacity.toNat
  rw [BitVec.ofNat_toNat, BitVec.setWidth_eq, Nat.add_mod_right] at hwrap
  rw [g.offsetOf_eq_mod p, State.offsetOf, g.mask_eq, hwrap]

theorem Geometry.offsetOf_ne {s : State} (g : Geometry s) (p : Word) {i j : Nat} (hij : i < j) (hj : j < i + s.capacity.toNat) :
    s.offsetOf (p + BitVec.ofNat 64 i) ≠ s.offsetOf (p + BitVec.ofNat 64 j) := by
  obtain ⟨k, -, -, hk⟩ := g.capacity_pow
  rw [State.offsetOf, State.offsetOf, g.mask_eq]
  exact offset_ne hk p hij hj

/-- Settles O38: masking with `capacity - 1` is taking the remainder by the power of two `capacity`. -/
theorem offsetsRepeatWithCapacity : Obligations.OffsetsRepeatWithCapacity := by
  intro s g
  exact ⟨fun p => ⟨g.offsetOf_eq_mod p, g.offsetOf_lt p, g.offsetOf_add_capacity p⟩, fun p _ _ hij hj => g.offsetOf_ne p hij hj⟩

/-! ## Storing and reading bytes -/

theorem readFrom_memWrite {s t : State} {pos : Word} {bytes : List Byte} (g : Geometry s) (h : memWrite pos bytes s = .ok t) :
    t.readFrom pos bytes.length = bytes := by
  obtain ⟨k, -, -, hk⟩ := g.capacity_pow
  obtain ⟨hlen, rfl⟩ := memWrite_ok h
  refine read_written hk g.mask_eq ?_ pos bytes hlen ?_ <;> rfl

theorem byteAt_memWrite {s t : State} {pos : Word} {bytes : List Byte} (g : Geometry s) (h : memWrite pos bytes s = .ok t)
    (i : Nat) (hi : i < bytes.length) : t.byteAt (s.offsetOf (pos + BitVec.ofNat 64 i)) = bytes[i] := by
  have hread := readFrom_memWrite g h
  have hmask : t.offsetOf (pos + BitVec.ofNat 64 i) = s.offsetOf (pos + BitVec.ofNat 64 i) := by
    obtain ⟨-, rfl⟩ := memWrite_ok h
    rfl
  rw [← hmask, ← State.readFrom_getElem t pos bytes.length i (by simpa using hi)]
  simp only [hread]

theorem byteAt_memWrite_of_not_touches {s t : State} {pos : Word} {bytes : List Byte} (h : memWrite pos bytes s = .ok t) {o : Nat}
    (ho : ¬ Touches s pos bytes.length o) : t.byteAt o = s.byteAt o := by
  obtain ⟨-, rfl⟩ := memWrite_ok h
  have hkept : Region.get? (writeFrom s.mask pos bytes s.region) o = Region.get? s.region o :=
    writeFrom_get?_of_not_touched _ _ _ _ _ fun i hi heq => ho ⟨i, hi, heq⟩
  simp [State.byteAt, hkept]

/-- Settles O35: the loop of `MemWrite` hits each of its offsets once, since no two of its positions are a `capacity` apart. -/
theorem memWriteStoresByteByByte : Obligations.MemWriteStoresByteByByte := by
  intro s pos bytes g
  refine ⟨fun hlen => ?_, memWrite_of_lt⟩
  have h := memWrite_of_le (pos := pos) hlen
  exact ⟨_, h, byteAt_memWrite g h, fun o ho => byteAt_memWrite_of_not_touches h ho, rfl⟩

/-- Settles O36: the read depends on the mask and the bytes, and both are as the write left them. -/
theorem readAfterWrite : Obligations.ReadAfterWrite := by
  intro s t u pos bytes g h hbytes hmask hcap
  obtain ⟨hlen, ht⟩ := memWrite_ok h
  have hread : u.readFrom pos bytes.length = bytes := by
    rw [State.readFrom_congr (s := t) pos bytes.length (by simpa [ht] using hmask) fun _ _ => hbytes _]
    exact readFrom_memWrite g h
  have hread' := memRead_of_le (pos := pos) (hlen.trans_eq (congrArg BitVec.toNat hcap.symm))
  rw [hread] at hread'
  exact ⟨_, hread'⟩

/-- Settles O37: a read within the region logs what it read, and a count of 0 is within every region. -/
theorem readsAndEmptyAccessesChangeNothing : Obligations.ReadsAndEmptyAccessesChangeNothing := by
  refine ⟨fun s pos n hn => ?_, fun s pos => ?_, fun s pos => ?_⟩
  · exact ⟨_, memRead_of_le hn, State.length_readFrom s pos n, fun i hi => State.readFrom_getElem? s pos hi⟩
  · exact ⟨_, memWrite_of_le (Nat.zero_le _), rfl⟩
  · exact ⟨_, memRead_of_le (Nat.zero_le _), rfl⟩

/-! ## Acquire-loads -/

/-- Settles O40: an acquire-load of either pointer takes an element of its history by the rule of `acqPick`. -/
theorem acquireLoadsDrawFromTheHistory : Obligations.AcquireLoadsDrawFromTheHistory := by
  refine ⟨fun s d h => ?_, fun s k hseen hk => ?_, fun s d h => ?_, fun s k hseen hk => ?_⟩
  · exact ⟨_, _, Nat.le_add_right _ _, acqPick_drop h s.readPos d, rfl⟩
  · exact ⟨k - s.pSeenAt, acqPick_drop_sub hseen hk s.readPos⟩
  · exact ⟨_, _, Nat.le_add_right _ _, acqPick_drop h s.writePos d, rfl⟩
  · exact ⟨k - s.cSeenAt, acqPick_drop_sub hseen hk s.writePos⟩

/-! ## Release stores -/

theorem relStoreWritePos_sameConfig (s : State) (v : Word) : SameConfig s (relStoreWritePos v s) := by constructor <;> rfl

theorem relStoreReadPos_sameConfig (s : State) (v : Word) : SameConfig s (relStoreReadPos v s) := by constructor <;> rfl

theorem relStoreWritePos_sameElsewhere (s : State) (v : Word) : SameElsewhere s (relStoreWritePos v s) where
  ports p _ := by cases p <;> rfl
  port := rfl
  inbox := rfl

theorem relStoreReadPos_sameElsewhere (s : State) (v : Word) : SameElsewhere s (relStoreReadPos v s) where
  ports p _ := by cases p <;> rfl
  port := rfl
  inbox := rfl

/-- Settles O41: the invariant has each history end with its pointer, and a release store writes its pointer's fields only. -/
theorem ownersLoadWhatTheyStored : Obligations.OwnersLoadWhatTheyStored := by
  refine ⟨fun s H => ⟨H.last_w.symm, H.last_r.symm⟩, fun s v => ?_, fun s v => ?_⟩
  · exact ⟨rfl, rfl, rfl, rfl, relStoreWritePos_sameConfig s v, fun _ => rfl, relStoreWritePos_sameElsewhere s v⟩
  · exact ⟨rfl, rfl, rfl, rfl, relStoreReadPos_sameConfig s v, fun _ => rfl, relStoreReadPos_sameElsewhere s v⟩

end Sys2Proof.Safety
end

section
/-! SUPPORT. Decoding what was encoded: each operand decoder gives back the fields it was given, and the code selects that decoder
(spec/30_encoding.md R100, R110 to R112). -/

namespace Sys2Proof

open Machine

/-! ## Operand fields -/

@[simp] theorem atEnd_nil (i : Instr) : atEnd [] i = .ok i := rfl

theorem decodeNew_operandBytes (mode : Mode) (c : Word) : decodeNew (Instr.new mode c).operandBytes = .ok (.new mode c) := by
  cases mode <;> simp [decodeNew, Instr.operandBytes, Mode.byte, field_byte, field_word']

theorem decodeWriteEvent_operandBytes (t : Word) (e f : Byte) (n : Half) (payload : List Byte) :
    decodeWriteEvent (Instr.writeEvent t e f n payload).operandBytes = .ok (.writeEvent t e f n payload) := by
  simp [decodeWriteEvent, Instr.operandBytes, field_word, field_byte, field_half]

theorem decodeTotalSize_operandBytes (n : Half) : decodeTotalSize (Instr.totalSize n).operandBytes = .ok (.totalSize n) := by
  simp [decodeTotalSize, Instr.operandBytes, field_half']

theorem decodeHeaderNew_operandBytes (t : Word) (e : Byte) (n : Half) :
    decodeHeaderNew (Instr.headerNew t e n).operandBytes = .ok (.headerNew t e n) := by
  simp [decodeHeaderNew, Instr.operandBytes, field_word, field_byte, field_half']

theorem decodeEncodeHeader_operandBytes (t : Word) (e f : Byte) (n : Half) :
    decodeEncodeHeader (Instr.encodeHeader t e f n).operandBytes = .ok (.encodeHeader t e f n) := by
  simp [decodeEncodeHeader, Instr.operandBytes, field_word, field_byte, field_half']

theorem decodeDecodeHeader_operandBytes (h : HeaderBits) :
    decodeDecodeHeader (Instr.decodeHeader h).operandBytes = .ok (.decodeHeader h) := by
  simp [decodeDecodeHeader, Instr.operandBytes, field_header']

/-- A code of no row is a request of its own (R113). -/
theorem decodeOperands_reservedCode {code : Byte} (h : commandCodes.contains code = false) (bs : List Byte) :
    decodeOperands code bs = .ok (.reservedCode code) := by
  simp [commandCodes] at h
  simp [decodeOperands, h]

/-! ## Responses and headers -/

theorem decodeOkFields_bytes (fields : OkFields) : decodeOkFields fields.shape fields.bytes = .ok (.rspOk fields) := by
  cases fields with
  | empty => rfl
  | event h payload => simp [decodeOkFields, OkFields.shape, OkFields.bytes, field_header]
  | size v => simp [decodeOkFields, OkFields.shape, OkFields.bytes, field_word']
  | header t e f n => simp [decodeOkFields, OkFields.shape, OkFields.bytes, field_word, field_byte, field_half']
  | encoded h => simp [decodeOkFields, OkFields.shape, OkFields.bytes, field_header']
  | decoded t e f n r => simp [decodeOkFields, OkFields.shape, OkFields.bytes, field_word, field_byte, field_half, field_res']
  | value v => simp [decodeOkFields, OkFields.shape, OkFields.bytes, field_word']
  | bit b => cases b <;> rfl

theorem decodeInvalidCapacity_operandBytes (c : Word) (reason : Reason) :
    decodeInvalidCapacity (Instr.rspInvalidCapacity c reason).operandBytes = .ok (.rspInvalidCapacity c reason) := by
  cases reason <;> simp [decodeInvalidCapacity, Instr.operandBytes, Reason.code, field_word, field_byte]

theorem decodeNotEnoughSpace_operandBytes (required available : Word) :
    decodeNotEnoughSpace (Instr.rspNotEnoughSpace required available).operandBytes = .ok (.rspNotEnoughSpace required available) := by
  simp [decodeNotEnoughSpace, Instr.operandBytes, field_word, field_word']

/-- The first byte of a timestamp, and the other seven. -/
theorem bytesOfWord_eq_cons (w : Word) : bytesOfWord w = w.setWidth 8 :: leBytes 7 (w.toNat / 256) := by
  simp [bytesOfWord, leBytes]

theorem decodeFrameHeader_encode (t : Word) (e f : Byte) (n : Half) (r : Reserved) :
    decodeFrameHeader (encode (.frameHeader t e f n r)) = .ok (.frameHeader t e f n r) := by
  have hbytes : encode (.frameHeader t e f n r) = bytesOfWord t ++ e :: f :: (bytesOfHalf n ++ bytesOfReserved r) := by
    simp [encode, Instr.code, Instr.operandBytes, bytesOfWord_eq_cons]
  simp [hbytes, decodeFrameHeader, field_word, field_byte, field_half, field_res']

/-! ## Items -/

/-- Settles O10: the code selects the decoder of its row, and that decoder gives back the operands; a well-formed reserved code is
that of no row. -/
theorem decodeOfEncode : Obligations.DecodeOfEncode := by
  intro i hwf
  cases i with
  | new mode c => exact decodeNew_operandBytes mode c
  | writeEvent t e f n payload => exact decodeWriteEvent_operandBytes t e f n payload
  | totalSize n => exact decodeTotalSize_operandBytes n
  | headerNew t e n => exact decodeHeaderNew_operandBytes t e n
  | encodeHeader t e f n => exact decodeEncodeHeader_operandBytes t e f n
  | decodeHeader h => exact decodeDecodeHeader_operandBytes h
  | reservedCode code => exact decodeOperands_reservedCode (by simpa [Instr.wf, Instr.code] using hwf) []
  | frameHeader t e f n r => exact decodeFrameHeader_encode t e f n r
  | rspOk fields => exact decodeOkFields_bytes fields
  | rspInvalidCapacity c reason => exact decodeInvalidCapacity_operandBytes c reason
  | rspNotEnoughSpace required available => exact decodeNotEnoughSpace_operandBytes required available
  | rspBadCommand cmd =>
    show field 1 [cmd] (fun c rest => atEnd rest (.rspBadCommand (BitVec.ofNat 8 c))) = _
    simp [field_byte]
  | split | dropRing | dropProducer | readEvent | dropConsumer | headerSize | used | free | isEmpty | rspNone | reasonTooSmall
  | reasonNotPowerOfTwo => rfl

/-- Settles O12: each word is a closed term, and the decoder is run on it. -/
theorem writtenOutWordsDecode : Obligations.WrittenOutWordsDecode := by
  refine ⟨?_, ?_, ?_, ?_, ?_, ?_, ?_, ?_⟩ <;> decide

end Sys2Proof
end

section
/-! SUPPORT. Parts of a little-endian value, and how many bytes a frame header has (spec/30_encoding.md R100, R107, R115). -/

namespace Sys2Proof.Machine

/-! ## Parts of a little-endian value -/

theorem fromLe_append (xs ys : List Byte) : fromLe (xs ++ ys) = fromLe xs + 256 ^ xs.length * fromLe ys := by
  induction xs with
  | nil => simp [fromLe]
  | cons x xs ih =>
    simp only [List.cons_append, fromLe, ih, List.length_cons, Nat.pow_succ']
    ring

/-- The bytes from offset `i` on. -/
theorem fromLe_drop {bs : List Byte} {i : Nat} (h : i ≤ bs.length) : fromLe (bs.drop i) = fromLe bs / 256 ^ i := by
  have hlen : (bs.take i).length = i := List.length_take_of_le h
  have hlt := fromLe_lt (bs.take i)
  have happ := fromLe_append (bs.take i) (bs.drop i)
  rw [hlen] at hlt happ
  rw [List.take_append_drop] at happ
  rw [happ, Nat.add_mul_div_left _ _ (by positivity), Nat.div_eq_of_lt hlt, Nat.zero_add]

/-- The first `n` bytes. -/
theorem fromLe_take {bs : List Byte} {n : Nat} (h : n ≤ bs.length) : fromLe (bs.take n) = fromLe bs % 256 ^ n := by
  have hlen : (bs.take n).length = n := List.length_take_of_le h
  have hlt := fromLe_lt (bs.take n)
  have happ := fromLe_append (bs.take n) (bs.drop n)
  rw [hlen] at hlt happ
  rw [List.take_append_drop] at happ
  rw [happ, Nat.add_mul_mod_self_left, Nat.mod_eq_of_lt hlt]

/-- The byte at offset `i`. -/
theorem getElem?_eq_fromLe {bs : List Byte} {i : Nat} (h : i < bs.length) :
    bs[i]? = some (BitVec.ofNat 8 (fromLe bs / 256 ^ i)) := by
  have hbyte := bs[i].isLt
  rw [← fromLe_drop h.le, List.drop_eq_getElem_cons h, List.getElem?_eq_getElem h]
  congr 1
  apply BitVec.eq_of_toNat_eq
  simp only [fromLe, BitVec.toNat_ofNat]
  omega

theorem length_of_takeLe {n v : Nat} {bs rest : List Byte} (h : takeLe n bs = some (v, rest)) : bs.length = n + rest.length := by
  induction n generalizing v bs with
  | zero =>
    simp only [takeLe, Option.some.injEq, Prod.mk.injEq] at h
    rw [h.2, Nat.zero_add]
  | succ n ih =>
    cases bs with
    | nil => cases h
    | cons b bs =>
      unfold takeLe at h
      split at h
      · rename_i heq
        simp only [Option.some.injEq, Prod.mk.injEq] at h
        obtain ⟨-, rfl⟩ := h
        rw [List.length_cons, ih heq, Nat.add_right_comm]
      · cases h

/-! ## The fields of 16 header bytes -/

theorem headerOfBytes_toNat {bs : List Byte} (hl : bs.length = 16) : (headerOfBytes bs).toNat = fromLe bs := by
  have hlt := fromLe_lt bs
  rw [hl] at hlt
  exact Nat.mod_eq_of_lt (by omega)

/-- The bits of the header from bit `8 * i` on are the bytes from offset `i` on. -/
theorem extractLsb'_headerOfBytes {bs : List Byte} (hl : bs.length = 16) (i n : Nat) :
    (headerOfBytes bs).extractLsb' (8 * i) n = BitVec.ofNat n (fromLe bs / 256 ^ i) := by
  apply BitVec.eq_of_toNat_eq
  rw [BitVec.extractLsb'_toNat, headerOfBytes_toNat hl, BitVec.toNat_ofNat, Nat.shiftRight_eq_div_pow, Nat.pow_mul]

end Sys2Proof.Machine

namespace Sys2Proof

open Machine

/-- A frame header has exactly 16 bytes. -/
theorem length_of_decode_hdr {bs : List Byte} {i : Instr} (h : decode .hdr bs = .ok i) : bs.length = 16 := by
  obtain ⟨t, r1, h1, h⟩ := field_ok h
  obtain ⟨e, r2, h2, h⟩ := field_ok h
  obtain ⟨f, r3, h3, h⟩ := field_ok h
  obtain ⟨n, r4, h4, h⟩ := field_ok h
  obtain ⟨r, r5, h5, h⟩ := field_ok h
  obtain ⟨rfl, -⟩ := atEnd_ok h
  rw [length_of_takeLe h1, length_of_takeLe h2, length_of_takeLe h3, length_of_takeLe h4, length_of_takeLe h5]
  rfl

/-- Settles O11: 16 bytes decode to the fields of the header value they are, and each field is the part of that value at its offset. -/
theorem everyHeaderDecodes : Obligations.EveryHeaderDecodes := by
  refine ⟨fun bs hl => ⟨_, _, _, _, _, decode_hdr bs hl, ?_, ?_, ?_, ?_, ?_⟩, fun bs hl i h => hl (length_of_decode_hdr h)⟩
  · rw [fromLe_take (by omega)]
    exact (congrArg BitVec.toNat (extractLsb'_headerOfBytes hl 0 64)).trans (by simp)
  · rw [getElem?_eq_fromLe (by omega)]
    exact congrArg some (extractLsb'_headerOfBytes hl 8 8).symm
  · rw [getElem?_eq_fromLe (by omega)]
    exact congrArg some (extractLsb'_headerOfBytes hl 9 8).symm
  · rw [fromLe_take (by simp [hl]), fromLe_drop (by omega)]
    exact congrArg BitVec.toNat (extractLsb'_headerOfBytes hl 10 16)
  · have hlt := fromLe_lt (bs.drop 12)
    rw [List.length_drop, hl, fromLe_drop (by omega)] at hlt
    rw [fromLe_drop (by omega)]
    exact (congrArg BitVec.toNat (extractLsb'_headerOfBytes hl 12 32)).trans (Nat.mod_eq_of_lt hlt)

end Sys2Proof
end

section
/-! SUPPORT. Which requests are executed, and which are answered `BAD_COMMAND` or refused (spec/30_encoding.md R109, R110, R113); how an
`INVALID_CAPACITY` response crosses its port (R111, R112). -/

namespace Sys2Proof.Safety

open Machine

/-! ## The legality checks decide the "legal when" column -/

theorem prodMay_iff (s : State) :
    s.prodMay = true ↔ (s.phase = .whole ∧ s.mode = .single) ∨ (s.phase = .split ∧ s.prodAlive = true) := by simp [State.prodMay]

theorem consMay_iff (s : State) :
    s.consMay = true ↔ (s.phase = .whole ∧ s.mode = .single) ∨ (s.phase = .split ∧ s.consAlive = true) := by simp [State.consMay]

theorem newLegal_iff (mode : Mode) (c : Word) (s : State) : s.newLegal = true ↔ Legal (.new mode c) s := by simp [State.newLegal, Legal]

theorem splitLegal_iff (s : State) : s.splitLegal = true ↔ Legal .split s := by simp [State.splitLegal, Legal, and_assoc]

theorem dropRingLegal_iff (s : State) : s.dropRingLegal = true ↔ Legal .dropRing s := by simp [State.dropRingLegal, Legal]

theorem writeLegal_iff (t : Word) (e f : Byte) (n : Half) (payload : List Byte) (s : State) :
    s.writeLegal = true ↔ Legal (.writeEvent t e f n payload) s := by simp [State.writeLegal, prodMay_iff, Legal]

theorem dropProducerLegal_iff (s : State) : s.dropProducerLegal = true ↔ Legal .dropProducer s := by
  simp [State.dropProducerLegal, Legal, and_assoc]

theorem readLegal_iff (s : State) : s.readLegal = true ↔ Legal .readEvent s := by simp [State.readLegal, consMay_iff, Legal]

theorem dropConsumerLegal_iff (s : State) : s.dropConsumerLegal = true ↔ Legal .dropConsumer s := by
  simp [State.dropConsumerLegal, Legal, and_assoc]

/-- A status query is legal where `WRITE_EVENT` or `READ_EVENT` is; `Legal` gives `USED`, `FREE` and `IS_EMPTY` one condition. -/
theorem queryLegal_iff (s : State) : s.queryLegal = true ↔ Legal .used s := by
  simp [State.queryLegal, State.writeLegal, State.readLegal, prodMay_iff, consMay_iff, Legal]

/-- A command whose legality check decides a condition that does not hold is answered `BAD_COMMAND`. -/
theorem whenLegal_of_not {legal : Bool} {P : Prop} (hiff : legal = true ↔ P) (h : ¬ P) (code : Byte) (op : Result) (s : State) :
    whenLegal legal code op s = .next (s.setPort s.port (.responding (.badCommand code))) :=
  whenLegal_of_not_legal (Bool.eq_false_iff.2 fun hl => h (hiff.1 hl)) code op s

/-- Legality comes first: an illegal command is answered `BAD_COMMAND` with its code, and nothing else changes. -/
theorem exec_of_not_legal {i : Instr} {s : State} (hcmd : i.format = .cmd) (h : ¬ Legal i s) :
    exec i s = .next (s.setPort s.port (.responding (.badCommand i.code))) := by
  cases i with
  | new mode c => exact whenLegal_of_not (newLegal_iff mode c s) h _ _ s
  | split => exact whenLegal_of_not (splitLegal_iff s) h _ _ s
  | dropRing => exact whenLegal_of_not (dropRingLegal_iff s) h _ _ s
  | writeEvent t e f n payload => exact whenLegal_of_not (writeLegal_iff t e f n payload s) h _ _ s
  | dropProducer => exact whenLegal_of_not (dropProducerLegal_iff s) h _ _ s
  | readEvent => exact whenLegal_of_not (readLegal_iff s) h _ _ s
  | dropConsumer => exact whenLegal_of_not (dropConsumerLegal_iff s) h _ _ s
  | used | free | isEmpty => exact whenLegal_of_not (queryLegal_iff s) h _ _ s
  | reservedCode code => rfl
  | headerSize | totalSize | headerNew | encodeHeader | decodeHeader => exact absurd trivial h
  | frameHeader | rspOk | rspNone | rspInvalidCapacity | rspNotEnoughSpace | rspBadCommand | reasonTooSmall | reasonNotPowerOfTwo =>
    cases hcmd

/-- The codes of no row are the five ranges of R113. -/
theorem reservedCode_iff_ranges (code : Byte) :
    commandCodes.contains code = false ↔
      (0x03#8 ≤ code ∧ code ≤ 0x0F#8) ∨ (0x12#8 ≤ code ∧ code ≤ 0x1F#8) ∨ (0x22#8 ≤ code ∧ code ≤ 0x2F#8) ∨
        (0x35#8 ≤ code ∧ code ≤ 0x3F#8) ∨ 0x43#8 ≤ code := by
  have hlt := code.isLt
  simp only [commandCodes, List.contains_eq_mem, decide_eq_false_iff_not, List.mem_cons, List.not_mem_nil, or_false, BitVec.toNat_eq,
    BitVec.le_def, BitVec.toNat_ofNat]
  omega

/-- Settles O13: each legality check decides its row's condition, and the table's codes leave five gaps. -/
theorem illegalCommandAnswersBadCommand : Obligations.IllegalCommandAnswersBadCommand :=
  ⟨fun _ _ hcmd h => exec_of_not_legal hcmd h, fun _ bs h => decodeOperands_reservedCode h bs, reservedCode_iff_ranges⟩

/-! ## Requests -/

/-- Bytes that are no request are refused (log entry 2). -/
theorem request_malformed {s : State} {bytes : List Byte} {e : DecodeError} (hr : s.ready s.port = true)
    (hd : decode .cmd bytes = .error e) : request bytes s = .refused .malformedRequest := by
  simp [request, hr, hd]

/-- Settles O7: a request at a ready port is executed when its bytes decode, and refused when they do not. -/
theorem stepRunsDecodedRequest : Obligations.StepRunsDecodedRequest := by
  intro s p bytes rest hb hready
  have hready' : (s.at p rest).ready (s.at p rest).port = true := (ready_at s p p rest).trans hready
  rw [step_request hb]
  exact ⟨fun i hd => request_ready hready' hd, fun e hd => request_malformed hready' hd⟩

/-! ## Handing over `INVALID_CAPACITY` -/

/-- A reason code that is due completes its response. -/
theorem handOverReason_of_due {s : State} {c : Word} {reason : Reason} (h : s.portState s.port = .reasonDue c reason) :
    handOverReason reason s = .next (s.deliver (.invalidCapacity c reason)) := by
  simp [handOverReason, h]

/-- A response handed over leaves its port idle and is recorded; nothing else changes. -/
theorem deliver_onlyPort (s : State) (r : Response) : OnlyPort s .idle [.response r] (s.deliver r) := rfl

/-- Settles O50: the status makes the reason code due, and the reason code hands the response over. -/
theorem invalidCapacityIsHandedOverWithItsReason : Obligations.InvalidCapacityIsHandedOverWithItsReason := by
  intro s c
  refine ⟨fun reason h => if_pos h, fun h => ?_, fun h => ?_⟩
  · exact ⟨_, handOverReason_of_due h, deliver_onlyPort s _⟩
  · exact ⟨_, handOverReason_of_due h, deliver_onlyPort s _⟩

end Sys2Proof.Safety
end

section
/-! SUPPORT. `READ_EVENT` in mode `SINGLE` takes the oldest frame, and `DRAIN` repeats it (spec/30_encoding.md R117, 41_ring_ops.md R147). -/

namespace Sys2Proof.Safety

open Machine

/-! ## One read -/

/-- In phase `Whole` and mode `SINGLE` a `READ_EVENT` at port `CONS` is one step. -/
theorem exec_readEvent_single {s : State} (hport : s.port = .cons) (hp : s.phase = .whole) (hm : s.mode = .single) :
    exec .readEvent s = readSingle s := by
  have hl : s.readLegal = true := (readLegal_iff s).2 ⟨hport, .inl ⟨hp, hm⟩⟩
  exact (whenLegal_of_legal hl _ _ s).trans (if_neg (by simp [hp]))

/-- A ring that holds no frame answers `NONE`. -/
theorem readSingle_of_holds_nil {s : State} (hh : Holds s []) : readSingle s = .next (s.setPort s.port (.responding .none)) := by
  have hlt : s.used < 16#64 := by
    show s.used.toNat < 16
    rw [hh.used]
    decide
  exact if_pos hlt

/-- What a read of the oldest frame leaves: `read_pos` is past it, and the two reads are recorded. -/
def afterOldest (s : State) (f : Frame) : State :=
  ((afterRead s f.need).log (.memRead s.readPos (headerBytes f.header))).log (.memRead (s.readPos + 16#64) f.payload)

/-- A ring that holds frames answers with the oldest. -/
theorem readSingle_of_holds_cons {s : State} {f : Frame} {fs : List Frame} (hi : BlockInv s) (hc : Configured s)
    (hh : Holds s (f :: fs)) :
    readSingle s = .next ((afterOldest s f).setPort s.port (.responding (.ok (.event f.header f.payload)))) ∧
      f.need.toNat ≤ s.used.toNat ∧ Holds (afterRead s f.need) fs := by
  have hcap := hi.used_le_nat hc
  have hpos : 0 < s.used.toNat := by
    have := need_pos f
    rw [hh.used, totalSize_cons]
    omega
  obtain ⟨g, rest, heq, -, hle, hhead, hpay, hrest⟩ := afterRead_holds hh hpos
  obtain ⟨rfl, rfl⟩ := List.cons.inj heq
  have hneed : f.need.toNat = 16 + f.payloadLen.toNat := needOf_toNat f.payloadLen
  refine ⟨?_, hle, hrest⟩
  have h16 : ¬ s.used < 16#64 := by
    show ¬ s.used.toNat < 16
    omega
  have hfits : ¬ s.used < needOf f.payloadLen := Nat.not_lt.2 hle
  rw [readSingle, if_neg h16, memRead_of_le (by omega), hhead]
  simp only [headerOfBytes_headerBytes, readPayloadSingle, f.payloadLen_header, if_neg hfits]
  rw [memRead_of_le (by show f.payloadLen.toNat ≤ s.capacity.toNat; omega), State.readFrom_log, hpay]
  rfl

/-! ## `DRAIN` -/

/-- A ring of mode `SINGLE` that holds these frames, at the port that reads it. -/
structure ReadableSingle (s : State) (fs : List Frame) : Prop where
  inv : BlockInv s
  holds : Holds s fs
  port : s.port = .cons
  phase : s.phase = .whole
  mode : s.mode = .single

theorem ReadableSingle.configured {s : State} {fs : List Frame} (h : ReadableSingle s fs) : Configured s := by
  simp [Configured, h.phase]

/-- A response that is given and taken at the read port leaves the ring as readable as it was. -/
theorem ReadableSingle.answered {s : State} {fs : List Frame} (h : ReadableSingle s fs) (r : Response) :
    ReadableSingle ((s.setPort .cons (.responding r)).deliver r) fs where
  inv := inv_setQuiet (inv_log (inv_setQuiet (x := .responding r) h.inv _ trivial) _) _ trivial
  holds := (((sameCore_setPort _ _ _).trans (sameCore_log _ _)).trans (sameCore_setPort _ _ _)).holds fs |>.2 h.holds
  port := by simpa using h.port
  phase := by simpa using h.phase
  mode := by simpa using h.mode

/-- Nothing to read: `NONE`. -/
theorem ReadableSingle.read_nil {s : State} (h : ReadableSingle s []) :
    exec .readEvent s = .next (s.setPort .cons (.responding .none)) := by
  rw [exec_readEvent_single h.port h.phase h.mode, readSingle_of_holds_nil h.holds, h.port]

/-- A read takes the oldest frame, and leaves the others to be read. -/
theorem ReadableSingle.read_cons {s : State} {f : Frame} {fs : List Frame} (h : ReadableSingle s (f :: fs)) :
    exec .readEvent s = .next ((afterOldest s f).setPort .cons (.responding (.ok (.event f.header f.payload)))) ∧
      ReadableSingle (afterOldest s f) fs := by
  obtain ⟨hread, hle, hrest⟩ := readSingle_of_holds_cons h.inv h.configured h.holds
  refine ⟨by rw [exec_readEvent_single h.port h.phase h.mode, hread, h.port], ?_, ?_, h.port, h.phase, h.mode⟩
  · exact inv_log (inv_log (afterRead_inv_single h.inv h.phase h.mode hle hrest) _) _
  · exact ((sameCore_log _ _).trans (sameCore_log _ _)).holds fs |>.2 hrest

theorem drain_of_none {s t : State} (h : exec .readEvent s = .next t) (ht : t.portState t.port = .responding .none) (n : Nat) :
    drain (n + 1) s = ([], t.deliver .none) := by
  simp only [drain, h, ht]

theorem drain_of_event {s t : State} {hd : HeaderBits} {payload : List Byte} (h : exec .readEvent s = .next t)
    (ht : t.portState t.port = .responding (.ok (.event hd payload))) (n : Nat) :
    drain (n + 1) s = ((hd, payload) :: (drain n (t.deliver (.ok (.event hd payload)))).1,
      (drain n (t.deliver (.ok (.event hd payload)))).2) := by
  simp only [drain, h, ht]

/-- A drain gives the first frames, as many as its limit, and leaves the rest. -/
theorem ReadableSingle.drain_eq {s : State} {fs : List Frame} (h : ReadableSingle s fs) (limit : Nat) :
    (drain limit s).1 = (fs.take limit).map (fun f => (f.header, f.payload)) ∧ Holds (drain limit s).2 (fs.drop limit) := by
  induction limit generalizing s fs with
  | zero => exact ⟨rfl, h.holds⟩
  | succ n ih =>
    cases fs with
    | nil =>
      rw [drain_of_none h.read_nil (by simp [h.port])]
      exact ⟨rfl, (h.answered .none).holds⟩
    | cons f fs =>
      obtain ⟨hread, hnext⟩ := h.read_cons
      obtain ⟨hgiven, hleft⟩ := ih (hnext.answered (.ok (.event f.header f.payload)))
      rw [drain_of_event (hd := f.header) (payload := f.payload) hread (by simp [hnext.port])]
      exact ⟨congrArg ((f.header, f.payload) :: ·) hgiven, hleft⟩

/-- A frame has at least 16 bytes. -/
theorem length_le_totalSize (fs : List Frame) : 16 * fs.length ≤ totalSize fs := by
  induction fs with
  | nil => exact Nat.le_refl 0
  | cons f fs ih =>
    have := need_pos f
    rw [totalSize_cons, List.length_cons]
    omega

/-- `DRAIN` without a limit has limit enough for every frame held. -/
theorem Holds.length_le {s : State} {fs : List Frame} (h : Holds s fs) : fs.length ≤ s.used.toNat / 16 + 1 := by
  have := length_le_totalSize fs
  rw [h.used]
  omega

/-- Settles O34: by induction on the limit, each `READ_EVENT` taking the oldest frame; without a limit the limit is large enough. -/
theorem pseudoOperationsExpand : Obligations.PseudoOperationsExpand := by
  refine ⟨fun ts e payload s hlen => ?_, fun _ => rfl, fun s fs limit hi hh hport hp hm => ?_, fun s fs hi hh hport hp hm => ?_⟩
  · exact ⟨_, rfl, Nat.mod_eq_of_lt hlen, rfl⟩
  · exact ReadableSingle.drain_eq ⟨hi, hh, hport, hp, hm⟩ limit
  · have hall := ReadableSingle.drain_eq ⟨hi, hh, hport, hp, hm⟩ (s.used.toNat / 16 + 1)
    rwa [List.take_of_length_le hh.length_le, List.drop_of_length_le hh.length_le] at hall

end Sys2Proof.Safety
end

section
/-! SUPPORT. The bytes of a header by field, and what `ENCODE_HEADER` and `DECODE_HEADER` answer (spec/40_framing.md R133 to R135). -/

namespace Sys2Proof.Machine

/-! ## The bytes of a header by field -/

/-- `le_n(v)` depends on the `n` low bytes of `v` only. -/
theorem leBytes_mod (n v : Nat) : leBytes n (v % 256 ^ n) = leBytes n v := by
  have h := leBytes_fromLe (leBytes n v)
  rwa [length_leBytes, fromLe_leBytes] at h

/-- The layout of R100: each field of a header at its byte offset. -/
theorem headerBytes_eq_fields (h : HeaderBits) :
    headerBytes h = leBytes 8 (headerTimestamp h).toNat ++ [headerEventType h] ++ [headerFlags h] ++
      leBytes 2 (headerPayloadLen h).toNat ++ leBytes 4 (headerReserved h).toNat := by
  have ht : (headerTimestamp h).toNat = h.toNat % 256 ^ 8 := by simp [headerTimestamp]
  have he : headerEventType h = BitVec.ofNat 8 (h.toNat / 2 ^ 64) := by rw [← Nat.shiftRight_eq_div_pow]; rfl
  have hf : headerFlags h = BitVec.ofNat 8 (h.toNat / 2 ^ 72) := by rw [← Nat.shiftRight_eq_div_pow]; rfl
  have hn : (headerPayloadLen h).toNat = h.toNat / 2 ^ 80 % 256 ^ 2 := by
    rw [← Nat.shiftRight_eq_div_pow]; exact BitVec.extractLsb'_toNat ..
  have hr : (headerReserved h).toNat = h.toNat / 2 ^ 96 % 256 ^ 4 := by
    rw [← Nat.shiftRight_eq_div_pow]; exact BitVec.extractLsb'_toNat ..
  rw [ht, he, hf, hn, hr, leBytes_mod, leBytes_mod, leBytes_mod, headerBytes, leBytes_header]
  simp [leBytes]

theorem headerBytes_packHeader (t : Word) (e f : Byte) (n : Half) (r : Reserved) :
    headerBytes (packHeader t e f n r) = leBytes 8 t.toNat ++ [e] ++ [f] ++ leBytes 2 n.toNat ++ leBytes 4 r.toNat := by
  rw [headerBytes_eq_fields, headerTimestamp_packHeader, headerEventType_packHeader, headerFlags_packHeader,
    headerPayloadLen_packHeader, headerReserved_packHeader]

/-- Bytes 12 to 15 of a header are its reserved bytes (R105). -/
theorem drop_headerBytes (h : HeaderBits) : (headerBytes h).drop 12 = leBytes 4 (headerReserved h).toNat := by
  rw [headerBytes_eq_fields]
  exact List.drop_left' (by simp)

theorem leBytes_reserved_eq_zero {r : Reserved} : leBytes 4 r.toNat = [0x00, 0x00, 0x00, 0x00] ↔ r = 0#32 := by
  refine ⟨fun h => BitVec.eq_of_toNat_eq ?_, fun h => by rw [h]; rfl⟩
  have hval : r.toNat % 256 ^ 4 = 0 := by rw [← fromLe_leBytes, h]; rfl
  exact (Nat.mod_eq_of_lt r.isLt).symm.trans hval

/-- Encoding the four meaningful fields of a header gives it back exactly when its reserved bytes are zero (R135). -/
theorem encodeHeader_fields_eq_iff (h : HeaderBits) :
    encodeHeader (headerTimestamp h) (headerEventType h) (headerFlags h) (headerPayloadLen h) = h ↔ headerReserved h = 0#32 := by
  constructor
  · intro heq
    rw [← heq, encodeHeader, headerReserved_packHeader]
  · intro hr
    rw [encodeHeader, ← hr, packHeader_fields]

/-! ## What `ENCODE_HEADER` and `DECODE_HEADER` answer -/

theorem exec_encodeHeader (t : Word) (e f : Byte) (n : Half) (s : State) :
    exec (.encodeHeader t e f n) s = .next (s.setPort s.port (.responding (.ok (.encoded (encodeHeader t e f n))))) :=
  finish_eq _ s

theorem exec_decodeHeader (h : HeaderBits) (s : State) :
    exec (.decodeHeader h) s = .next (s.setPort s.port (.responding (.ok (.decoded (headerTimestamp h) (headerEventType h)
      (headerFlags h) (headerPayloadLen h) (headerReserved h))))) :=
  finish_eq _ s

/-- What `ENCODE_HEADER` answers decodes to its operands, with reserved bytes zero (R135). -/
theorem exec_decodeHeader_encodeHeader (t : Word) (e f : Byte) (n : Half) (s : State) :
    exec (.decodeHeader (encodeHeader t e f n)) s =
      .next (s.setPort s.port (.responding (.ok (.decoded t e f n 0#32)))) := by
  rw [exec_decodeHeader, encodeHeader, headerTimestamp_packHeader, headerEventType_packHeader, headerFlags_packHeader,
    headerPayloadLen_packHeader, headerReserved_packHeader]

end Sys2Proof.Machine

namespace Sys2Proof

open Machine

/-! ## Framing -/

/-- Settles O25: `DECODE_HEADER` answers the fields the header decoder finds in the same 16 bytes (O11). -/
theorem decodeHeaderReadsTheFields : Obligations.DecodeHeaderReadsTheFields := by
  intro bs s hl
  have hbytes := headerBytes_headerOfBytes bs hl
  obtain ⟨_, _, _, _, _, hdecode, ht, he, hf, hn, -⟩ := everyHeaderDecodes.1 bs hl
  rw [decode_hdr bs hl] at hdecode
  cases hdecode
  refine ⟨headerOfBytes bs, _, _, _, _, _, hbytes, exec_decodeHeader _ s, ht, he, hf, hn, ?_⟩
  rw [← drop_headerBytes, hbytes]

/-- Settles O26: decoding an encoded header reads its fields back; encoding a decoded one zeroes bytes 12 to 15 and keeps the rest. -/
theorem headerRoundTrip : Obligations.HeaderRoundTrip := by
  refine ⟨fun t e f n s u => ⟨_, exec_encodeHeader t e f n s, exec_decodeHeader_encodeHeader t e f n u⟩, fun h s u => ?_⟩
  refine ⟨_, _, _, _, _, _, exec_decodeHeader h s, exec_encodeHeader _ _ _ _ u, ?_⟩
  rw [encodeHeader_fields_eq_iff, drop_headerBytes, leBytes_reserved_eq_zero]

/-- Settles O21: the operation is `finish` with size 16. -/
theorem headerSizeAnswersSixteen : Obligations.HeaderSizeAnswersSixteen :=
  fun s => finish_eq (.size 16#64) s

/-- Settles O22: the answer is `need`, whose value does not overflow. -/
theorem totalSizeAnswersSixteenMore : Obligations.TotalSizeAnswersSixteenMore :=
  fun n s => ⟨needOf n, finish_eq (.size (needOf n)) s, needOf_toNat n⟩

/-- Settles O23: the operation is `finish` with the operands and `flags` zero. -/
theorem headerNewZeroesFlags : Obligations.HeaderNewZeroesFlags :=
  fun t e n s => finish_eq (.header t e 0x00#8 n) s

/-- Settles O24: the answer is the header packed with reserved bytes zero, which has its fields at their offsets. -/
theorem encodeHeaderLaysOutTheFields : Obligations.EncodeHeaderLaysOutTheFields :=
  fun t e f n s => ⟨encodeHeader t e f n, exec_encodeHeader t e f n s, headerBytes_packHeader t e f n 0#32⟩

end Sys2Proof
end

section
/-! SUPPORT. `WRITE_EVENT` in mode `SINGLE`: one step that stores a frame and publishes it, when it fits; with the reads of the sections
before, the ring as a queue of frames (spec/41_ring_ops.md R146, R152 to R154). -/

namespace Sys2Proof.Safety

open Machine

/-! ## What setting a port leaves alone -/

@[simp] theorem byteAt_setPort (s : State) (p : Port) (x : PortState) (o : Nat) : (s.setPort p x).byteAt o = s.byteAt o :=
  (sameCore_setPort s p x).byteAt o

/-- An update of the ring after which the step's port is set leaves the other ports and the inputs alone. -/
theorem SameElsewhere.of_setPort {s u : State} {p : Port} {x : PortState} (hport : s.port = p)
    (hports : ∀ q, u.portState q = s.portState q) (hu : u.port = s.port) (hinbox : u.inbox = s.inbox) :
    SameElsewhere s (u.setPort p x) where
  ports q hne := by rw [State.portState_setPort, if_neg (hport ▸ hne), hports]
  port := by simpa using hu
  inbox := by simpa using hinbox

/-! ## One write -/

/-- In phase `Whole` and mode `SINGLE` a `WRITE_EVENT` at port `PROD` is legal. -/
theorem exec_writeEvent_single {s : State} (hport : s.port = .prod) (hp : s.phase = .whole) (hm : s.mode = .single) (f : Frame) :
    exec (.writeEvent f.timestamp f.eventType f.flags f.payloadLen f.payload) s = writeEvent f s :=
  whenLegal_of_legal ((writeLegal_iff f.timestamp f.eventType f.flags f.payloadLen f.payload s).2 ⟨hport, .inl ⟨hp, hm⟩⟩) _ _ s

/-- The precondition is that `payload_len` is the payload's length. -/
theorem Frame.agrees_iff {f : Frame} : f.agrees = true ↔ f.payloadLen.toNat = f.payload.length := by simp [Frame.agrees]

/-- A frame that agrees with its header is written in one step. -/
theorem writeEvent_of_agrees {s : State} {f : Frame} (ha : f.agrees = true) (hp : s.phase = .whole) : writeEvent f s = writeSingle f s := by
  simp [writeEvent, ha, hp]

/-- A frame that does not fit is answered `NOT_ENOUGH_SPACE`. -/
theorem writeSingle_of_full {s : State} {f : Frame} (hfull : s.free < f.need) :
    writeSingle f s = .next (s.setPort s.port (.responding (.notEnoughSpace f.need s.free))) := if_pos hfull

/-- What a write that fits leaves: the frame is stored, `write_pos` is past it, and the store is recorded. -/
def afterWrite (s : State) (f : Frame) : State := (afterStore s f.bytes f.need).log (.memWrite s.writePos f.bytes)

theorem Geometry.free_toNat {s : State} (g : Geometry s) : s.free.toNat = s.capacity.toNat - s.used.toNat :=
  BitVec.toNat_sub_of_le g.used_le

/-- A frame that fits the free space fits the region. -/
theorem Geometry.length_bytes_le {s : State} (g : Geometry s) {f : Frame} (ha : f.agrees = true) (hfits : f.need.toNat ≤ s.free.toNat) :
    f.bytes.length ≤ s.capacity.toNat := by
  rw [f.length_bytes ha]
  rw [g.free_toNat] at hfits
  omega

/-- A frame that fits is stored and published. -/
theorem writeSingle_of_fits {s : State} {f : Frame} (g : Geometry s) (ha : f.agrees = true) (hfits : f.need.toNat ≤ s.free.toNat) :
    writeSingle f s = .next ((afterWrite s f).setPort s.port (.responding (.ok .empty))) := by
  have hlen := g.length_bytes_le ha hfits
  unfold afterWrite
  rw [writeSingle, if_neg (BitVec.not_lt.2 hfits), memWrite_of_le hlen]
  generalize f.bytes = bytes
  generalize f.need = need
  rfl

/-- The bytes stored at `write_pos` read back from there. -/
theorem readFrom_afterStore {s : State} (g : Geometry s) (bytes : List Byte) (n : Word) (hlen : bytes.length ≤ s.capacity.toNat) :
    (afterStore s bytes n).readFrom s.writePos bytes.length = bytes := by
  obtain ⟨k, -, -, hk⟩ := g.capacity_pow
  exact read_written (t := afterStore s bytes n) hk g.mask_eq rfl s.writePos bytes hlen rfl

theorem readFrom_afterWrite {s : State} {f : Frame} (g : Geometry s) (hlen : f.bytes.length ≤ s.capacity.toNat) :
    (afterWrite s f).readFrom s.writePos f.bytes.length = f.bytes :=
  (State.readFrom_log _ _ _ _).trans (readFrom_afterStore g f.bytes f.need hlen)

theorem byteAt_afterWrite {s : State} {f : Frame} (hlen : f.bytes.length ≤ s.capacity.toNat) {o : Nat}
    (ho : ¬ Touches s s.writePos f.bytes.length o) : (afterWrite s f).byteAt o = s.byteAt o := by
  have hkept := byteAt_memWrite_of_not_touches (memWrite_of_le (pos := s.writePos) hlen) ho
  exact hkept

/-- The layout of the frame stored: the four meaningful header fields, four zero bytes, the payload (R105, R106). -/
theorem Frame.bytes_eq (f : Frame) :
    f.bytes = leBytes 8 f.timestamp.toNat ++ [f.eventType] ++ [f.flags] ++ leBytes 2 f.payloadLen.toNat ++ [0x00, 0x00, 0x00, 0x00] ++ f.payload := by
  rw [Frame.bytes, Frame.header, encodeHeader, headerBytes_packHeader]
  rfl

/-- Settles O27: the precondition, then the space test, then the store of the frame at `write_pos`. -/
theorem writeEventSingle : Obligations.WriteEventSingle := by
  intro s ts e fl n payload g hport hp hm
  have hexec := exec_writeEvent_single hport hp hm ⟨ts, e, fl, n, payload⟩
  have hneed : (Frame.need ⟨ts, e, fl, n, payload⟩).toNat = 16 + n.toNat := needOf_toNat n
  refine ⟨fun hne => ?_, fun hn hfull => ?_, fun hn hfits => ?_⟩
  · exact hexec.trans (if_pos (by simp [Frame.agrees, hne]))
  · rw [← hn, ← hneed] at hfull
    rw [hexec, writeEvent_of_agrees (Frame.agrees_iff.2 hn) hp, writeSingle_of_full hfull, hport]
    rfl
  · rw [← hn, ← hneed] at hfits ⊢
    have ha : (Frame.mk ts e fl n payload).agrees = true := Frame.agrees_iff.2 hn
    have hlen := g.length_bytes_le ha hfits
    rw [← Frame.length_bytes _ ha]
    refine ⟨_, hexec.trans ((writeEvent_of_agrees ha hp).trans (writeSingle_of_fits g ha hfits)), ?_⟩
    rw [hport]
    refine ⟨rfl, rfl, rfl, ?_, fun o ho => ?_, ?_, ?_, ?_, .of_setPort hport (fun q => by cases q <;> rfl) rfl rfl⟩
    · rw [State.readFrom_setPort, readFrom_afterWrite g hlen, Frame.bytes_eq]
    · rw [byteAt_setPort, byteAt_afterWrite hlen ho]
    · constructor <;> rfl
    · constructor <;> rfl
    · constructor <;> rfl

/-! ## The queue of frames -/

/-- A ring of mode `SINGLE` that holds these frames, at the port that writes it. -/
structure WritableSingle (s : State) (fs : List Frame) : Prop where
  inv : BlockInv s
  holds : Holds s fs
  port : s.port = .prod
  phase : s.phase = .whole
  mode : s.mode = .single

theorem WritableSingle.configured {s : State} {fs : List Frame} (h : WritableSingle s fs) : Configured s := by
  simp [Configured, h.phase]

theorem WritableSingle.geometry {s : State} {fs : List Frame} (h : WritableSingle s fs) : Geometry s := h.inv.geometry h.configured

/-- What is free is what the frames held leave of the capacity. -/
theorem WritableSingle.free_toNat {s : State} {fs : List Frame} (h : WritableSingle s fs) :
    s.free.toNat = s.capacity.toNat - totalSize fs := by
  rw [h.geometry.free_toNat, h.holds.used]

/-- A frame that is no larger than what is free joins the queue. -/
theorem WritableSingle.write {s : State} {fs : List Frame} {f : Frame} (h : WritableSingle s fs) (ha : f.agrees = true)
    (hfits : totalSize fs + f.need.toNat ≤ s.capacity.toNat) :
    exec (.writeEvent f.timestamp f.eventType f.flags f.payloadLen f.payload) s =
        .next ((afterWrite s f).setPort .prod (.responding (.ok .empty))) ∧
      WritableSingle (afterWrite s f) (fs ++ [f]) := by
  have hlen := f.length_bytes ha
  have hroom : s.used.toNat + f.bytes.length ≤ s.capacity.toNat := by rwa [h.holds.used, hlen]
  have hwrite := writeSingle_of_fits h.geometry ha (by rw [h.free_toNat]; omega)
  refine ⟨?_, ?_, ?_, h.port, h.phase, h.mode⟩
  · rw [exec_writeEvent_single h.port h.phase h.mode, writeEvent_of_agrees ha h.phase, hwrite, h.port]
  · exact inv_log (afterStore_inv_single h.inv h.phase h.mode ha f.bytes rfl f.need hlen hroom) _
  · obtain ⟨hagree, hunread⟩ := h.holds
    refine (sameCore_log _ _).holds _ |>.2 ⟨?_, ?_⟩
    · simpa [or_imp, forall_and, ha] using hagree
    · rw [afterStore_unread h.inv h.configured f.bytes f.need hlen hroom, hunread]
      simp

/-- A frame that is larger than what is free is not accepted. -/
theorem WritableSingle.accepted_iff {s : State} {fs : List Frame} {f : Frame} (h : WritableSingle s fs) (ha : f.agrees = true) :
    (∃ t, exec (.writeEvent f.timestamp f.eventType f.flags f.payloadLen f.payload) s = .next t ∧ t.prod = .responding (.ok .empty)) ↔
      f.need.toNat ≤ s.capacity.toNat - totalSize fs := by
  have hused := h.inv.used_le_nat h.configured
  rw [h.holds.used] at hused
  constructor
  · rintro ⟨t, hexec, ht⟩
    by_contra hlarge
    have hfull : s.free < f.need := by
      show s.free.toNat < f.need.toNat
      rw [h.free_toNat]
      omega
    rw [exec_writeEvent_single h.port h.phase h.mode, writeEvent_of_agrees ha h.phase, writeSingle_of_full hfull] at hexec
    cases hexec
    simp [h.port] at ht
  · exact fun hfits => ⟨_, (h.write ha (by omega)).1, by simp⟩

/-- Settles O31: the unread bytes are those of the frames held, and the space test compares with what they leave free. -/
theorem spaceIsExact : Obligations.SpaceIsExact := by
  intro s fs hi _ hh
  exact ⟨hh.used, fun hport hp hm f ha => WritableSingle.accepted_iff ⟨hi, hh, hport, hp, hm⟩ ha⟩

/-- Settles O32: a write stores its frame behind the unread bytes, a read takes the first of them. -/
theorem ringIsAQueueOfFrames : Obligations.RingIsAQueueOfFrames := by
  refine ⟨fun s fs f hi hh hport hp hm ha hfits => ?_, fun s fs f hi hh hport hp hm => ?_, fun s hi hh hport hp hm => ?_⟩
  · obtain ⟨hexec, hnext⟩ := WritableSingle.write ⟨hi, hh, hport, hp, hm⟩ ha hfits
    exact ⟨_, hexec, by simp, (sameCore_setPort _ _ _).holds _ |>.2 hnext.holds⟩
  · obtain ⟨hexec, hnext⟩ := ReadableSingle.read_cons ⟨hi, hh, hport, hp, hm⟩
    exact ⟨_, hexec, by simp, (sameCore_setPort _ _ _).holds _ |>.2 hnext.holds⟩
  · exact ReadableSingle.read_nil ⟨hi, hh, hport, hp, hm⟩

/-- A response that is given and taken at the write port leaves the ring as writable as it was. -/
theorem WritableSingle.answered {s : State} {fs : List Frame} (h : WritableSingle s fs) (r : Response) :
    WritableSingle ((s.setPort .prod (.responding r)).deliver r) fs where
  inv := inv_setQuiet (inv_log (inv_setQuiet (x := .responding r) h.inv _ trivial) _) _ trivial
  holds := (((sameCore_setPort _ _ _).trans (sameCore_log _ _)).trans (sameCore_setPort _ _ _)).holds fs |>.2 h.holds
  port := by simpa using h.port
  phase := by simpa using h.phase
  mode := by simpa using h.mode

theorem writeAll_cons {f : Frame} {fs : List Frame} {s t : State}
    (h : exec (.writeEvent f.timestamp f.eventType f.flags f.payloadLen f.payload) s = .next t)
    (ht : t.portState t.port = .responding (.ok .empty)) : writeAll (f :: fs) s = writeAll fs (t.deliver (.ok .empty)) := by
  simp only [writeAll, h, if_pos ht]

/-- Frames that fit together behind those held are all accepted. -/
theorem WritableSingle.writeAll {s : State} {held fs : List Frame} (h : WritableSingle s held) (ha : ∀ f ∈ fs, f.agrees = true)
    (hfits : totalSize held + totalSize fs ≤ s.capacity.toNat) : ∃ t, Safety.writeAll fs s = some t ∧ WritableSingle t (held ++ fs) := by
  induction fs generalizing s held with
  | nil => exact ⟨s, rfl, by simpa using h⟩
  | cons f fs ih =>
    rw [totalSize_cons] at hfits
    obtain ⟨hexec, hnext⟩ := h.write (ha f (by simp)) (by omega)
    obtain ⟨t, ht, hw⟩ := ih (hnext.answered (.ok .empty)) (fun g hg => ha g (by simp [hg]))
      (by simpa [afterWrite, afterStore, Nat.add_assoc] using hfits)
    exact ⟨t, by rw [writeAll_cons hexec (by simp [hnext.port]), ht], by simpa using hw⟩

/-- What a drain leaves is a ring to read from again. -/
theorem ReadableSingle.drained {s : State} {fs : List Frame} (h : ReadableSingle s fs) (limit : Nat) :
    ReadableSingle (drain limit s).2 (fs.drop limit) := by
  induction limit generalizing s fs with
  | zero => exact h
  | succ n ih =>
    cases fs with
    | nil =>
      rw [drain_of_none h.read_nil (by simp [h.port])]
      exact h.answered .none
    | cons f fs =>
      obtain ⟨hread, hnext⟩ := h.read_cons
      rw [drain_of_event (hd := f.header) (payload := f.payload) hread (by simp [hnext.port])]
      exact ih (hnext.answered _)

/-- An empty ring holds no frame. -/
theorem holds_nil_iff {s : State} : Holds s [] ↔ s.writePos = s.readPos := by
  constructor
  · intro h
    have hused : s.used.toNat = 0 := h.used
    simp only [State.used, usedOf] at hused
    bv_omega
  · intro h
    refine ⟨nofun, ?_⟩
    simp [unread, State.used, usedOf, h, State.readFrom]

/-- Settles O33: every write finds room, and a drain of as many frames gives them all and leaves none. -/
theorem fifoRoundTrip : Obligations.FifoRoundTrip := by
  intro s fs hi hp hm hempty ha hfits
  have hstart : WritableSingle { s with port := .prod } [] :=
    ⟨inv_at hi .prod s.inbox, holds_nil_iff.2 hempty, rfl, hp, hm⟩
  obtain ⟨t, hwritten, ht⟩ := hstart.writeAll ha (by simpa using hfits)
  have hread : ReadableSingle { t with port := .cons } fs :=
    ⟨inv_at ht.inv .cons t.inbox, (sameCore_at t .cons t.inbox).holds fs |>.2 ht.holds, rfl, ht.phase, ht.mode⟩
  have hgiven := (hread.drain_eq fs.length).1
  have hleft := hread.drained fs.length
  rw [List.take_length] at hgiven
  rw [List.drop_length] at hleft
  exact ⟨t, _, hwritten, Prod.ext hgiven rfl, decide_eq_true (holds_nil_iff.1 hleft.holds), hleft.read_nil⟩

end Sys2Proof.Safety
end

section
/-! SUPPORT. `READ_EVENT` in mode `SINGLE` by what the bytes at `read_pos` say, whatever they are, and the status queries in mode
`SINGLE` (spec/41_ring_ops.md R147 to R150). -/

namespace Sys2Proof.Safety

open Machine

/-! ## One read -/

/-- `payload_len` is the two bytes at offset 10 of a header (R100). -/
theorem headerPayloadLen_headerOfBytes {bs : List Byte} (hl : bs.length = 16) :
    (headerPayloadLen (headerOfBytes bs)).toNat = fromLe ((bs.drop 10).take 2) := by
  rw [fromLe_take (by simp [hl]), fromLe_drop (by omega)]
  exact congrArg BitVec.toNat (extractLsb'_headerOfBytes hl 10 16)

/-- Fewer bytes than a header has are no frame. -/
theorem readSingle_of_short {s : State} (h : s.used.toNat < 16) : readSingle s = .next (s.setPort s.port (.responding .none)) := if_pos h

/-- With 16 bytes to read, the header decides. -/
theorem readSingle_of_header {s : State} (g : Geometry s) (h16 : 16 ≤ s.used.toNat) :
    readSingle s = readPayloadSingle (headerOfBytes (s.readFrom s.readPos 16)) s (s.log (.memRead s.readPos (s.readFrom s.readPos 16))) := by
  have hcap : s.used.toNat ≤ s.capacity.toNat := g.used_le
  rw [readSingle, if_neg (BitVec.not_lt.2 h16), memRead_of_le (by omega)]

/-- A header whose frame is not wholly there is no frame. -/
theorem readPayloadSingle_of_cut {h : HeaderBits} {s t : State} (hcut : s.used.toNat < 16 + (headerPayloadLen h).toNat) :
    readPayloadSingle h s t = .next (t.setPort t.port (.responding .none)) := by
  rw [← needOf_toNat] at hcut
  exact if_pos hcut

/-- What a read of a whole frame leaves: `read_pos` is past it, and the two reads are recorded. -/
def afterWhole (s : State) (h : HeaderBits) (payload : List Byte) : State :=
  ((afterRead s (needOf (headerPayloadLen h))).log (.memRead s.readPos (s.readFrom s.readPos 16))).log
    (.memRead (s.readPos + 16#64) payload)

/-- A header whose frame is wholly there is read on. -/
theorem readPayloadSingle_of_whole {h : HeaderBits} {s : State} {payload : List Byte} (g : Geometry s)
    (hpay : payload = s.readFrom (s.readPos + 16#64) (headerPayloadLen h).toNat)
    (hwhole : 16 + (headerPayloadLen h).toNat ≤ s.used.toNat) :
    readPayloadSingle h s (s.log (.memRead s.readPos (s.readFrom s.readPos 16))) =
      .next ((afterWhole s h payload).setPort s.port (.responding (.ok (.event h payload)))) := by
  have hcap : s.used.toNat ≤ s.capacity.toNat := g.used_le
  have hneed : needOf (headerPayloadLen h) ≤ s.used := by
    show (needOf (headerPayloadLen h)).toNat ≤ s.used.toNat
    rwa [needOf_toNat]
  rw [readPayloadSingle, if_neg (BitVec.not_lt.2 hneed), memRead_of_le (by show _ ≤ s.capacity.toNat; omega), State.readFrom_log, ← hpay]
  rfl

/-- Settles O29: too few bytes for a header, a header whose frame is cut short, a whole frame. -/
theorem readEventSingle : Obligations.ReadEventSingle := by
  intro s g hport hp hm
  rw [exec_readEvent_single hport hp hm]
  refine ⟨fun hshort => hport ▸ readSingle_of_short hshort, fun h16 n hn => ?_⟩
  rw [readSingle_of_header g h16]
  have hbytes := headerBytes_headerOfBytes (s.readFrom s.readPos 16) (State.length_readFrom s s.readPos 16)
  have hlen := headerPayloadLen_headerOfBytes (State.length_readFrom s s.readPos 16)
  rw [← hn] at hlen
  generalize headerOfBytes (s.readFrom s.readPos 16) = h at hbytes hlen ⊢
  rw [← hlen]
  refine ⟨fun hcut => ⟨_, readPayloadSingle_of_cut hcut, rfl⟩, fun hwhole => ?_⟩
  refine ⟨_, h, s.readFrom (s.readPos + 16#64) (headerPayloadLen h).toNat, readPayloadSingle_of_whole g rfl hwhole, ?_⟩
  rw [hport]
  refine ⟨rfl, hbytes, rfl, ?_, rfl, fun _ => rfl, ?_, ?_, ?_, .of_setPort hport (fun q => by cases q <;> rfl) rfl rfl⟩
  · show s.readPos + needOf (headerPayloadLen h) = _
    rw [← needOf_toNat, BitVec.ofNat_toNat, BitVec.setWidth_eq]
  · constructor <;> rfl
  · constructor <;> rfl
  · constructor <;> rfl

/-! ## Status queries -/

/-- A legal status query outside phase `Split` answers at once. -/
theorem queryStatus_of_not_split {s : State} (hp : s.phase ≠ .split) (q : Query) :
    queryStatus q s = .next (s.setPort s.port (.responding (.ok (queryResult q s.capacity s.writePos s.readPos)))) := if_neg hp

/-- Settles O30: on either data port a query is legal, and it is one step outside phase `Split`. -/
theorem statusQueriesSingle : Obligations.StatusQueriesSingle := by
  intro s hport hp hm
  have hlegal : s.queryLegal = true :=
    (queryLegal_iff s).2 (hport.imp (fun h => ⟨h, .inl ⟨hp, hm⟩⟩) (fun h => ⟨h, .inl ⟨hp, hm⟩⟩))
  have hquery : ∀ code q, whenLegal s.queryLegal code (queryStatus q s) s = _ := fun code q =>
    (whenLegal_of_legal hlegal code _ s).trans (queryStatus_of_not_split (by simp [hp]) q)
  exact ⟨hquery _ .used, hquery _ .free, hquery _ .isEmpty⟩

end Sys2Proof.Safety
end

section
/-! SUPPORT. `NEW` and `DROP_RING` where they are legal (spec/41_ring_ops.md R140, R151), and the rows that are refused where nothing
is due (R141, 30_encoding.md R107). -/

namespace Sys2Proof.Safety

open Machine

/-! ## `NEW` -/

/-- In phase `Unconfigured` a `NEW` at port `CFG` is legal. -/
theorem exec_new_legal {s : State} (hport : s.port = .cfg) (hp : s.phase = .unconfigured) (mode : Mode) (c : Word) :
    exec (.new mode c) s = newRing mode c s :=
  whenLegal_of_legal ((newLegal_iff mode c s).2 ⟨hport, hp⟩) _ _ s

theorem isPowerOfTwo_iff (c : Word) : isPowerOfTwo c = true ↔ c &&& (c - 1#64) = 0#64 := decide_eq_true_iff

theorem beyondInstance_iff (c : Word) : beyondInstance c = true ↔ 2 ^ Config.kMax < c.toNat := decide_eq_true_iff

theorem newRing_of_small {mode : Mode} {c : Word} {s : State} (h : c < 16#64) :
    newRing mode c s = .next (s.setPort s.port (.responding (.invalidCapacity c .tooSmall))) := if_pos h

theorem newRing_of_not_pow {mode : Mode} {c : Word} {s : State} (h16 : 16#64 ≤ c) (h : c &&& (c - 1#64) ≠ 0#64) :
    newRing mode c s = .next (s.setPort s.port (.responding (.invalidCapacity c .notPowerOfTwo))) := by
  have hpow : isPowerOfTwo c = false := Bool.eq_false_iff.2 fun h2 => h ((isPowerOfTwo_iff c).1 h2)
  exact (if_neg (BitVec.not_lt.2 h16)).trans (if_pos (by simp [hpow]))

/-- A power of two of at least 16 is refused or gives a new ring, as `K_MAX` allows (R7, 93 U8). -/
theorem newRing_of_pow {mode : Mode} {c : Word} {s : State} (h16 : 16#64 ≤ c) (h : c &&& (c - 1#64) = 0#64) :
    newRing mode c s = if 2 ^ Config.kMax < c.toNat then .refused .capacityBeyondInstance
      else .next ((s.create mode c).setPort s.port (.responding (.ok .empty))) := by
  have hsmall : ¬ c < Config.minCapacity := BitVec.not_lt.2 h16
  simp only [newRing, if_neg hsmall, (isPowerOfTwo_iff c).2 h, beyondInstance_iff]
  rfl

/-- Settles O16: the four tests of `NEW` in their order, and the fields of the ring it creates. -/
theorem newCreatesRing : Obligations.NewCreatesRing := by
  intro mode c s hport hp
  rw [exec_new_legal hport hp]
  refine ⟨fun h => ?_, fun h16 h => ?_, fun h16 h hbeyond => ?_, fun h16 h hle => ?_⟩
  · rw [newRing_of_small h, hport]
  · rw [newRing_of_not_pow h16 h, hport]
  · rw [newRing_of_pow h16 h, if_pos hbeyond]
  · rw [newRing_of_pow h16 h, if_neg (Nat.not_lt.2 hle), hport]
    refine ⟨_, rfl, rfl, rfl, rfl, rfl, rfl, rfl, rfl, rfl, rfl, rfl, rfl, rfl, rfl, fun _ => rfl, ?_, ?_, ?_, ?_, rfl⟩
    · simp [State.used, usedOf, State.create]
    · simp [State.free, freeOf, usedOf, State.create]
    · simp [State.isEmpty, isEmptyOf, State.create]
    · exact .of_setPort hport (fun q => by cases q <;> rfl) rfl rfl

/-! ## `DROP_RING` -/

/-- While there is no ring, only `NEW` and the framing functions are legal (R110). -/
theorem legal_of_unconfigured {i : Instr} {s : State} (hp : s.phase = .unconfigured) (h : Legal i s) :
    (∃ m c, i = .new m c) ∨ i = .headerSize ∨ (∃ n, i = .totalSize n) ∨ (∃ a e n, i = .headerNew a e n) ∨
      (∃ a e f n, i = .encodeHeader a e f n) ∨ ∃ h, i = .decodeHeader h := by
  cases i with
  | new | headerSize | totalSize | headerNew | encodeHeader | decodeHeader => simp
  | split | dropRing | writeEvent | dropProducer | readEvent | dropConsumer | used | free | isEmpty => simp [Legal, hp] at h
  | reservedCode | frameHeader | rspOk | rspNone | rspInvalidCapacity | rspNotEnoughSpace | rspBadCommand | reasonTooSmall
  | reasonNotPowerOfTwo => exact h.elim

/-- Settles O18: the ring is lost and with it every command but `NEW` and the framing functions. -/
theorem dropRingEndsTheRing : Obligations.DropRingEndsTheRing := by
  intro s hport hp
  refine ⟨s.loseRing.setPort .cfg (.responding (.ok .empty)), ?_, rfl, rfl, rfl, rfl, rfl, ?_, rfl, ?_⟩
  · exact (whenLegal_of_legal ((dropRingLegal_iff s).2 ⟨hport, hp⟩) _ _ s).trans (by rw [← hport]; rfl)
  · exact .of_setPort hport (fun q => by cases q <;> rfl) rfl rfl
  · exact fun p i h => legal_of_unconfigured rfl h

/-! ## What is not due -/

theorem handOver_of_not_due {due : PortState} {s : State} (h : s.portState s.port ≠ due) (r : Response) :
    handOver due r s = .refused .responseNotDue := if_neg h

theorem handOverReason_of_not_due {reason : Reason} {s : State} (h : ∀ c, s.portState s.port ≠ .reasonDue c reason) :
    handOverReason reason s = .refused .responseNotDue := by
  unfold handOverReason
  split
  · rename_i c due hx
    exact if_neg fun hdue : due = reason => h c (hdue ▸ hx)
  · rfl

/-- Settles O51: each row tests what its port owes. -/
theorem whatIsNotDueIsRefused : Obligations.WhatIsNotDueIsRefused := by
  refine fun s => ⟨fun r h => ?_, fun reason h => ?_, fun h ts e fl n rv => ?_⟩
  · cases r with
    | invalidCapacity => exact if_neg h
    | ok | none | notEnoughSpace | badCommand => exact handOver_of_not_due h _
  · cases reason <;> exact handOverReason_of_not_due h
  · show execFrameHeader ts e fl n rv s = _
    unfold execFrameHeader
    split
    · rename_i w r hx
      exact absurd hx (h w r)
    · rfl

end Sys2Proof.Safety
end

section
/-! SUPPORT. Where a step acts: at one port, with what it records there, and what that port owes before and after (spec/41_ring_ops.md
R141, 42_spsc_ops.md R164). -/

namespace Sys2Proof.Safety

open Machine

/-! ## Acting at one port -/

/-- These actions are recorded at the step's port, and every other port is doing what it was doing. -/
structure ActsAtPort (s : State) (actions : List Action) (t : State) : Prop where
  port : t.port = s.port
  events : t.events = s.events ++ actions.map (Event.mk s.port)
  elsewhere : ∀ p, p ≠ s.port → t.portState p = s.portState p

/-- An update that leaves the ports alone, and then what the step's port is doing. -/
theorem ActsAtPort.of_setPort {s u : State} {actions : List Action} {x : PortState} (hport : u.port = s.port)
    (hevents : u.events = s.events ++ actions.map (Event.mk s.port)) (hports : ∀ p, u.portState p = s.portState p) :
    ActsAtPort s actions (u.setPort s.port x) where
  port := by simpa using hport
  events := by simpa using hevents
  elsewhere p hne := by rw [State.portState_setPort, if_neg hne, hports]

/-- Neither the acceptance of a request nor the hand-over of a response. -/
def Silent (a : Action) : Prop :=
  match a with
  | .request _ => False
  | .response _ => False
  | _ => True

theorem Starts.ne_idle {s : State} {x : PortState} (h : Starts s x) : x ≠ .idle := by
  cases h <;> nofun

/-- A command accepts no further request and hands over nothing; something is in progress or due at its port. -/
theorem CommandEffect.acts {i : Instr} {s t : State} (h : CommandEffect i s t) :
    ∃ actions, (∀ a ∈ actions, Silent a) ∧ ActsAtPort s actions t ∧ t.portState s.port ≠ .idle := by
  cases h with
  | answers | creates | splits | dropsRing | dropsProducer | dropsLastProducer | dropsConsumer | dropsLastConsumer =>
    exact ⟨[], nofun, .of_setPort rfl (by simp [State.create, State.loseRing]) fun p => by cases p <;> rfl, by simp⟩
  | starts x _ hx => exact ⟨[], nofun, .of_setPort rfl (by simp) fun _ => rfl, by simpa using hx.ne_idle⟩
  | writes f bytes =>
    exact ⟨[.memWrite s.writePos bytes], by simp [Silent], .of_setPort rfl rfl fun p => by cases p <;> rfl, by simp⟩
  | findsNoFrame header =>
    exact ⟨[.memRead s.readPos header], by simp [Silent], .of_setPort rfl rfl fun p => by cases p <;> rfl, by simp⟩
  | reads header h n payload =>
    exact ⟨[.memRead s.readPos header, .memRead (s.readPos + 16#64) payload], by simp [Silent],
      .of_setPort rfl (by simp [afterRead]) fun p => by cases p <;> rfl, by simp⟩

/-- What the next step of a port does there: nothing at an idle port; it goes on with what is in progress or due; or it hands over the
response. -/
inductive PortMove (s t : State) : Prop where
  | rests (ha : ActsAtPort s [] t) (hs : s.portState s.port = .idle) (ht : t.portState s.port = .idle)
  | goesOn (actions : List Action) (hq : ∀ a ∈ actions, Silent a) (ha : ActsAtPort s actions t) (hs : s.portState s.port ≠ .idle)
      (ht : t.portState s.port ≠ .idle)
  | handsOver (r : Response) (ha : ActsAtPort s [.response r] t) (hs : s.portState s.port ≠ .idle) (ht : t.portState s.port = .idle)

/-- One action of a step of a port, and what the port is doing then. -/
theorem PortMove.of_action {s u : State} {a : Action} {x : PortState} (hs : s.portState s.port ≠ .idle) (hx : x ≠ .idle) (hport : u.port = s.port)
    (hevents : u.events = s.events ++ [Event.mk s.port a]) (hq : Silent a) (hports : ∀ p, u.portState p = s.portState p) :
    PortMove s (u.setPort s.port x) :=
  .goesOn [a] (by simpa using hq) (.of_setPort hport hevents hports) hs (by simpa using hx)

theorem AdvanceEffect.portMove {s t : State} (h : AdvanceEffect s t) : PortMove s t := by
  cases h with
  | idle hx => exact .rests ⟨rfl, by simp, fun _ _ => rfl⟩ hx hx
  | handsOver r hx | handsOverReason c q hx => exact .handsOver _ (.of_setPort rfl rfl fun p => by simp) (by simp [hx]) (by simp)
  | owesReason c q hx => exact .goesOn [] nofun (.of_setPort rfl (by simp) fun _ => rfl) (by simp [hx]) (by simp)
  | p1 _ _ hx | p2Fails _ _ hx | p2Fits _ _ hx | p3 _ _ _ hx | p4 _ _ _ hx | c1 _ hx | c2None _ hx | c2Some _ hx | c3None _ _ _ _ hx
  | c3Some _ _ _ _ _ hx | c4 _ _ _ _ hx | c5 _ _ _ _ hx | q1Prod _ _ hx | q1Cons _ _ hx | q2Prod _ _ hx | q2Cons _ _ hx =>
    exact .of_action (by simp [hx]) nofun rfl rfl trivial fun p => by cases p <;> rfl

/-! ## Requests and responses counted -/

theorem countP_request_of_silent {actions : List Action} (h : ∀ a ∈ actions, Silent a) (p q : Port) :
    (actions.map (Event.mk p)).countP (isRequest q) = 0 := by
  simp only [List.countP_eq_zero, List.mem_map, forall_exists_index, and_imp]
  rintro _ a ha rfl
  have := h a ha
  cases a <;> simp_all [Silent, isRequest]

theorem countP_response_of_silent {actions : List Action} (h : ∀ a ∈ actions, Silent a) (p q : Port) :
    (actions.map (Event.mk p)).countP (isResponse q) = 0 := by
  simp only [List.countP_eq_zero, List.mem_map, forall_exists_index, and_imp]
  rintro _ a ha rfl
  have := h a ha
  cases a <;> simp_all [Silent, isResponse]

/-- What is recorded at one port is no request and no response of another. -/
theorem countP_other_port (actions : List Action) {p q : Port} (h : q ≠ p) :
    (actions.map (Event.mk p)).countP (isRequest q) = 0 ∧ (actions.map (Event.mk p)).countP (isResponse q) = 0 := by
  simp only [List.countP_eq_zero, List.mem_map, forall_exists_index, and_imp]
  constructor <;> rintro _ a - rfl <;> cases a <;> simp [isRequest, isResponse, h.symm]

/-- The balance is kept when the step's port owes one more for each request recorded there and one less for each response. -/
theorem Balanced.of_acts {s t : State} {actions : List Action} (hb : Balanced s) (ha : ActsAtPort s actions t)
    (hown : (actions.map (Event.mk s.port)).countP (isRequest s.port) + owed (s.portState s.port) =
      (actions.map (Event.mk s.port)).countP (isResponse s.port) + owed (t.portState s.port)) : Balanced t := by
  intro p
  have hp := hb p
  rw [ha.events, List.countP_append, List.countP_append]
  by_cases h : p = s.port
  · subst h
    omega
  · obtain ⟨hreq, hrsp⟩ := countP_other_port actions h
    rw [hreq, hrsp, ha.elsewhere p h]
    omega

theorem owed_idle {x : PortState} (h : x = .idle) : owed x = 0 := if_pos h

theorem owed_busy {x : PortState} (h : x ≠ .idle) : owed x = 1 := if_neg h

theorem PortMove.balanced {s t : State} (m : PortMove s t) (hb : Balanced s) : Balanced t := by
  cases m with
  | rests ha hs ht => exact hb.of_acts ha (by simp [hs, ht])
  | goesOn actions hq ha hs ht =>
    exact hb.of_acts ha (by rw [countP_request_of_silent hq, countP_response_of_silent hq, owed_busy hs, owed_busy ht])
  | handsOver r ha hs ht => exact hb.of_acts ha (by rw [owed_busy hs, owed_idle ht]; simp [isRequest, isResponse])

/-- A request accepted at an idle port, and then its command. -/
theorem CommandEffect.acts_request {i : Instr} {s t : State} (h : CommandEffect i (s.log (.request i)) t) :
    ∃ actions, (∀ a ∈ actions, Silent a) ∧ ActsAtPort s (.request i :: actions) t ∧ t.portState s.port ≠ .idle := by
  obtain ⟨actions, hq, ⟨hport, hevents, helse⟩, hbusy⟩ := h.acts
  exact ⟨actions, hq, ⟨hport, by simpa using hevents, fun p hne => by simpa using helse p hne⟩, hbusy⟩

/-- A balance over the same events and ports. -/
theorem Balanced.at {s : State} (hb : Balanced s) (p : Port) (rest : List Input) : Balanced (s.at p rest) := by
  intro q
  simpa using hb q

/-- Settles O6: a request leaves its port owing one response, and only the hand-over of a response leaves it owing none. -/
theorem stepKeepsOneResponsePerRequest : Obligations.StepKeepsOneResponsePerRequest := by
  intro s t hb h
  rcases step_effect h with ⟨-, rfl⟩ | ⟨p, bytes, rest, i, u, -, hready, -, rfl, hu⟩ | ⟨p, rest, u, -, rfl, hu⟩
  · exact hb
  · have hidle : (s.at p rest).portState (s.at p rest).port = .idle := by simpa using idle_of_ready hready
    obtain ⟨actions, hq, ha, hbusy⟩ := hu.acts_request
    refine (hb.at p rest).of_acts ha ?_
    rw [owed_idle hidle, owed_busy hbusy, List.map_cons, List.countP_cons, List.countP_cons, countP_request_of_silent hq,
      countP_response_of_silent hq]
    simp [isRequest, isResponse]
  · exact hu.portMove.balanced (hb.at p rest)

end Sys2Proof.Safety
end

section
/-! SUPPORT. An operation in progress in mode `SPSC` goes on to its response, whatever happens at the other ports (spec/41_ring_ops.md
R155, 42_spsc_ops.md R178). -/

namespace Sys2Proof.Safety

open Machine

/-! ## The next step of an operation exists -/

/-- With 16 bytes of region, step C3 reads a header and decides by it. -/
theorem stepC3_next {s : State} {w r : Word} (hx : s.portState s.port = .c3 w r) (hcap : 16 ≤ s.capacity.toNat) :
    ∃ t, stepC3 r s = .next t := by
  rw [stepC3, fetchHeader, memRead_of_le hcap]
  simp only [decode_hdr _ (State.length_readFrom s r 16), exec, execFrameHeader, State.portState_log, State.log_port, hx]
  split <;> exact ⟨_, rfl⟩

/-- A frame that passed the space test fits the region. -/
theorem BlockInv.p3_fits {s : State} (hi : BlockInv s) {f : Frame} {w : Word} (hx : s.portState s.port = .p3 f w) :
    f.bytes.length ≤ s.capacity.toNat := by
  obtain ⟨-, -, hp, -, ha, -, hroom⟩ := hi.at_prod hx id id
  have hfits := room_fits (hi.hist hp).behind_r (hi.hist hp).room_r hroom
  rw [f.length_bytes ha]
  omega

/-- A frame whose header is read fits the region. -/
theorem BlockInv.c4_fits {s : State} (hi : BlockInv s) {r : Word} {h : HeaderBits} {n : Half} (hx : s.portState s.port = .c4 r h n) :
    n.toNat ≤ s.capacity.toNat := by
  obtain ⟨-, -, hp, -, -, -, hle, -⟩ := hi.at_cons hx id id
  have hused : (needOf n).toNat ≤ s.used.toNat := BitVec.le_trans hle (hi.hist hp).behind_w
  have hcap := hi.used_le_nat (split_configured hp)
  rw [needOf_toNat] at hused
  omega

/-- An operation in progress can take its next step: no region access of it is out of range. -/
theorem advance_next {s : State} (hi : BlockInv s) (hbusy : 0 < stepsLeft (s.portState s.port)) : ∃ t, advance s = .next t := by
  unfold advance
  cases hx : s.portState s.port with
  | idle | responding | reasonDue => simp [hx, stepsLeft] at hbusy
  | p1 | p4 | c1 | c5 => exact ⟨_, rfl⟩
  | p2 f r =>
    simp only [stepP2]
    split <;> exact ⟨_, rfl⟩
  | p3 f w =>
    simp only [stepP3, memWrite_of_le (hi.p3_fits hx)]
    exact ⟨_, rfl⟩
  | c2 w =>
    simp only [stepC2]
    split <;> exact ⟨_, rfl⟩
  | c3 w r =>
    obtain ⟨-, -, hp, -⟩ := hi.at_cons hx id id
    obtain ⟨-, -, -, hcap, -⟩ := hi.cap (split_configured hp)
    exact stepC3_next hx hcap
  | c4 r h n =>
    simp only [stepC4, memRead_of_le (hi.c4_fits hx)]
    exact ⟨_, rfl⟩
  | q1 q =>
    simp only [stepQ1]
    split <;> exact ⟨_, rfl⟩
  | q2 q v =>
    simp only [stepQ2]
    split <;> exact ⟨_, rfl⟩

/-- The next step of an operation in progress brings it nearer to its response. -/
theorem AdvanceEffect.stepsLeft_lt {s t : State} (h : AdvanceEffect s t) (hbusy : 0 < stepsLeft (s.portState s.port)) :
    stepsLeft (t.portState s.port) < stepsLeft (s.portState s.port) ∧ t.portState s.port ≠ .idle := by
  cases h with
  | idle hx | handsOver _ hx | owesReason _ _ hx | handsOverReason _ _ hx => simp [hx, stepsLeft] at hbusy
  | p1 _ _ hx | p2Fails _ _ hx | p2Fits _ _ hx | p3 _ _ _ hx | p4 _ _ _ hx | c1 _ hx | c2None _ hx | c2Some _ hx | c3None _ _ _ _ hx
  | c3Some _ _ _ _ _ hx | c4 _ _ _ _ hx | c5 _ _ _ _ hx | q1Prod _ _ hx | q1Cons _ _ hx | q2Prod _ _ hx | q2Cons _ _ hx =>
    simp [hx, stepsLeft]

/-! ## Steps at one port and the others -/

theorem PortMove.acts {s t : State} (m : PortMove s t) : ∃ actions, ActsAtPort s actions t := by
  cases m with
  | rests ha | goesOn _ _ ha | handsOver _ ha => exact ⟨_, ha⟩

/-- A step leaves every port but its own doing what it was doing. -/
theorem step_portState_other {s t : State} (h : step s = .next t) {p : Port} (hne : p ≠ t.port) : t.portState p = s.portState p := by
  rcases step_effect h with ⟨-, rfl⟩ | ⟨q, bytes, rest, i, u, -, -, -, rfl, hu⟩ | ⟨q, rest, u, -, rfl, hu⟩
  · rfl
  · obtain ⟨_, _, ha, _⟩ := hu.acts
    rw [ha.port] at hne
    simpa using ha.elsewhere p hne
  · obtain ⟨_, ha⟩ := hu.portMove.acts
    rw [ha.port] at hne
    simpa using ha.elsewhere p hne

/-- What is in progress or due at a port stays until its next step is taken. -/
theorem step_at_busy {s t : State} (h : step s = .next t) {p : Port} (hbusy : s.portState p ≠ .idle) :
    t.portState p = s.portState p ∨ ∃ rest, AdvanceEffect (s.at p rest) t := by
  rcases step_effect h with ⟨-, rfl⟩ | ⟨q, bytes, rest, i, u, -, hready, -, rfl, hu⟩ | ⟨q, rest, u, -, rfl, hu⟩
  · exact .inl rfl
  · obtain ⟨_, _, ha, _⟩ := hu.acts
    have hne : p ≠ q := fun hpq => hbusy (hpq ▸ idle_of_ready hready)
    exact .inl (by simpa using ha.elsewhere p hne)
  · by_cases hpq : p = q
    · subst hpq
      exact .inr ⟨rest, hu⟩
    · obtain ⟨_, ha⟩ := hu.portMove.acts
      exact .inl (by simpa using ha.elsewhere p hpq)

end Sys2Proof.Safety
end

section
/-! SUPPORT. An operation in phase `Split` whose acquire-load was exact: while nothing is published and nothing released, a read that finds
a frame and a write that finds room stay in progress (spec/42_spsc_ops.md R168, R169, R178). -/

namespace Sys2Proof.Safety

open Machine

/-! ## Counts that no longer move -/

/-- From `s` to `t` nothing is published and nothing released. -/
structure SameCounts (s t : State) : Prop where
  published : t.published = s.published
  released : t.released = s.released

theorem SameCounts.readPos {s t : State} (h : SameCounts s t) (hs : Counts s) (ht : Counts t) : t.readPos = s.readPos := by
  rw [ht.readPos_eq, hs.readPos_eq, h.released]

theorem SameCounts.writePos {s t : State} (h : SameCounts s t) (hs : Counts s) (ht : Counts t) : t.writePos = s.writePos := by
  rw [ht.writePos_eq, hs.writePos_eq, h.published]

/-- A pointer moves together with its history. -/
structure HistoriesMove (s t : State) : Prop where
  histW : t.published = s.published → t.histW = s.histW
  histR : t.released = s.released → t.histR = s.histR

theorem CommandEffect.historiesMove {i : Instr} {s t : State} (h : CommandEffect i s t) (hs : Configured s) (ht : Configured t) :
    HistoriesMove s t := by
  cases h with
  | answers | starts | splits | dropsProducer | dropsConsumer | findsNoFrame | writes | reads =>
    constructor <;> exact fun _ => by simp [afterStore, afterRead]
  | creates _ _ _ _ hp => exact absurd hp hs
  | dropsRing | dropsLastProducer | dropsLastConsumer => exact absurd ht (not_configured_of_lost _ _ _)

theorem AdvanceEffect.historiesMove {s t : State} (h : AdvanceEffect s t) (hi : BlockInv s) : HistoriesMove s t := by
  cases h with
  | p4 f w need hx hn =>
    obtain ⟨-, -, -, -, -, rfl, -⟩ := hi.at_prod hx id id
    refine ⟨fun hsame => ?_, fun _ => by simp [relStoreWritePos]⟩
    have hzero : f.need.toNat = 0 := by simpa [relStoreWritePos, hn] using hsame
    exact absurd (need_pos f) (by omega)
  | c5 r hd n payload hx =>
    obtain ⟨-, -, -, -, rfl, -⟩ := hi.at_cons hx id id
    refine ⟨fun _ => by simp [relStoreReadPos], fun hsame => ?_⟩
    have hzero : (needOf n).toNat = 0 := by simpa [relStoreReadPos] using hsame
    exact absurd (needOf_toNat n) (by omega)
  | idle | handsOver | owesReason | handsOverReason | p1 | p2Fails | p2Fits | p3 | c1 | c2None | c2Some | c3None | c3Some | c4
  | q1Prod | q1Cons | q2Prod | q2Cons => constructor <;> exact fun _ => by simp [acqLoadReadPos, acqLoadWritePos]

theorem step_historiesMove {s t : State} (hi : BlockInv s) (hs : Configured s) (h : step s = .next t) (ht : Configured t) :
    HistoriesMove s t := by
  rcases step_effect h with ⟨-, rfl⟩ | ⟨p, bytes, rest, i, u, -, -, -, rfl, hu⟩ | ⟨p, rest, u, -, rfl, hu⟩
  · exact ⟨fun _ => rfl, fun _ => rfl⟩
  · obtain ⟨hw, hr⟩ := hu.historiesMove hs ht
    exact ⟨hw, hr⟩
  · obtain ⟨hw, hr⟩ := hu.historiesMove (inv_at hi p rest)
    exact ⟨hw, hr⟩

/-! ## The acquire-load of an operation -/

/-- Step C1 leaves what it loaded. -/
theorem step_of_c1 {s t : State} (h : step s = .next t) (hx : s.cons = .c1) (hne : t.cons ≠ .c1) :
    LoadsWritePos s t ∧ t.cons = .c2 t.cSeenW := by
  rcases step_at_busy (p := .cons) h (by simp [State.portState, hx]) with hstays | ⟨rest, hu⟩
  · exact absurd (hstays.trans hx) hne
  · cases hu with
    | c1 d => exact ⟨rfl, rfl⟩
    | _ => simp_all [State.portState]

/-- Step P1 leaves what it loaded. -/
theorem step_of_p1 {s t : State} {f : Frame} (h : step s = .next t) (hx : s.prod = .p1 f) (hne : t.prod ≠ .p1 f) :
    LoadsReadPos s t ∧ t.prod = .p2 f t.pSeenR := by
  rcases step_at_busy (p := .prod) h (by simp [State.portState, hx]) with hstays | ⟨rest, hu⟩
  · exact absurd (hstays.trans hx) hne
  · cases hu with
    | p1 g d hg =>
      obtain rfl : f = g := by simpa [State.portState, hx] using hg
      exact ⟨rfl, rfl⟩
    | _ => simp_all [State.portState]

/-! ## A read whose load is exact -/

/-- A `READ_EVENT` is in progress whose acquire-load returned `write_pos` itself, or it has found a frame already. -/
def ReadsAll (s : State) : Prop :=
  match s.cons with
  | .c2 w => w = s.writePos
  | .c3 w _ => w = s.writePos
  | .c4 _ _ _ => True
  | .c5 _ _ _ _ => True
  | _ => False

theorem ReadsAll.congr {s t : State} (h : ReadsAll s) (hx : t.cons = s.cons) (hw : t.writePos = s.writePos) : ReadsAll t := by
  simpa only [ReadsAll, hx, hw] using h

theorem ReadsAll.ne_idle {s : State} (h : ReadsAll s) : s.cons ≠ .idle := by
  intro hx
  simp [ReadsAll, hx] at h

theorem ReadsAll.ne_c1 {s : State} (h : ReadsAll s) : s.cons ≠ .c1 := by
  intro hx
  simp [ReadsAll, hx] at h

/-- A ring that is not empty holds a whole frame. -/
theorem used_ge_of_unread {s : State} (hi : BlockInv s) (hc : Configured s) (hne : s.released < s.published) : 16 ≤ s.used.toNat := by
  obtain ⟨fs, hfs⟩ := hi.framed hc
  have hpub := (hi.counts hc).published_eq
  obtain ⟨f, -, -, -, hle, -⟩ := afterRead_holds hfs (by omega)
  exact (need_pos f).trans hle

/-- The header at `read_pos` of a ring that is not empty is that of a frame wholly there. -/
theorem need_le_used {s : State} (hi : BlockInv s) (hc : Configured s) (h16 : 16 ≤ s.used.toNat) :
    needOf (headerPayloadLen (headerOfBytes (s.readFrom s.readPos 16))) ≤ s.used := by
  obtain ⟨fs, hfs⟩ := hi.framed hc
  obtain ⟨f, -, -, -, hneed, hle, -⟩ := oldest_of_header hfs h16 rfl
  rw [← hneed]
  exact hle

/-- The next step of such a read, while the ring is not empty, is on its way to the release, or is the release. -/
theorem AdvanceEffect.readsAll {s t : State} (h : AdvanceEffect s t) (hi : BlockInv s) (hport : s.port = .cons) (hc : Configured s)
    (hne : s.released < s.published) (hsame : SameCounts s t) (hr : ReadsAll s) : ReadsAll t := by
  have hx : s.portState s.port = s.cons := by rw [hport]; rfl
  have h16 := used_ge_of_unread hi hc hne
  cases h with
  | c2None w hw hu =>
    rw [hx] at hw
    obtain rfl : w = s.writePos := by simpa [ReadsAll, hw] using hr
    exact absurd hu (BitVec.not_lt.2 h16)
  | c2Some w hw hu =>
    rw [hx] at hw
    rw [hport]
    simpa [ReadsAll, hw] using hr
  | c3None w r header n hw hh hn hu =>
    obtain ⟨-, hcons, -, -, -, rfl, -⟩ := hi.at_cons hw id id
    obtain rfl : w = s.writePos := by simpa [ReadsAll, hcons] using hr
    rw [hn, hh] at hu
    exact absurd hu (BitVec.not_lt.2 (need_le_used hi hc h16))
  | c3Some | c4 => simp [ReadsAll, hport]
  | c5 r hd n payload hw =>
    obtain ⟨-, -, -, -, rfl, -⟩ := hi.at_cons hw id id
    have hzero : (needOf n).toNat = 0 := by simpa [relStoreReadPos] using hsame.released
    exact absurd (needOf_toNat n) (by omega)
  | _ => simp_all [ReadsAll]

/-- While the counts do not move and the ring is not empty, such a read stays in progress. -/
theorem step_readsAll {s t : State} (hi : BlockInv s) (hi' : BlockInv t) (hs : Configured s) (ht : Configured t) (h : step s = .next t)
    (hne : s.released < s.published) (hsame : SameCounts s t) (hr : ReadsAll s) : ReadsAll t := by
  rcases step_at_busy (p := .cons) h hr.ne_idle with hstays | ⟨rest, hu⟩
  · exact hr.congr hstays (hsame.writePos (hi.counts hs) (hi'.counts ht))
  · exact hu.readsAll (inv_at hi .cons rest) rfl hs hne ⟨hsame.published, hsame.released⟩ hr

/-! ## A write whose load is exact -/

/-- A `WRITE_EVENT` of a frame no larger than `capacity` is in progress whose acquire-load returned `read_pos` itself, or it has found
room already. -/
def WritesAll (s : State) : Prop :=
  match s.prod with
  | .p2 f r => r = s.readPos ∧ f.need ≤ s.capacity
  | .p3 _ _ => True
  | .p4 _ _ => True
  | _ => False

theorem WritesAll.congr {s t : State} (h : WritesAll s) (hx : t.prod = s.prod) (hr : t.readPos = s.readPos) (hc : t.capacity = s.capacity) :
    WritesAll t := by
  simpa only [WritesAll, hx, hr, hc] using h

theorem WritesAll.ne_idle {s : State} (h : WritesAll s) : s.prod ≠ .idle := by
  intro hx
  simp [WritesAll, hx] at h

theorem WritesAll.ne_p1 {s : State} (h : WritesAll s) (f : Frame) : s.prod ≠ .p1 f := by
  intro hx
  simp [WritesAll, hx] at h

/-- The next step of such a write, while the ring is empty, is on its way to the publication, or is the publication. -/
theorem AdvanceEffect.writesAll {s t : State} (h : AdvanceEffect s t) (hi : BlockInv s) (hport : s.port = .prod)
    (hempty : s.writePos = s.readPos) (hsame : SameCounts s t) (hw : WritesAll s) : WritesAll t := by
  have hx : s.portState s.port = s.prod := by rw [hport]; rfl
  cases h with
  | p2Fails f r hr hf =>
    rw [hx] at hr
    obtain ⟨rfl, hle⟩ : r = s.readPos ∧ f.need ≤ s.capacity := by simpa [WritesAll, hr] using hw
    simp only [freeOf, usedOf, hempty, BitVec.sub_self, BitVec.sub_zero] at hf
    exact absurd hf (BitVec.not_lt.2 hle)
  | p2Fits | p3 => simp [WritesAll, hport]
  | p4 f w need hr hn =>
    obtain ⟨-, -, -, -, -, rfl, -⟩ := hi.at_prod hr id id
    have hzero : f.need.toNat = 0 := by simpa [relStoreWritePos, hn] using hsame.published
    exact absurd (need_pos f) (by omega)
  | _ => simp_all [WritesAll]

/-- While the counts do not move and the ring is empty, such a write stays in progress. -/
theorem step_writesAll {s t : State} (hi : BlockInv s) (hi' : BlockInv t) (hs : Configured s) (ht : Configured t) (h : step s = .next t)
    (hempty : s.writePos = s.readPos) (hsame : SameCounts s t) (hw : WritesAll s) : WritesAll t := by
  rcases step_at_busy (p := .prod) h hw.ne_idle with hstays | ⟨rest, hu⟩
  · exact hw.congr hstays (hsame.readPos (hi.counts hs) (hi'.counts ht)) (step_ownersChanges hi hs h ht).capacity
  · exact hu.writesAll (inv_at hi .prod rest) rfl hempty ⟨hsame.published, hsame.released⟩ hw

end Sys2Proof.Safety
end

section
/-! SUPPORT. Fair runs in phase `Split` (spec/20_memory.md R87, 42_spsc_ops.md R178). Bounded counts settle, settled counts make the
acquire-loads exact, and an operation whose load is exact moves a count. -/

namespace Sys2Proof.Safety

open Machine

/-! ## Runs -/

/-- A run that starts from the invariant and stays in phase `Split`. -/
structure SplitRun (world : World) (run : Nat → State) : Prop where
  isRun : IsRun world run
  start : BlockInv (run 0)
  split : ∀ n, (run n).phase = .split

/-- From `n` on nothing is published and nothing released. -/
def SettledFrom (n : Nat) (run : Nat → State) : Prop := ∀ m, n ≤ m → SameCounts (run n) (run m)

/-- A bounded count that never falls is constant in the end. -/
theorem eventually_constant {f : Nat → Nat} {bound : Nat} (hmono : Monotone f) (hbound : ∀ n, f n ≤ bound) :
    ∃ n, ∀ m, n ≤ m → f m = f n := by
  have hbdd : BddAbove (Set.range f) := ⟨bound, by rintro _ ⟨n, rfl⟩; exact hbound n⟩
  obtain ⟨n, hn⟩ := Nat.sSup_mem (Set.range_nonempty f) hbdd
  exact ⟨n, fun m hm => ((le_csSup hbdd ⟨m, rfl⟩).trans_eq hn.symm).antisymm (hmono hm)⟩

theorem CountMove.le {s t : State} (m : CountMove s t) : s.published ≤ t.published ∧ s.released ≤ t.released := by
  cases m <;> omega

theorem SettledFrom.sameCounts_succ {run : Nat → State} {n m : Nat} (h : SettledFrom n run) (hm : n ≤ m) : SameCounts (run m) (run (m + 1)) where
  published := (h (m + 1) (by omega)).published.trans (h m hm).published.symm
  released := (h (m + 1) (by omega)).released.trans (h m hm).released.symm

section
variable {world : World} {run : Nat → State} (hrun : SplitRun world run)
include hrun

theorem SplitRun.configured (n : Nat) : Configured (run n) := split_configured (hrun.split n)

theorem SplitRun.inv (n : Nat) : BlockInv (run n) := by
  induction n with
  | zero => exact hrun.start
  | succ n ih => exact stepKeepsInvariant _ _ (inv_arrive ih _ _) (hrun.isRun n)

theorem SplitRun.counts (n : Nat) : Counts (run n) := (hrun.inv n).counts (hrun.configured n)

theorem SplitRun.countMove (n : Nat) : CountMove (run n) (run (n + 1)) :=
  (sameCore_arrive (run n) (world.inputs n) (world.draws n)).countMove_trans rfl
    (step_countMove (inv_arrive (hrun.inv n) _ _) (hrun.configured n) (hrun.isRun n) (hrun.configured (n + 1)))

theorem SplitRun.published_mono : Monotone fun n => (run n).published := monotone_nat_of_le_succ fun n => (hrun.countMove n).le.1

theorem SplitRun.released_mono : Monotone fun n => (run n).released := monotone_nat_of_le_succ fun n => (hrun.countMove n).le.2

/-- A run whose published bytes are bounded settles. -/
theorem SplitRun.settles {n bound : Nat} (hbound : ∀ m, n ≤ m → (run m).published ≤ bound) : ∃ k, n ≤ k ∧ SettledFrom k run := by
  have hall : ∀ m, (run m).published ≤ bound := fun m =>
    (hrun.published_mono (Nat.le_add_left m n)).trans (hbound _ (Nat.le_add_right n m))
  obtain ⟨i, hi⟩ := eventually_constant hrun.published_mono hall
  obtain ⟨j, hj⟩ := eventually_constant hrun.released_mono fun m => (hrun.counts m).released_le.trans (hall m)
  refine ⟨max n (max i j), le_max_left _ _, fun m hm => ?_⟩
  simp only [max_le_iff] at hm
  obtain ⟨-, him, hjm⟩ := hm
  exact ⟨(hi m him).trans (hi _ (by omega)).symm, (hj m hjm).trans (hj _ (by omega)).symm⟩

theorem SplitRun.historiesMove (n : Nat) : HistoriesMove (run n) (run (n + 1)) := by
  obtain ⟨hw, hr⟩ := step_historiesMove (inv_arrive (hrun.inv n) _ _) (hrun.configured n) (hrun.isRun n) (hrun.configured (n + 1))
  exact ⟨hw, hr⟩

/-- Once the counts are settled, so are the histories. -/
theorem SplitRun.histories_settled {n : Nat} (h : SettledFrom n run) (m : Nat) (hm : n ≤ m) :
    (run m).histW = (run n).histW ∧ (run m).histR = (run n).histR := by
  induction m, hm using Nat.le_induction with
  | base => exact ⟨rfl, rfl⟩
  | succ m hm ih =>
    have hsame := h.sameCounts_succ hm
    have hmove := hrun.historiesMove m
    exact ⟨(hmove.histW hsame.published).trans ih.1, (hmove.histR hsame.released).trans ih.2⟩

/-- Settled counts leave nothing unread for a consumer that polls for ever: a read whose load is exact would release it. -/
theorem SplitRun.nothing_unread {n : Nat} (h : SettledFrom n run) (hfair : FairToConsumer run) (hpolls : PollsForever run) :
    (run n).published ≤ (run n).released := by
  by_contra hne
  have hunread : ∀ m, n ≤ m → (run m).released < (run m).published := fun m hm => by
    rw [(h m hm).published, (h m hm).released]
    omega
  obtain ⟨k, hexact⟩ := hfair n fun m hm => (hrun.histories_settled h m hm).1
  obtain ⟨m, hm, hc1, hmoves⟩ := hpolls (max n k)
  simp only [max_le_iff] at hm
  obtain ⟨hload, hc2⟩ := step_of_c1 (hrun.isRun m) hc1 hmoves
  have hreads : ∀ j, m + 1 ≤ j → ReadsAll (run j) := by
    intro j hj
    induction j, hj using Nat.le_induction with
    | base => simpa [ReadsAll, hc2] using hexact m hm.2 hload
    | succ j hj ih =>
      obtain ⟨hp, hr⟩ := h.sameCounts_succ (m := j) (by omega)
      exact step_readsAll (inv_arrive (hrun.inv j) _ _) (hrun.inv (j + 1)) (hrun.configured j) (hrun.configured (j + 1)) (hrun.isRun j)
        (hunread j (by omega)) ⟨hp, hr⟩ ih
  obtain ⟨j, hj, hagain, -⟩ := hpolls (m + 1)
  exact (hreads j hj).ne_c1 hagain

/-- Settled counts and an empty ring leave no producer that retries: a write whose load is exact would publish. -/
theorem SplitRun.no_retries {n : Nat} (h : SettledFrom n run) (hempty : (run n).published ≤ (run n).released) (hfair : FairToProducer run)
    (hretries : ∀ k, n ≤ k →
      ∃ m, k ≤ m ∧ ∃ f, (run m).prod = .p1 f ∧ (run (m + 1)).prod ≠ .p1 f ∧ f.need ≤ (run m).capacity) : False := by
  have hpointers : ∀ m, n ≤ m → (run m).writePos = (run m).readPos := fun m hm => by
    have hle := (hrun.counts n).released_le
    rw [(hrun.counts m).writePos_eq, (hrun.counts m).readPos_eq, (h m hm).published, (h m hm).released, hempty.antisymm hle]
  obtain ⟨k, hexact⟩ := hfair n fun m hm => (hrun.histories_settled h m hm).2
  obtain ⟨m, hm, f, hp1, hmoves, hle⟩ := hretries (max n k) (le_max_left _ _)
  simp only [max_le_iff] at hm
  obtain ⟨hload, hp2⟩ := step_of_p1 (hrun.isRun m) hp1 hmoves
  have hcap : (run (m + 1)).capacity = (run m).capacity :=
    (step_ownersChanges (inv_arrive (hrun.inv m) _ _) (hrun.configured m) (hrun.isRun m) (hrun.configured (m + 1))).capacity
  have hwrites : ∀ j, m + 1 ≤ j → WritesAll (run j) := by
    intro j hj
    induction j, hj using Nat.le_induction with
    | base => simpa [WritesAll, hp2, hcap, hle] using hexact m hm.2 hload
    | succ j hj ih =>
      obtain ⟨hp, hr⟩ := h.sameCounts_succ (m := j) (by omega)
      exact step_writesAll (inv_arrive (hrun.inv j) _ _) (hrun.inv (j + 1)) (hrun.configured j) (hrun.configured (j + 1)) (hrun.isRun j)
        (hpointers j (by omega)) ⟨hp, hr⟩ ih
  obtain ⟨j, hj, g, hagain, -⟩ := hretries (m + 1) (by omega)
  exact (hwrites j hj).ne_p1 g hagain

/-- A consumer that polls for ever has in the end released all that was published at any time. -/
theorem SplitRun.eventually_released (hfair : FairToConsumer run) (hpolls : PollsForever run) (n : Nat) :
    ∃ m, n ≤ m ∧ (run n).published ≤ (run m).released := by
  by_contra hnever
  push Not at hnever
  have hbound : ∀ m, n ≤ m → (run m).published ≤ (run n).published + 2 ^ 64 := fun m hm => by
    have hrel := hnever m hm
    have hused := (run m).used.isLt
    rw [(hrun.counts m).published_eq]
    omega
  obtain ⟨k, hnk, hsettled⟩ := hrun.settles hbound
  have hall := hrun.nothing_unread hsettled hfair hpolls
  exact absurd ((hrun.published_mono hnk).trans hall) (Nat.not_le.2 (hnever k hnk))

/-- A producer that retries has in the end published. -/
theorem SplitRun.eventually_published (hcons : FairToConsumer run) (hprod : FairToProducer run) (hpolls : PollsForever run) {n : Nat}
    (hretries : RetriesFrom n run) : ∃ m, n ≤ m ∧ (run n).published < (run m).published := by
  by_contra hnever
  push Not at hnever
  obtain ⟨k, hnk, hsettled⟩ := hrun.settles hnever
  refine hrun.no_retries hsettled (hrun.nothing_unread hsettled hcons hpolls) hprod fun i hi => ?_
  obtain ⟨m, hm, hpub | hretry⟩ := hretries i (hnk.trans hi)
  · exact absurd hpub (Nat.not_lt.2 (hnever m (by omega)))
  · exact ⟨m, hm, hretry⟩

end

/-- Settles O56: the next step of an operation exists and is nearer to its end; along a fair run the counts could not settle before the
consumer has released and the producer has published. -/
theorem operationsFinish : Obligations.OperationsFinish := by
  refine ⟨fun s hi hbusy => ?_, fun s t h p hne => step_portState_other h hne, ?_, ?_⟩
  · obtain ⟨t, h⟩ := advance_next hi hbusy
    exact ⟨t, h, (advance_effect h).stepsLeft_lt hbusy⟩
  · exact fun world run hrun hi hsplit hfair hpolls n => SplitRun.eventually_released ⟨hrun, hi, hsplit⟩ hfair hpolls n
  · exact fun world run hrun hi hsplit hcons hprod hpolls n hretries =>
      SplitRun.eventually_published ⟨hrun, hi, hsplit⟩ hcons hprod hpolls hretries

end Sys2Proof.Safety
end

section
/-! SUPPORT. Where the frames are: received, in hand, unread, reserved (spec/42_spsc_ops.md R177, 20_memory.md R86). A step moves the frames
along this line, and only a store adds one, at its end. -/

namespace Sys2Proof.Safety

open Machine

/-! ## The record of frames -/

@[simp] theorem stored_log (s : State) (a : Action) : stored (s.log a) = stored s ++ storedBy ⟨s.port, a⟩ := by simp [stored]

@[simp] theorem received_log (s : State) (a : Action) : received (s.log a) = received s ++ receivedBy ⟨s.port, a⟩ := by simp [received]

@[simp] theorem stored_setPort (s : State) (p : Port) (x : PortState) : stored (s.setPort p x) = stored s := by simp [stored]

@[simp] theorem received_setPort (s : State) (p : Port) (x : PortState) : received (s.setPort p x) = received s := by simp [received]

/-- Only a hand-over gives a frame to the consuming agent. -/
theorem receivedBy_of_silent {a : Action} (h : Silent a) (p : Port) : receivedBy ⟨p, a⟩ = [] := by
  cases a with
  | request | response => exact h.elim
  | acqLoad | ownLoad | relStore | memWrite | memRead => cases p <;> rfl

@[simp] theorem inHand_responding (r : Response) : inHand (.responding r) = frameOf r := rfl

@[simp] theorem reserved_responding (r : Response) : reserved (.responding r) = [] := rfl

@[simp] theorem reserved_p4 (f : Frame) (w : Word) : reserved (.p4 f w) = [f.bytes] := rfl

@[simp] theorem reserved_p3 (f : Frame) (w : Word) : reserved (.p3 f w) = [] := rfl

/-! ## The frames unread -/

/-- Equal in everything that says where the frames are but the event record. -/
structure SameQueue (s u : State) : Prop where
  region : u.region = s.region
  mask : u.mask = s.mask
  regionSeed : u.regionSeed = s.regionSeed
  writePos : u.writePos = s.writePos
  readPos : u.readPos = s.readPos
  prod : u.prod = s.prod
  cons : u.cons = s.cons

theorem SameQueue.holds {s u : State} (h : SameQueue s u) {fs : List Frame} (hh : Holds s fs) : Holds u fs :=
  holds_congr h.writePos h.readPos (State.readFrom_eq h.region h.mask h.regionSeed) hh

theorem holds_setPort {s : State} {fs : List Frame} (hh : Holds s fs) (p : Port) (x : PortState) : Holds (s.setPort p x) fs :=
  ((sameCore_setPort s p x).holds fs).2 hh

theorem holds_log {s : State} {fs : List Frame} (hh : Holds s fs) (a : Action) : Holds (s.log a) fs := ((sameCore_log s a).holds fs).2 hh

/-- What passes the producer side's space test fits behind the unread bytes. -/
theorem BlockInv.need_fits {s : State} (hi : BlockInv s) (hp : s.phase = .split) {n : Word}
    (hroom : n ≤ freeOf s.capacity s.writePos s.pSeenR) : s.used.toNat + n.toNat ≤ s.capacity.toNat :=
  room_fits (hi.hist hp).behind_r (hi.hist hp).room_r hroom

/-- A store behind the unread bytes leaves the frames held unchanged. -/
theorem holds_withStored {s : State} {fs : List Frame} (hi : BlockInv s) (hc : Configured s) (hh : Holds s fs) {bytes : List Byte}
    (hfit : s.used.toNat + bytes.length ≤ s.capacity.toNat) : Holds (withStored s bytes) fs :=
  ⟨hh.1, (readFrom_of_stored (t := withStored s bytes) hi hc bytes hfit rfl rfl rfl _ (Nat.le_refl _)).trans hh.2⟩

/-- What was unread and then one frame more is the queue with that frame at its end. -/
theorem Holds.snoc {s t : State} {fs : List Frame} {f : Frame} (hh : Holds s fs) (ha : f.agrees = true)
    (hunread : unread t = unread s ++ f.bytes) : Holds t (fs ++ [f]) :=
  ⟨by simpa [or_imp, forall_and, ha] using hh.1, by rw [hunread, hh.2]; simp⟩

/-- Publishing the reserved frame puts it at the end of the queue. -/
theorem holds_withPublished {s : State} {fs : List Frame} {f : Frame} (hi : BlockInv s) (hc : Configured s) (hh : Holds s fs)
    (ha : f.agrees = true) (hfit : s.used.toNat + f.need.toNat ≤ s.capacity.toNat)
    (hread : s.readFrom s.writePos f.bytes.length = f.bytes) : Holds (withPublished s f.need) (fs ++ [f]) := by
  obtain ⟨-, -, -, -, hcap⟩ := hi.cap hc
  exact hh.snoc ha (published_unread f.need f.bytes (f.length_bytes ha) (by omega) hread)

/-- A header and a payload read at `read_pos` of a ring that is not empty are the oldest frame held, byte for byte. -/
theorem oldest_of_read {s : State} {fs : List Frame} (hh : Holds s fs) {h : HeaderBits} {n : Half} {payload : List Byte}
    (hn : n = headerPayloadLen h) (hused : needOf n ≤ s.used) (hhead : s.readFrom s.readPos 16 = headerBytes h)
    (hpay : s.readFrom (s.readPos + 16#64) n.toNat = payload) :
    ∃ f rest, fs = f :: rest ∧ f.bytes = headerBytes h ++ payload ∧ Holds (afterRead s (needOf n)) rest := by
  have hpos : 0 < s.used.toNat := by
    have : (needOf n).toNat ≤ s.used.toNat := hused
    rw [needOf_toNat] at this
    omega
  obtain ⟨f, rest, hfs, -, -, hhead', hpay', hrest⟩ := afterRead_holds hh hpos
  obtain rfl : f.header = h := by
    rw [← headerOfBytes_headerBytes f.header, ← hhead', hhead, headerOfBytes_headerBytes]
  rw [f.payloadLen_header] at hn
  subst hn
  exact ⟨f, rest, hfs, by rw [Frame.bytes, ← hpay, hpay'], hrest⟩

/-! ## Conserving the frames -/

/-- From `s`, where these frames are unread, to `t` the frames move along, and just those that are stored join them. -/
def Conserves (s : State) (fs : List Frame) (t : State) : Prop :=
  ∃ gs new, Holds t gs ∧ stored t = stored s ++ new ∧ flow t gs = flow s fs ++ new

/-- No frame is in hand at a port doing this, and none is reserved. -/
def NoFrame (x : PortState) : Prop := inHand x = [] ∧ reserved x = []

theorem noFrame_idle {x : PortState} (h : x = .idle) : NoFrame x := h ▸ ⟨rfl, rfl⟩

theorem Starts.noFrame {s : State} {x : PortState} (h : Starts s x) : NoFrame x := by cases h <;> exact ⟨rfl, rfl⟩

/-- A step that moves no frame. -/
theorem Conserves.of_setPort {s u : State} {x : PortState} {fs : List Frame} (hh : Holds s fs) (hq : SameQueue s u)
    (hstored : stored u = stored s) (hreceived : received u = received s) (hs : NoFrame (s.portState s.port)) (hx : NoFrame x) :
    Conserves s fs (u.setPort s.port x) := by
  refine ⟨fs, [], holds_setPort (hq.holds hh) _ _, by simpa using hstored, ?_⟩
  obtain ⟨hin, hres⟩ := hx
  obtain ⟨hin', hres'⟩ := hs
  cases hport : s.port <;> simp_all [flow, hq.prod, hq.cons, State.portState]

/-- The frame of a response, if it has one, goes from the port's hand to the agent. -/
theorem Conserves.of_handOver {s : State} {fs : List Frame} (hh : Holds s fs) {r : Response}
    (hin : inHand (s.portState s.port) = frameOf r) (hres : reserved (s.portState s.port) = []) :
    Conserves s fs ((s.log (.response r)).setPort s.port .idle) := by
  refine ⟨fs, [], holds_setPort (holds_log hh _) _ _, by simp [storedBy], ?_⟩
  cases hport : s.port <;> simp_all [flow, State.portState, receivedBy, inHand, reserved]

/-- A step with one action that moves no frame. -/
theorem Conserves.of_action {s u : State} {x : PortState} {fs : List Frame} (hh : Holds s fs) (hq : SameQueue s u) {a : Action}
    (hevents : u.events = s.events ++ [⟨s.port, a⟩]) (ha : Silent a) (hstores : storedBy ⟨s.port, a⟩ = [])
    (hs : NoFrame (s.portState s.port)) (hx : NoFrame x) : Conserves s fs (u.setPort s.port x) :=
  .of_setPort hh hq (by simp [stored, hevents, hstores]) (by simp [received, hevents, receivedBy_of_silent ha]) hs hx

/-- The oldest frame goes from the ring into the hand of port `CONS`. -/
theorem Conserves.of_read {s u : State} {f : Frame} {rest : List Frame} {h : HeaderBits} {payload : List Byte} (hport : s.port = .cons)
    (hin : inHand s.cons = []) (hprod : u.prod = s.prod) (hstored : stored u = stored s) (hreceived : received u = received s)
    (hrest : Holds u rest) (hf : f.bytes = headerBytes h ++ payload) :
    Conserves s (f :: rest) (u.setPort s.port (.responding (.ok (.event h payload)))) := by
  refine ⟨rest, [], holds_setPort hrest _ _, by simpa using hstored, ?_⟩
  simp [flow, hport, hin, hprod, hreceived, hf, frameOf]

/-- A command, given to a port with nothing in progress, conserves the frames. -/
theorem CommandEffect.conserves {i : Instr} {s t : State} {fs : List Frame} (h : CommandEffect i s t) (hi : BlockInv s)
    (hs : Configured s) (ht : Configured t) (hidle : s.portState s.port = .idle) (hh : Holds s fs) : Conserves s fs t := by
  have hno := noFrame_idle hidle
  cases h with
  | answers r _ hf => exact .of_setPort hh (by constructor <;> rfl) rfl rfl hno ⟨hf, rfl⟩
  | starts x _ hx => exact .of_setPort hh (by constructor <;> rfl) rfl rfl hno hx.noFrame
  | splits | dropsProducer | dropsConsumer => exact .of_setPort hh (by constructor <;> rfl) rfl rfl hno ⟨rfl, rfl⟩
  | findsNoFrame => exact .of_action hh (by constructor <;> rfl) rfl trivial rfl hno ⟨rfl, rfl⟩
  | creates _ _ _ _ hp => exact absurd hp hs
  | dropsRing | dropsLastProducer | dropsLastConsumer => exact absurd ht (not_configured_of_lost _ _ _)
  | writes f bytes need hb hn _ hport _ _ ha hfree =>
    have hlen : bytes.length = need.toNat := by rw [hb, hn]; exact f.length_bytes ha
    have hfit : s.used.toNat + need.toNat ≤ s.capacity.toNat := fits (hi.used_le_nat hs) (BitVec.not_lt.2 hfree)
    have hunread := afterStore_unread hi hs bytes need hlen (by omega)
    refine ⟨fs ++ [f], [bytes], holds_setPort (holds_log (hh.snoc ha (hb ▸ hunread)) _) _ _, ?_, ?_⟩
    · simp [stored, storedBy, afterStore]
    · rw [hport] at hidle
      have hres : reserved s.prod = [] := (noFrame_idle hidle).2
      simp [flow, received, receivedBy, afterStore, hport, hres, hb]
  | reads header h n payload hhead hd hn hl _ hport _ _ _ hu =>
    rw [hport] at hidle
    have hread : s.readFrom s.readPos 16 = headerBytes h := by
      rw [hd, headerBytes_headerOfBytes header (by simp [hhead]), hhead]
    obtain ⟨f, rest, rfl, hf, hrest⟩ := oldest_of_read hh hn hu hread hl.symm
    refine .of_read hport (noFrame_idle hidle).1 rfl ?_ ?_ (holds_log (holds_log hrest _) _) hf
    · simp [stored, storedBy, afterRead]
    · simp [received, receivedBy, afterRead, hport]

/-- The next step of a port conserves the frames. -/
theorem AdvanceEffect.conserves {s t : State} {fs : List Frame} (h : AdvanceEffect s t) (hi : BlockInv s) (hh : Holds s fs) :
    Conserves s fs t := by
  cases h with
  | idle => exact ⟨fs, [], hh, by simp, by simp⟩
  | handsOver r hx => exact .of_handOver hh (by rw [hx]; rfl) (by rw [hx]; rfl)
  | handsOverReason c q hx => exact .of_handOver hh (by rw [hx]; rfl) (by rw [hx]; rfl)
  | owesReason c q hx => exact .of_setPort hh (by constructor <;> rfl) rfl rfl (hx ▸ ⟨rfl, rfl⟩) ⟨rfl, rfl⟩
  | p3 f w bytes hx hb =>
    obtain ⟨hport, hprod, hp, -, ha, rfl, hroom⟩ := hi.at_prod hx id id
    have hfit := hi.need_fits hp hroom
    rw [← f.length_bytes ha, ← hb] at hfit
    refine ⟨fs, [bytes], holds_setPort (holds_log (holds_withStored hi (split_configured hp) hh hfit) _) _ _, ?_, ?_⟩
    · simp [stored, storedBy]
    · simp [flow, received, receivedBy, hport, hprod, hb]
  | p4 f w need hx hn =>
    obtain ⟨hport, hprod, hp, -, ha, rfl, hroom, hread⟩ := hi.at_prod hx id id
    have hfit := hi.need_fits hp hroom
    subst hn
    refine ⟨fs ++ [f], [], holds_setPort (holds_log (holds_withPublished hi (split_configured hp) hh ha hfit hread) _) _ _, ?_, ?_⟩
    · simp [stored, storedBy, relStoreWritePos]
    · simp [flow, received, receivedBy, relStoreWritePos, hport, hprod]
  | c5 r h n payload hx =>
    obtain ⟨hport, hcons, hp, -, rfl, hn, hle, hread, hpay⟩ := hi.at_cons hx id id
    obtain ⟨f, rest, rfl, hf, hrest⟩ := oldest_of_read hh hn (BitVec.le_trans hle (hi.hist hp).behind_w) hread hpay
    have hrest' : Holds (withReleased s (needOf n)) rest :=
      holds_congr (s := afterRead s (needOf n)) (t := withReleased s (needOf n)) rfl rfl (State.readFrom_eq rfl rfl rfl) hrest
    refine .of_read hport (by rw [hcons]; rfl) rfl ?_ ?_ (holds_log hrest' _) hf
    · simp [stored, storedBy, relStoreReadPos]
    · simp [received, receivedBy, relStoreReadPos, hport]
  | q2Prod q v hx | q2Cons q v hx =>
    exact .of_action hh (by constructor <;> rfl) rfl trivial rfl (hx ▸ ⟨rfl, rfl⟩) ⟨by cases q <;> rfl, rfl⟩
  | p1 _ _ hx | p2Fails _ _ hx | p2Fits _ _ hx | c1 _ hx | c2None _ hx | c2Some _ hx | c3None _ _ _ _ hx | c3Some _ _ _ _ _ hx
  | c4 _ _ _ _ hx | q1Prod _ _ hx | q1Cons _ _ hx =>
    exact .of_action hh (by constructor <;> rfl) rfl trivial rfl (hx ▸ ⟨rfl, rfl⟩) ⟨rfl, rfl⟩

/-- Settles O59: a step is a command at a port with nothing in progress or the next step of a port, and each conserves the frames. -/
theorem stepConservesFrames : Obligations.StepConservesFrames := by
  intro s t fs hi hs hh h ht
  rcases step_effect h with ⟨-, rfl⟩ | ⟨p, bytes, rest, i, u, -, hready, -, rfl, hu⟩ | ⟨p, rest, u, -, rfl, hu⟩
  · exact ⟨fs, [], hh, by simp, by simp⟩
  · obtain ⟨gs, new, hgs, hstored, hflow⟩ := hu.conserves (inv_log (inv_at hi p rest) _) hs ht (by simpa using idle_of_ready hready)
      (holds_log (((sameCore_at s p rest).holds fs).2 hh) _)
    exact ⟨gs, new, hgs, by simpa [stored, storedBy] using hstored, by simpa [flow, received, receivedBy] using hflow⟩
  · exact hu.conserves (inv_at hi p rest) (((sameCore_at s p rest).holds fs).2 hh)

/-! ## Runs -/

/-- A step records further events and changes none. -/
theorem step_events {s t : State} (h : step s = .next t) : ∃ es, t.events = s.events ++ es := by
  rcases step_effect h with ⟨-, rfl⟩ | ⟨p, bytes, rest, i, u, -, -, -, rfl, hu⟩ | ⟨p, rest, u, -, rfl, hu⟩
  · exact ⟨[], by simp⟩
  · obtain ⟨_, -, ha, -⟩ := hu.acts_request
    exact ⟨_, ha.events⟩
  · obtain ⟨_, ha⟩ := hu.portMove.acts
    exact ⟨_, ha.events⟩

theorem IsRunTo.inv {n : Nat} {world : World} {run : Nat → State} (h : IsRunTo n world run) (hi : BlockInv (run 0)) {k : Nat}
    (hk : k ≤ n) : BlockInv (run k) := by
  induction k with
  | zero => exact hi
  | succ k ih => exact stepKeepsInvariant _ _ (inv_arrive (ih (by omega)) _ _) (h k hk)

/-- What is received along a run comes behind what was received before. -/
theorem IsRunTo.received_prefix {n : Nat} {world : World} {run : Nat → State} (h : IsRunTo n world run) {k : Nat} (hk : k ≤ n) :
    ∃ got, received (run k) = received (run 0) ++ got := by
  induction k with
  | zero => exact ⟨[], by simp⟩
  | succ k ih =>
    obtain ⟨got, hgot⟩ := ih (by omega)
    obtain ⟨es, hes⟩ := step_events (h k hk)
    refine ⟨got ++ es.flatMap receivedBy, ?_⟩
    rw [received, hes, State.arrive_events, List.flatMap_append, ← received, hgot, List.append_assoc]

/-- A run conserves the frames: what is stored along it joins them at their end. -/
theorem IsRunTo.conserves {n : Nat} {world : World} {run : Nat → State} (h : IsRunTo n world run) (hi : BlockInv (run 0))
    (hc : ∀ k, k ≤ n → Configured (run k)) {fs : List Frame} (hh : Holds (run 0) fs) {k : Nat} (hk : k ≤ n) :
    Conserves (run 0) fs (run k) := by
  induction k with
  | zero => exact ⟨fs, [], hh, by simp, by simp⟩
  | succ k ih =>
    obtain ⟨gs, put, hgs, hstored, hflow⟩ := ih (by omega)
    obtain ⟨gs', new, hgs', hstored', hflow'⟩ := stepConservesFrames _ _ gs (inv_arrive (h.inv hi (by omega)) _ _) (hc k (by omega))
      (((sameCore_arrive (run k) (world.inputs k) (world.draws k)).holds gs).2 hgs) (h k hk) (hc (k + 1) hk)
    refine ⟨gs', put ++ new, hgs', ?_, ?_⟩
    · rw [hstored', ← List.append_assoc, ← hstored]
      rfl
    · rw [hflow', ← List.append_assoc, ← hflow]
      rfl

/-- Settles O60: a run from an empty ring conserves the frames, so what it stores is what it receives and then what is still on its way. -/
theorem receivedIsAPrefixOfStored : Obligations.ReceivedIsAPrefixOfStored := by
  intro n world run hrun hi hc hunread hin hres
  obtain ⟨fs, put, hfs, hstored, hflow⟩ := hrun.conserves hi hc (fs := []) ⟨nofun, hunread⟩ (Nat.le_refl n)
  obtain ⟨got, hgot⟩ := hrun.received_prefix (Nat.le_refl n)
  refine ⟨got, put, fs, hgot, hstored, hfs, ?_⟩
  simpa [flow, hgot, hin, hres] using hflow.symm

end Sys2Proof.Safety
end

section
/-! SUPPORT. What a step is when a port goes on, one equation for each thing a port can be doing, and what the steps of an operation in
mode `SPSC` are (spec/42_spsc_ops.md R168, R169, R172). -/

namespace Sys2Proof.Machine

/-! ## The next step of a port -/

theorem step_idle {s : State} (h : s.inbox = []) : step s = .next s := by simp only [step, h]

theorem step_advance {s : State} {p : Port} {rest : List Input} (h : s.inbox = .advance p :: rest) : step s = advance (s.at p rest) := by
  simp only [step, h]

theorem advance_idle {s : State} (h : s.portState s.port = .idle) : advance s = .next s := by simp only [advance, h]

theorem advance_responding {s : State} {r : Response} (h : s.portState s.port = .responding r) : advance s = exec (rowOfResponse r) s := by
  simp only [advance, h]

theorem advance_reasonDue {s : State} {c : Word} {r : Reason} (h : s.portState s.port = .reasonDue c r) :
    advance s = exec (rowOfReason r) s := by
  simp only [advance, h]

theorem advance_p1 {s : State} {f : Frame} (h : s.portState s.port = .p1 f) : advance s = stepP1 f s := by simp only [advance, h]

theorem advance_p2 {s : State} {f : Frame} {r : Word} (h : s.portState s.port = .p2 f r) : advance s = stepP2 f r s := by
  simp only [advance, h]

theorem advance_p3 {s : State} {f : Frame} {w : Word} (h : s.portState s.port = .p3 f w) : advance s = stepP3 f w s := by
  simp only [advance, h]

theorem advance_p4 {s : State} {f : Frame} {w : Word} (h : s.portState s.port = .p4 f w) : advance s = stepP4 f w s := by
  simp only [advance, h]

theorem advance_c1 {s : State} (h : s.portState s.port = .c1) : advance s = stepC1 s := by simp only [advance, h]

theorem advance_c2 {s : State} {w : Word} (h : s.portState s.port = .c2 w) : advance s = stepC2 w s := by simp only [advance, h]

theorem advance_c3 {s : State} {w r : Word} (h : s.portState s.port = .c3 w r) : advance s = stepC3 r s := by simp only [advance, h]

theorem advance_c4 {s : State} {r : Word} {hd : HeaderBits} {n : Half} (h : s.portState s.port = .c4 r hd n) :
    advance s = stepC4 r hd n s := by
  simp only [advance, h]

theorem advance_c5 {s : State} {r : Word} {hd : HeaderBits} {n : Half} {b : List Byte} (h : s.portState s.port = .c5 r hd n b) :
    advance s = stepC5 r hd n b s := by
  simp only [advance, h]

theorem advance_q1 {s : State} {q : Query} (h : s.portState s.port = .q1 q) : advance s = stepQ1 q s := by simp only [advance, h]

theorem advance_q2 {s : State} {q : Query} {v : Word} (h : s.portState s.port = .q2 q v) : advance s = stepQ2 q v s := by
  simp only [advance, h]

/-- Step C3 executes the header that the 16 bytes at `r` are (30_encoding.md R107). -/
theorem stepC3_eq {s : State} (r : Word) (hcap : 16 ≤ s.capacity.toNat) {h : HeaderBits} (hh : headerBytes h = s.readFrom r 16) :
    stepC3 r s =
      exec (.frameHeader (headerTimestamp h) (headerEventType h) (headerFlags h) (headerPayloadLen h) (headerReserved h))
        (s.log (.memRead r (s.readFrom r 16))) := by
  simp only [stepC3, fetchHeader, memRead_of_le hcap, ← hh, decode_headerBytes]

/-- Settles O9: a step takes the next input, and `advance` has one branch for each thing a port can be doing. -/
theorem stepAdvancesPort : Obligations.StepAdvancesPort := by
  refine ⟨fun s h => step_idle h, fun s p rest h => ?_⟩
  have hx : ∀ {x}, s.portState p = x → (s.at p rest).portState (s.at p rest).port = x := fun hx => by simpa using hx
  rw [step_advance h]
  refine ⟨fun h => advance_idle (hx h), fun _ h => advance_responding (hx h), fun _ _ h => advance_reasonDue (hx h),
    fun _ h => advance_p1 (hx h), fun _ _ h => advance_p2 (hx h), fun _ _ h => advance_p3 (hx h), fun _ _ h => advance_p4 (hx h),
    fun h => advance_c1 (hx h), fun _ h => advance_c2 (hx h), fun w r h hcap => ?_, fun _ _ _ h => advance_c4 (hx h),
    fun _ _ _ _ h => advance_c5 (hx h), fun _ h => advance_q1 (hx h), fun _ _ h => advance_q2 (hx h)⟩
  have hread : (s.at p rest).readFrom r 16 = s.readFrom r 16 := State.readFrom_eq rfl rfl rfl r 16
  have hbytes := headerBytes_headerOfBytes (s.readFrom r 16) (State.length_readFrom s r 16)
  refine ⟨_, hbytes, (advance_c3 (hx h)).trans ((stepC3_eq (s := s.at p rest) r hcap (hbytes.trans hread.symm)).trans ?_)⟩
  rw [hread]

end Sys2Proof.Machine

namespace Sys2Proof.Safety

open Machine

/-- What port `PROD` is doing is what the port of its step is doing. -/
theorem portState_of_prod {s : State} {x : PortState} (hport : s.port = .prod) (hx : s.prod = x) : s.portState s.port = x := by
  rw [hport]; exact hx

/-- What port `CONS` is doing is what the port of its step is doing. -/
theorem portState_of_cons {s : State} {x : PortState} (hport : s.port = .cons) (hx : s.cons = x) : s.portState s.port = x := by
  rw [hport]; exact hx

/-! ## What starts in phase `Split` -/

/-- Settles O42: each data command is legal on its port with its handle, and in phase `Split` it starts at its first step. -/
theorem splitRequestsStartTheProtocol : Obligations.SplitRequestsStartTheProtocol := by
  refine ⟨fun s ts e fl n payload hport hp ha hn => ?_, fun s hport hp ha => ?_, fun s hport hp => ?_⟩
  · have hlegal := (writeLegal_iff ts e fl n payload s).2 ⟨hport, .inr ⟨hp, ha⟩⟩
    have hagrees : (Frame.mk ts e fl n payload).agrees = true := Frame.agrees_iff.2 hn
    refine (whenLegal_of_legal hlegal _ _ s).trans ?_
    simp [writeEvent, hagrees, hp, hport]
  · have hlegal := (readLegal_iff s).2 ⟨hport, .inr ⟨hp, ha⟩⟩
    rw [← hport]
    exact (whenLegal_of_legal hlegal _ _ s).trans (if_pos hp)
  · have hlegal := (queryLegal_iff s).2 (hport.imp (fun ⟨h, ha⟩ => ⟨h, .inr ⟨hp, ha⟩⟩) fun ⟨h, ha⟩ => ⟨h, .inr ⟨hp, ha⟩⟩)
    have hquery : ∀ code q, whenLegal s.queryLegal code (queryStatus q s) s = .next (s.setPort s.port (.q1 q)) := fun code q =>
      (whenLegal_of_legal hlegal code _ s).trans (if_pos hp)
    exact ⟨hquery _ .used, hquery _ .free, hquery _ .isEmpty⟩

/-! ## Acquire-loads as steps -/

/-- The producer side's snapshot becomes element `k`, the value `v`, of the history of `read_pos`, and nothing else of the ring changes. -/
structure SeesReadPos (s t : State) (k : Nat) (v : Word) : Prop where
  notOlder : s.pSeenAt ≤ k
  hist : s.histR[k]? = some v
  pSeenR : t.pSeenR = v
  pSeenAt : t.pSeenAt = k
  histW : t.histW = s.histW
  config : SameConfig s t
  pointers : SamePointers s t
  bytes : SameBytes s t
  consumer : SameConsumerSide s t
  elsewhere : SameElsewhere s t
  events : t.events = s.events ++ [⟨s.port, .acqLoad .readPos v⟩]

/-- The consumer side's snapshot becomes element `k`, the value `v`, of the history of `write_pos`, and nothing else of the ring changes. -/
structure SeesWritePos (s t : State) (k : Nat) (v : Word) : Prop where
  notOlder : s.cSeenAt ≤ k
  hist : s.histW[k]? = some v
  cSeenW : t.cSeenW = v
  cSeenAt : t.cSeenAt = k
  histR : t.histR = s.histR
  config : SameConfig s t
  pointers : SamePointers s t
  bytes : SameBytes s t
  producer : SameProducerSide s t
  elsewhere : SameElsewhere s t
  events : t.events = s.events ++ [⟨s.port, .acqLoad .writePos v⟩]

/-- An acquire-load of `read_pos` as a step, whatever its port does next. -/
theorem acqLoadReadPos_sees {s : State} (h : s.pSeenAt < s.histR.length) (d : Nat) (x : PortState) :
    ∃ k, SeesReadPos s ((acqLoadReadPos d s).setPort s.port x) k (acqLoadReadPos d s).pSeenR :=
  ⟨_, { notOlder := Nat.le_add_right _ _
        hist := acqPick_drop h s.readPos d
        pSeenR := State.setPort_pSeenR _ _ _
        pSeenAt := State.setPort_pSeenAt _ _ _
        histW := State.setPort_histW _ _ _
        config := by constructor <;> simp [acqLoadReadPos]
        pointers := by constructor <;> simp [acqLoadReadPos]
        bytes := byteAt_setPort _ _ _
        consumer := by constructor <;> simp [acqLoadReadPos]
        elsewhere := .of_setPort rfl (fun q => by cases q <;> rfl) rfl rfl
        events := State.setPort_events _ _ _ }⟩

/-- An acquire-load of `write_pos` as a step, whatever its port does next. -/
theorem acqLoadWritePos_sees {s : State} (h : s.cSeenAt < s.histW.length) (d : Nat) (x : PortState) :
    ∃ k, SeesWritePos s ((acqLoadWritePos d s).setPort s.port x) k (acqLoadWritePos d s).cSeenW :=
  ⟨_, { notOlder := Nat.le_add_right _ _
        hist := acqPick_drop h s.writePos d
        cSeenW := State.setPort_cSeenW _ _ _
        cSeenAt := State.setPort_cSeenAt _ _ _
        histR := State.setPort_histR _ _ _
        config := by constructor <;> simp [acqLoadWritePos]
        pointers := by constructor <;> simp [acqLoadWritePos]
        bytes := byteAt_setPort _ _ _
        producer := by constructor <;> simp [acqLoadWritePos]
        elsewhere := .of_setPort rfl (fun q => by cases q <;> rfl) rfl rfl
        events := State.setPort_events _ _ _ }⟩

/-! ## The steps of `WRITE_EVENT` -/

/-- P2 where the frame does not fit by the value loaded. -/
theorem stepP2_of_full {s : State} {f : Frame} {r : Word} (h : freeOf s.capacity s.writePos r < f.need) :
    stepP2 f r s = .next ((s.log (.ownLoad .writePos s.writePos)).setPort s.port
      (.responding (.notEnoughSpace f.need (freeOf s.capacity s.writePos r)))) := if_pos h

/-- P2 where the frame fits. -/
theorem stepP2_of_fits {s : State} {f : Frame} {r : Word} (h : f.need ≤ freeOf s.capacity s.writePos r) :
    stepP2 f r s = .next ((s.log (.ownLoad .writePos s.writePos)).setPort s.port (.p3 f s.writePos)) := if_neg (BitVec.not_lt.2 h)

theorem stepP3_of_memWrite {s t : State} {f : Frame} {w : Word} (h : memWrite w f.bytes s = .ok t) :
    stepP3 f w s = .next (t.setPort s.port (.p4 f w)) := by
  simp only [stepP3, h]

/-- Settles O43: P1 is an acquire-load of `read_pos`, P2 an own load and the space test. -/
theorem writeLoadsAndTests : Obligations.WriteLoadsAndTests := by
  refine ⟨fun s f hport hx hseen => ?_, fun s f r hport hx => ?_⟩
  · have hx' := portState_of_prod hport hx
    obtain ⟨k, h⟩ := acqLoadReadPos_sees hseen s.draw _
    exact ⟨_, k, _, advance_p1 hx', by simp [hport], h.notOlder, h.hist, h.pSeenR, h.pSeenAt, h.histW, h.config, h.pointers, h.bytes,
      h.consumer, h.elsewhere, hport ▸ h.events⟩
  · have hx' := portState_of_prod hport hx
    exact ⟨fun hfull => ⟨_, (advance_p2 hx').trans (stepP2_of_full hfull), rfl⟩,
      fun hfits => ⟨_, (advance_p2 hx').trans (stepP2_of_fits hfits), rfl⟩⟩

/-- Settles O44: P3 is a `MemWrite` of the frame's bytes, P4 a release store of `write_pos`. -/
theorem writeStoresAndPublishes : Obligations.WriteStoresAndPublishes := by
  refine ⟨fun s f w g hport hx hlen => ?_, fun s f w hport hx => ?_⟩
  · have hx' := portState_of_prod hport hx
    have hwrite := memWrite_of_le (pos := w) hlen
    refine ⟨_, (advance_p3 hx').trans (stepP3_of_memWrite hwrite), by simp [hport], ?_, fun o ho => ?_, ?_, ?_, ?_, ?_,
      .of_setPort rfl (fun q => by cases q <;> rfl) rfl rfl, by simp [hport]⟩
    · rw [State.readFrom_setPort, readFrom_memWrite g hwrite]
    · rw [byteAt_setPort, byteAt_memWrite_of_not_touches hwrite ho]
    · constructor <;> simp
    · constructor <;> simp
    · constructor <;> simp
    · constructor <;> simp
  · have hx' := portState_of_prod hport hx
    refine ⟨_, (advance_p4 hx').trans (finish_eq _ _), ?_⟩
    generalize w + f.need = v
    rw [(relStoreWritePos_sameElsewhere s v).port, hport]
    refine ⟨rfl, rfl, rfl, rfl, rfl, rfl, byteAt_setPort _ _ _, ?_, ?_, .of_setPort hport (fun q => by cases q <;> rfl) rfl rfl, ?_⟩
    · constructor <;> rfl
    · constructor <;> rfl
    · simp [relStoreWritePos, hport]

/-! ## The steps of `READ_EVENT` -/

/-- C2 with fewer bytes than a header by the value loaded. -/
theorem stepC2_of_short {s : State} {w : Word} (h : usedOf w s.readPos < 16#64) :
    stepC2 w s = .next ((s.log (.ownLoad .readPos s.readPos)).setPort s.port (.responding .none)) := if_pos h

/-- C2 with a header to read. -/
theorem stepC2_of_header {s : State} {w : Word} (h : 16#64 ≤ usedOf w s.readPos) :
    stepC2 w s = .next ((s.log (.ownLoad .readPos s.readPos)).setPort s.port (.c3 w s.readPos)) := if_neg (BitVec.not_lt.2 h)

/-- The header test of step C3. -/
theorem exec_frameHeader {s : State} {w r : Word} (hx : s.portState s.port = .c3 w r) (ts : Word) (e fl : Byte) (n : Half) (rv : Reserved) :
    exec (.frameHeader ts e fl n rv) s =
      if usedOf w r < needOf n then .next (s.setPort s.port (.responding .none))
      else .next (s.setPort s.port (.c4 r (packHeader ts e fl n rv) n)) := by
  simp only [exec, execFrameHeader, hx, raise_eq]

theorem stepC4_eq {s : State} {r : Word} {h : HeaderBits} {n : Half} (hn : n.toNat ≤ s.capacity.toNat) :
    stepC4 r h n s = .next ((s.log (.memRead (r + 16#64) (s.readFrom (r + 16#64) n.toNat))).setPort s.port
      (.c5 r h n (s.readFrom (r + 16#64) n.toNat))) := by
  simp only [stepC4, memRead_of_le hn]

theorem ofNat_need (n : Half) : BitVec.ofNat 64 (16 + n.toNat) = needOf n := by
  rw [← needOf_toNat, BitVec.ofNat_toNat, BitVec.setWidth_eq]

/-- Settles O45: C1 is an acquire-load of `write_pos`, C2 an own load and the test for a header's bytes. -/
theorem readLoadsAndTests : Obligations.ReadLoadsAndTests := by
  refine ⟨fun s hport hx hseen => ?_, fun s w hport hx => ?_⟩
  · have hx' := portState_of_cons hport hx
    obtain ⟨k, h⟩ := acqLoadWritePos_sees hseen s.draw _
    exact ⟨_, k, _, advance_c1 hx', by simp [hport], h.notOlder, h.hist, h.cSeenW, h.cSeenAt, h.histR, h.config, h.pointers, h.bytes,
      h.producer, h.elsewhere, hport ▸ h.events⟩
  · have hx' := portState_of_cons hport hx
    exact ⟨fun hshort => ⟨_, (advance_c2 hx').trans (stepC2_of_short hshort), rfl⟩,
      fun h16 => ⟨_, (advance_c2 hx').trans (stepC2_of_header h16), rfl⟩⟩

/-- Settles O46: the header test compares the bytes there with `16 + payload_len`, and the header kept has the fields executed. -/
theorem frameHeaderSaysHowFarToRead : Obligations.FrameHeaderSaysHowFarToRead := by
  intro s ts e fl n rv w r hx
  rw [exec_frameHeader hx, ← needOf_toNat]
  refine ⟨fun hcut => if_pos hcut, fun hwhole => ?_⟩
  exact ⟨_, if_neg (Nat.not_lt.2 hwhole), headerBytes_packHeader ts e fl n rv⟩

/-- Settles O47: C4 is a `MemRead` of the payload, C5 a release store of `read_pos`. -/
theorem readCopiesAndReleases : Obligations.ReadCopiesAndReleases := by
  refine ⟨fun s r h n hport hx hn => ?_, fun s r h n payload hport hx => ?_⟩
  · have hx' := portState_of_cons hport hx
    exact ⟨_, (advance_c4 hx').trans (stepC4_eq hn), rfl⟩
  · have hx' := portState_of_cons hport hx
    refine ⟨_, _, (advance_c5 hx').trans (finish_eq _ _), rfl, ?_⟩
    rw [ofNat_need]
    generalize r + needOf n = v
    rw [(relStoreReadPos_sameElsewhere s v).port, hport]
    refine ⟨rfl, rfl, rfl, rfl, rfl, rfl, byteAt_setPort _ _ _, ?_, ?_, .of_setPort hport (fun q => by cases q <;> rfl) rfl rfl, ?_⟩
    · constructor <;> rfl
    · constructor <;> rfl
    · simp [relStoreReadPos, hport]

/-! ## The steps of a status query -/

theorem stepQ1_prod {s : State} {q : Query} (hport : s.port = .prod) :
    stepQ1 q s = .next ((acqLoadReadPos s.draw s).setPort s.port (.q2 q (acqLoadReadPos s.draw s).pSeenR)) := by
  simp [stepQ1, hport]

theorem stepQ1_cons {s : State} {q : Query} (hport : s.port = .cons) :
    stepQ1 q s = .next ((acqLoadWritePos s.draw s).setPort s.port (.q2 q (acqLoadWritePos s.draw s).cSeenW)) := by
  simp [stepQ1, hport]

theorem stepQ2_prod {s : State} {q : Query} {r : Word} (hport : s.port = .prod) :
    stepQ2 q r s = .next ((s.log (.ownLoad .writePos s.writePos)).setPort s.port
      (.responding (.ok (queryResult q s.capacity s.writePos r)))) := by
  simp [stepQ2, hport, State.pointer]

theorem stepQ2_cons {s : State} {q : Query} {w : Word} (hport : s.port = .cons) :
    stepQ2 q w s = .next ((s.log (.ownLoad .readPos s.readPos)).setPort s.port
      (.responding (.ok (queryResult q s.capacity w s.readPos)))) := by
  simp [stepQ2, hport, State.pointer]

/-- Settles O48: the first step of a query acquire-loads the other side's pointer, the second loads its own and answers. -/
theorem statusQueriesSpsc : Obligations.StatusQueriesSpsc := by
  refine ⟨fun s q hport hx hseen => ?_, fun s q hport hx hseen => ?_, fun s q r hport hx => ?_, fun s q w hport hx => ?_⟩
  · have hx' := portState_of_prod hport hx
    obtain ⟨k, h⟩ := acqLoadReadPos_sees hseen s.draw _
    exact ⟨_, k, _, (advance_q1 hx').trans (stepQ1_prod hport), by simp [hport], h.notOlder, h.hist, h.pSeenR, h.pSeenAt, h.histW,
      h.config, h.pointers, h.bytes, h.consumer, h.elsewhere⟩
  · have hx' := portState_of_cons hport hx
    obtain ⟨k, h⟩ := acqLoadWritePos_sees hseen s.draw _
    exact ⟨_, k, _, (advance_q1 hx').trans (stepQ1_cons hport), by simp [hport], h.notOlder, h.hist, h.cSeenW, h.cSeenAt, h.histR,
      h.config, h.pointers, h.bytes, h.producer, h.elsewhere⟩
  · have hx' := portState_of_prod hport hx
    refine ⟨_, (advance_q2 hx').trans (stepQ2_prod hport), ?_⟩
    cases q <;> rfl
  · have hx' := portState_of_cons hport hx
    refine ⟨_, (advance_q2 hx').trans (stepQ2_cons hport), ?_⟩
    cases q <;> rfl

end Sys2Proof.Safety
end

section
/-! SUPPORT. `SPLIT` and the two drops, and what is legal at the port of a dropped handle (spec/42_spsc_ops.md R160, R174, R175). -/

namespace Sys2Proof.Safety

open Machine

/-! ## `SPLIT` -/

/-- Settles O17: `SPLIT` is legal in phase `Whole` and mode `SPSC` only, and there the invariant has both pointers at 0. -/
theorem splitMakesBothHandles : Obligations.SplitMakesBothHandles := by
  intro s hport hp hm
  refine ⟨?_, fun hi => hi.unsplit_fresh hp hm, fun t ht => ?_⟩
  · have hlegal := (splitLegal_iff s).2 ⟨hport, hp, hm⟩
    rw [← hport]
    exact whenLegal_of_legal hlegal _ _ s
  · have hillegal : ¬ Legal .split t := by
      rintro ⟨-, hp', hm'⟩
      rcases ht with h | h
      · simp [h] at hp'
      · simp [h] at hm'
    exact exec_of_not_legal rfl hillegal

/-! ## Dropped handles -/

/-- The framing functions (30_encoding.md R110: legal on any port always). -/
def Framing (i : Instr) : Prop :=
  i = .headerSize ∨ (∃ n, i = .totalSize n) ∨ (∃ a e n, i = .headerNew a e n) ∨ (∃ a e f n, i = .encodeHeader a e f n) ∨
    ∃ h, i = .decodeHeader h

/-- The step is at the port of a handle that is dropped. -/
def AtDroppedHandle (s : State) : Prop := (s.port = .prod ∧ s.prodAlive = false) ∨ (s.port = .cons ∧ s.consAlive = false)

/-- While no unsplit ring exists, only the framing functions are legal at the port of a dropped handle. -/
theorem legal_at_dropped {i : Instr} {s : State} (hp : s.phase ≠ .whole) (hd : AtDroppedHandle s) (h : Legal i s) : Framing i := by
  have hcfg : s.port ≠ .cfg := by rcases hd with ⟨hport, -⟩ | ⟨hport, -⟩ <;> simp [hport]
  have hprod : ¬ (s.port = .prod ∧ s.prodAlive = true) := by
    rintro ⟨hport, ha⟩
    simp [AtDroppedHandle, hport, ha] at hd
  have hcons : ¬ (s.port = .cons ∧ s.consAlive = true) := by
    rintro ⟨hport, ha⟩
    simp [AtDroppedHandle, hport, ha] at hd
  have hsplit : ∀ {alive : Prop}, (s.phase = .whole ∧ s.mode = .single) ∨ (s.phase = .split ∧ alive) → alive :=
    fun h => (h.resolve_left fun hw => hp hw.1).2
  cases i with
  | headerSize | totalSize | headerNew | encodeHeader | decodeHeader => simp [Framing]
  | new | split | dropRing => exact absurd h.1 hcfg
  | dropProducer => exact absurd ⟨h.1, h.2.2⟩ hprod
  | dropConsumer => exact absurd ⟨h.1, h.2.2⟩ hcons
  | writeEvent => exact absurd ⟨h.1, hsplit h.2⟩ hprod
  | readEvent => exact absurd ⟨h.1, hsplit h.2⟩ hcons
  | used | free | isEmpty =>
    rcases h with ⟨hport, h⟩ | ⟨hport, h⟩
    · exact absurd ⟨hport, hsplit h⟩ hprod
    · exact absurd ⟨hport, hsplit h⟩ hcons
  | reservedCode | frameHeader | rspOk | rspNone | rspInvalidCapacity | rspNotEnoughSpace | rspBadCommand | reasonTooSmall
  | reasonNotPowerOfTwo => exact h.elim

/-- Where `DROP_PRODUCER` is legal, it clears its flag; without the other handle the ring is lost with it. -/
theorem exec_dropProducer_legal {s : State} (hport : s.port = .prod) (hp : s.phase = .split) (ha : s.prodAlive = true) :
    exec .dropProducer s = .next ((if s.consAlive then { s with prodAlive := false } else { s with prodAlive := false }.loseRing).setPort
      .prod (.responding (.ok .empty))) := by
  refine (whenLegal_of_legal ((dropProducerLegal_iff s).2 ⟨hport, hp, ha⟩) _ _ s).trans ?_
  split <;> simp [State.loseRing, hport]

/-- Where `DROP_CONSUMER` is legal, it clears its flag; without the other handle the ring is lost with it. -/
theorem exec_dropConsumer_legal {s : State} (hport : s.port = .cons) (hp : s.phase = .split) (ha : s.consAlive = true) :
    exec .dropConsumer s = .next ((if s.prodAlive then { s with consAlive := false } else { s with consAlive := false }.loseRing).setPort
      .cons (.responding (.ok .empty))) := by
  refine (whenLegal_of_legal ((dropConsumerLegal_iff s).2 ⟨hport, hp, ha⟩) _ _ s).trans ?_
  split <;> simp [State.loseRing, hport]

/-- Settles O19: a drop clears its flag, the second one loses the ring; what is not legal then is answered `BAD_COMMAND`. -/
theorem dropsEndTheHandles : Obligations.DropsEndTheHandles := by
  refine ⟨fun s hport hp ha => ?_, fun s hport hp ha => ?_, fun s i hp hd h => legal_at_dropped hp hd h, fun s i hcmd hp hd => ?_⟩
  · rw [exec_dropProducer_legal hport hp ha]
    refine ⟨fun hother => by rw [if_pos hother], fun hother => ?_⟩
    rw [if_neg (by simp [hother])]
    exact ⟨_, rfl, rfl, rfl, rfl, hother, .of_setPort hport (fun q => by cases q <;> rfl) rfl rfl, rfl⟩
  · rw [exec_dropConsumer_legal hport hp ha]
    refine ⟨fun hother => by rw [if_pos hother], fun hother => ?_⟩
    rw [if_neg (by simp [hother])]
    exact ⟨_, rfl, rfl, rfl, hother, rfl, .of_setPort hport (fun q => by cases q <;> rfl) rfl rfl, rfl⟩
  · by_cases hlegal : Legal i s
    · simpa only [Framing, or_assoc] using Or.inl (legal_at_dropped hp hd hlegal)
    · simp [exec_of_not_legal hcmd hlegal]

end Sys2Proof.Safety
end

section
/-! SUPPORT. The two sides of a split ring: what each sees lags on the safe side, and their bytes are apart (spec/42_spsc_ops.md R170,
R171, 20_memory.md R85). -/

namespace Sys2Proof.Safety

open Machine

/-- More free bytes are behind a newer `read_pos`. -/
theorem w_free_le {c w p r : Word} (h1 : r - p ≤ w - p) (h2 : w - p ≤ c) : c - (w - p) ≤ c - (w - r) := by bv_omega

/-- Settles O52: the producer's snapshot is at or behind `read_pos`, the consumer's at or behind `write_pos`. -/
theorem lagIsOneSided : Obligations.LagIsOneSided := by
  intro s hi hc hm
  have H := hi.histories hc hm
  exact ⟨w_free_le H.behind_r H.room_r, H.behind_w⟩

/-! ## The ranges of the two sides -/

/-- A region access in the range of its side (R171); other actions access no byte. -/
def InOwnRange (s : State) (a : Action) : Prop :=
  match a with
  | .memRead p bytes => (p - s.readPos).toNat + bytes.length ≤ (s.cSeenW - s.readPos).toNat
  | .memWrite p bytes => (p - s.writePos).toNat + bytes.length ≤ (s.pSeenR + s.capacity - s.writePos).toNat
  | _ => True

/-- The further events of a step are accesses in the range of their side. -/
def StaysInRange (s t : State) : Prop := ∃ es : List Event, t.events = s.events ++ es ∧ ∀ e ∈ es, InOwnRange s e.action

theorem StaysInRange.of_same {s t : State} (h : t.events = s.events) : StaysInRange s t := ⟨[], by simpa using h, nofun⟩

theorem StaysInRange.of_action {s t : State} {p : Port} {a : Action} (h : t.events = s.events ++ [⟨p, a⟩]) (ha : InOwnRange s a) :
    StaysInRange s t := ⟨[⟨p, a⟩], h, by simpa using ha⟩

/-- In phase `Split` a command accesses no byte. -/
theorem CommandEffect.staysInRange {i : Instr} {s t : State} (h : CommandEffect i s t) (hp : s.phase = .split) : StaysInRange s t := by
  cases h with
  | answers | starts | dropsProducer | dropsLastProducer | dropsConsumer | dropsLastConsumer =>
    exact .of_same (State.setPort_events _ _ _)
  | creates _ _ _ _ hp' | splits _ _ hp' | dropsRing _ _ hp' | writes _ _ _ _ _ _ _ hp' | findsNoFrame _ _ _ _ hp'
  | reads _ _ _ _ _ _ _ _ _ _ hp' => exact nomatch hp.symm.trans hp'

/-- P3 stores no further than the space test saw. -/
theorem store_inOwnRange {s : State} {bytes : List Byte} {n : Word} (hn : bytes.length = n.toNat)
    (hroom : n ≤ freeOf s.capacity s.writePos s.pSeenR) : InOwnRange s (.memWrite s.writePos bytes) := by
  show (s.writePos - s.writePos).toNat + bytes.length ≤ (s.pSeenR + s.capacity - s.writePos).toNat
  simp only [freeOf, usedOf] at hroom
  bv_omega

/-- Bytes read from an offset behind `read_pos` on. -/
theorem read_inOwnRange {s : State} {off : Word} {bytes : List Byte}
    (h : off.toNat + bytes.length ≤ (usedOf s.cSeenW s.readPos).toNat) : InOwnRange s (.memRead (s.readPos + off) bytes) := by
  show (s.readPos + off - s.readPos).toNat + bytes.length ≤ (s.cSeenW - s.readPos).toNat
  rwa [BitVec.add_comm, BitVec.add_sub_cancel]

/-- C3 reads no further than C2 saw. -/
theorem header_inOwnRange {s : State} {header : List Byte} (hl : header.length = 16) (h16 : 16#64 ≤ usedOf s.cSeenW s.readPos) :
    InOwnRange s (.memRead s.readPos header) := by
  rw [← BitVec.add_zero s.readPos]
  exact read_inOwnRange (by rw [hl]; exact h16)

/-- C4 reads no further than C3 saw. -/
theorem payload_inOwnRange {s : State} {payload : List Byte} {n : Half} (hl : payload.length = n.toNat)
    (hle : needOf n ≤ usedOf s.cSeenW s.readPos) : InOwnRange s (.memRead (s.readPos + 16#64) payload) := by
  have hle' : (needOf n).toNat ≤ (usedOf s.cSeenW s.readPos).toNat := hle
  rw [needOf_toNat] at hle'
  exact read_inOwnRange (by rw [hl]; exact hle')

/-- The next step of a port accesses bytes in the range of its side only. -/
theorem AdvanceEffect.staysInRange {s t : State} (h : AdvanceEffect s t) (hi : BlockInv s) : StaysInRange s t := by
  cases h with
  | idle => exact .of_same rfl
  | owesReason => exact .of_same (State.setPort_events _ _ _)
  | p3 f w bytes hx hb =>
    obtain ⟨-, -, -, -, ha, rfl, hroom⟩ := hi.at_prod hx id id
    exact .of_action (State.setPort_events _ _ _) (store_inOwnRange (by rw [hb]; exact f.length_bytes ha) hroom)
  | c3None w r header n hx hh | c3Some w r header h n hx hh =>
    obtain ⟨-, -, -, -, -, rfl, h16⟩ := hi.at_cons hx id id
    exact .of_action (State.setPort_events _ _ _) (header_inOwnRange (by simp [hh]) h16)
  | c4 r h n payload hx hl =>
    obtain ⟨-, -, -, -, rfl, -, hle, -⟩ := hi.at_cons hx id id
    exact .of_action (State.setPort_events _ _ _) (payload_inOwnRange (by simp [hl]) hle)
  | handsOver | handsOverReason | p1 | p2Fails | p2Fits | p4 | c1 | c2None | c2Some | c5 | q1Prod | q1Cons | q2Prod | q2Cons =>
    exact .of_action (State.setPort_events _ _ _) trivial

/-- A step in phase `Split` accesses bytes in the range of its side only. -/
theorem step_staysInRange {s t : State} (hi : BlockInv s) (hp : s.phase = .split) (h : step s = .next t) : StaysInRange s t := by
  rcases step_effect h with ⟨-, rfl⟩ | ⟨p, bytes, rest, i, u, -, -, -, rfl, hu⟩ | ⟨p, rest, u, -, rfl, hu⟩
  · exact .of_same rfl
  · obtain ⟨es, hes, hrange⟩ := hu.staysInRange hp
    refine ⟨⟨p, .request i⟩ :: es, by simpa using hes, ?_⟩
    rw [List.forall_mem_cons]
    exact ⟨trivial, hrange⟩
  · exact hu.staysInRange (inv_at hi p rest)

/-- Positions in the two ranges are less than a `capacity` apart. -/
theorem w_ranges_apart {c w p r : Word} {j : Nat} (h1 : r - p ≤ w - p) (h2 : w - p ≤ c) (hj : j < (p + c - w).toNat) :
    (w - r).toNat + j < c.toNat := by bv_omega

/-- Settles O54: each step's accesses are those its tests allow; the ranges together are no longer than the region. -/
theorem theTwoSidesNeverMeet : Obligations.TheTwoSidesNeverMeet := by
  refine ⟨fun s t hi hp h e he => ?_, fun s hi hc hm i j hi' hj => ?_⟩
  · obtain ⟨es, hes, hrange⟩ := step_staysInRange hi hp h
    rw [hes, List.drop_left] at he
    exact hrange e he
  · have H := hi.histories hc hm
    have hseen : (s.cSeenW - s.readPos).toNat ≤ s.used.toNat := H.behind_w
    have hapart : s.used.toNat + j < s.capacity.toNat := w_ranges_apart H.behind_r H.room_r hj
    rw [← writePos_eq s, BitVec.add_assoc, ← BitVec.ofNat_add]
    exact (hi.geometry hc).offsetOf_ne s.readPos (by omega) (by omega)

end Sys2Proof.Safety
end

section
/-! SUPPORT. The steps of one `WRITE_EVENT` in mode `SPSC` in a row, with no step of another port between them (spec/42_spsc_ops.md R168,
R173). -/

namespace Sys2Proof.Safety

open Machine

/-- A step and then the steps after it. -/
theorem run_succ {M : Host.Core} {s t : M.State} (h : M.step s = .next t) (n : Nat) : M.run (n + 1) s = M.run n t := by
  simp only [Host.Core.run, h]

/-- In `t` the write that was at P1 in `s` is at `x`, with `v` loaded; the ring holds these frames, as it did in `s`. -/
structure WriteGoesOn (s : State) (fs : List Frame) (v : Word) (x : PortState) (rest : List Input) (t : State) : Prop where
  inv : BlockInv t
  holds : Holds t fs
  pSeenR : t.pSeenR = v
  prod : t.prod = x
  inbox : t.inbox = rest
  capacity : t.capacity = s.capacity
  writePos : t.writePos = s.writePos
  readPos : t.readPos = s.readPos
  cons : t.cons = s.cons

section
variable {s : State} {fs : List Frame} {f : Frame} {rest : List Input}

/-- P1 draws the value. -/
theorem write_loads (hi : BlockInv s) (hh : Holds s fs) (hx : s.prod = .p1 f) (hb : s.inbox = .advance .prod :: rest) :
    ∃ k v t, s.pSeenAt ≤ k ∧ s.histR[k]? = some v ∧ step s = .next t ∧ WriteGoesOn s fs v (.p2 f v) rest t := by
  have hp : s.phase = .split := by
    have hok := hi.prod_ok
    rw [hx] at hok
    exact hok.1
  obtain ⟨hseen, -⟩ := List.getElem?_eq_some_iff.1 (hi.hist hp).seen_r
  have hstep := (step_advance hb).trans (advance_p1 (s := s.at .prod rest) hx)
  obtain ⟨k, h⟩ := acqLoadReadPos_sees (s := s.at .prod rest) hseen (s.at .prod rest).draw
    (.p2 f (acqLoadReadPos (s.at .prod rest).draw (s.at .prod rest)).pSeenR)
  have hq : SameQueue s (acqLoadReadPos (s.at .prod rest).draw (s.at .prod rest)) := by constructor <;> rfl
  exact ⟨k, _, _, h.notOlder, h.hist, hstep, stepKeepsInvariant _ _ hi hstep, holds_setPort (hq.holds hh) _ _, h.pSeenR, rfl,
    h.elsewhere.inbox, h.config.capacity, h.pointers.writePos, h.pointers.readPos, h.elsewhere.ports .cons nofun⟩

variable {v w : Word} {t : State}

/-- P2 finds no room by the value drawn. -/
theorem WriteGoesOn.fails (h : WriteGoesOn s fs v (.p2 f v) (.advance .prod :: rest) t) (hfull : s.capacity - (s.writePos - v) < f.need) :
    ∃ t', step t = .next t' ∧ WriteGoesOn s fs v (.responding (.notEnoughSpace f.need (s.capacity - (s.writePos - v)))) rest t' := by
  have hfull' : freeOf t.capacity t.writePos v < f.need := by rw [h.capacity, h.writePos]; exact hfull
  have hstep := (step_advance h.inbox).trans ((advance_p2 (s := t.at .prod rest) h.prod).trans (stepP2_of_full hfull'))
  refine ⟨_, hstep, stepKeepsInvariant _ _ h.inv hstep, ?_, h.pSeenR, ?_, rfl, h.capacity, h.writePos, h.readPos, h.cons⟩
  · exact holds_setPort (holds_log (((sameCore_at t .prod rest).holds fs).2 h.holds) _) _ _
  · simp [freeOf, usedOf, h.capacity, h.writePos]

/-- P2 finds room by the value drawn. -/
theorem WriteGoesOn.fits (h : WriteGoesOn s fs v (.p2 f v) (.advance .prod :: rest) t) (hfits : f.need ≤ s.capacity - (s.writePos - v)) :
    ∃ t', step t = .next t' ∧ WriteGoesOn s fs v (.p3 f s.writePos) rest t' := by
  have hfits' : f.need ≤ freeOf t.capacity t.writePos v := by rw [h.capacity, h.writePos]; exact hfits
  have hstep := (step_advance h.inbox).trans ((advance_p2 (s := t.at .prod rest) h.prod).trans (stepP2_of_fits hfits'))
  refine ⟨_, hstep, stepKeepsInvariant _ _ h.inv hstep, ?_, h.pSeenR, ?_, rfl, h.capacity, h.writePos, h.readPos, h.cons⟩
  · exact holds_setPort (holds_log (((sameCore_at t .prod rest).holds fs).2 h.holds) _) _ _
  · simp [h.writePos]

/-- P3 stores behind the frames held. -/
theorem WriteGoesOn.stores (h : WriteGoesOn s fs v (.p3 f w) (.advance .prod :: rest) t) :
    ∃ t', step t = .next t' ∧ WriteGoesOn s fs v (.p4 f w) rest t' := by
  have hi := inv_at h.inv .prod rest
  obtain ⟨-, -, hp, -, ha, rfl, hroom⟩ := hi.at_prod (p := .prod) h.prod id id
  have hfit := hi.need_fits hp hroom
  rw [← f.length_bytes ha] at hfit
  have hwrite := memWrite_of_le (pos := t.writePos) (hi.p3_fits (s := t.at .prod rest) h.prod)
  have hstep := (step_advance h.inbox).trans ((advance_p3 (s := t.at .prod rest) h.prod).trans (stepP3_of_memWrite hwrite))
  refine ⟨_, hstep, stepKeepsInvariant _ _ h.inv hstep, ?_, h.pSeenR, rfl, rfl, h.capacity, h.writePos, h.readPos, h.cons⟩
  have hheld : Holds (t.at .prod rest) fs := ((sameCore_at t .prod rest).holds fs).2 h.holds
  exact holds_setPort (holds_log (holds_withStored hi (split_configured hp) hheld hfit) _) _ _

/-- P4 publishes the frame stored. -/
theorem WriteGoesOn.publishes (h : WriteGoesOn s fs v (.p4 f w) (.advance .prod :: rest) t) :
    ∃ t', step t = .next t' ∧ t'.prod = .responding (.ok .empty) ∧ t'.writePos = s.writePos + f.need ∧ t'.readPos = s.readPos ∧
      t'.pSeenR = v ∧ Holds t' (fs ++ [f]) ∧ t'.cons = s.cons ∧ t'.inbox = rest := by
  have hi := inv_at h.inv .prod rest
  obtain ⟨-, -, hp, -, ha, rfl, hroom, hread⟩ := hi.at_prod (p := .prod) h.prod id id
  have hfit := hi.need_fits hp hroom
  have hheld : Holds (t.at .prod rest) fs := ((sameCore_at t .prod rest).holds fs).2 h.holds
  have hpub := holds_withPublished hi (split_configured hp) hheld ha hfit hread
  have hstep := (step_advance h.inbox).trans (advance_p4 (s := t.at .prod rest) h.prod)
  refine ⟨_, hstep, rfl, ?_, h.readPos, h.pSeenR, holds_setPort (holds_log hpub _) _ _, h.cons, rfl⟩
  rw [← h.writePos]
  generalize f.need = need
  rfl

end

/-- Settles O58: the four steps one after the other, or the two where the second finds no room. -/
theorem anUninterruptedWriteIsOneWrite : Obligations.AnUninterruptedWriteIsOneWrite := by
  intro s f fs rest hi hx hh hb
  obtain ⟨k, v, t₁, hk, hv, hstep₁, h₁⟩ := write_loads hi hh hx hb
  refine ⟨k, v, hk, hv, fun hfits => ?_, fun hfull => ?_⟩
  · obtain ⟨t₂, hstep₂, h₂⟩ := h₁.fits hfits
    obtain ⟨t₃, hstep₃, h₃⟩ := h₂.stores
    obtain ⟨t₄, hstep₄, h₄⟩ := h₃.publishes
    refine ⟨t₄, ?_, h₄⟩
    calc core.run 4 s = core.run 3 t₁ := run_succ (M := core) hstep₁ 3
      _ = core.run 2 t₂ := run_succ (M := core) hstep₂ 2
      _ = core.run 1 t₃ := run_succ (M := core) hstep₃ 1
      _ = .next t₄ := run_succ (M := core) hstep₄ 0
  · obtain ⟨t₂, hstep₂, h₂⟩ := h₁.fails hfull
    refine ⟨t₂, ?_, h₂.prod, h₂.writePos, h₂.readPos, h₂.pSeenR, h₂.holds, h₂.cons⟩
    calc core.run 2 s = core.run 1 t₁ := run_succ (M := core) hstep₁ 1
      _ = .next t₂ := run_succ (M := core) hstep₂ 0

end Sys2Proof.Safety
end

section
/-! SUPPORT. From a state of the invariant the only stops are broken rules of use (spec/60_exceptions.md R196, R226, R232): a command has
a next state or one of its two refusals, and what is in progress or due at a port has a next state. -/

namespace Sys2Proof.Safety

open Machine

/-! ## Commands -/

/-- A next state, or one of the two rules of use that a command can break (93 U2, U8). -/
def NextOrBreaksRule (x : Result) : Prop :=
  (∃ t, x = .next t) ∨ x = .refused .payloadLengthMismatch ∨ x = .refused .capacityBeyondInstance

/-- A command that is not legal has the next state that answers it. -/
theorem whenLegal_nextOrBreaksRule {legal : Bool} {code : Byte} {op : Result} {s : State} (h : legal = true → NextOrBreaksRule op) :
    NextOrBreaksRule (whenLegal legal code op s) := by
  cases hl : legal with
  | false => exact .inl ⟨_, whenLegal_of_not_legal rfl code op s⟩
  | true =>
    rw [whenLegal_of_legal rfl]
    exact h hl

theorem newRing_nextOrBreaksRule (mode : Mode) (c : Word) (s : State) : NextOrBreaksRule (newRing mode c s) := by
  by_cases h16 : c < 16#64
  · exact .inl ⟨_, newRing_of_small h16⟩
  · by_cases hpow : c &&& (c - 1#64) = 0#64
    · rw [newRing_of_pow (BitVec.not_lt.1 h16) hpow]
      split
      · exact .inr (.inr rfl)
      · exact .inl ⟨_, rfl⟩
    · exact .inl ⟨_, newRing_of_not_pow (BitVec.not_lt.1 h16) hpow⟩

/-- A frame that passes the space test of mode `SINGLE` fits the region. -/
theorem writeSingle_next {s : State} {f : Frame} (g : Geometry s) (ha : f.agrees = true) : ∃ t, writeSingle f s = .next t := by
  by_cases hfull : s.free < f.need
  · exact ⟨_, writeSingle_of_full hfull⟩
  · exact ⟨_, writeSingle_of_fits g ha (BitVec.not_lt.1 hfull)⟩

/-- What `READ_EVENT` reads in mode `SINGLE` is within what is unread, and so within the region. -/
theorem readSingle_next {s : State} (g : Geometry s) : ∃ t, readSingle s = .next t := by
  by_cases h16 : s.used.toNat < 16
  · exact ⟨_, readSingle_of_short h16⟩
  · rw [readSingle_of_header g (Nat.not_lt.1 h16)]
    by_cases hcut : s.used.toNat < 16 + (headerPayloadLen (headerOfBytes (s.readFrom s.readPos 16))).toNat
    · exact ⟨_, readPayloadSingle_of_cut hcut⟩
    · exact ⟨_, readPayloadSingle_of_whole g rfl (Nat.not_lt.1 hcut)⟩

theorem writeEvent_nextOrBreaksRule {s : State} (g : Geometry s) (f : Frame) : NextOrBreaksRule (writeEvent f s) := by
  unfold writeEvent
  split
  · exact .inr (.inl rfl)
  · rename_i ha
    split
    · exact .inl ⟨_, rfl⟩
    · exact .inl (writeSingle_next g (by simpa using ha))

theorem queryStatus_next (q : Query) (s : State) : ∃ t, queryStatus q s = .next t := by
  unfold queryStatus
  split <;> exact ⟨_, rfl⟩

/-- Where a data command is legal, a ring exists. -/
theorem configured_of_dataLegal {s : State} {alive : Prop} (h : (s.phase = .whole ∧ s.mode = .single) ∨ (s.phase = .split ∧ alive)) :
    Configured s := by
  rcases h with ⟨hp, -⟩ | ⟨hp, -⟩ <;> simp [Configured, hp]

/-- A command has a next state unless it breaks a rule of use: only the data commands access the region, and they are legal only where
the invariant bounds their accesses. -/
theorem exec_nextOrBreaksRule {i : Instr} {s : State} (hi : BlockInv s) (hc : i.format = .cmd) : NextOrBreaksRule (exec i s) := by
  cases i with
  | new mode c => exact whenLegal_nextOrBreaksRule fun _ => newRing_nextOrBreaksRule mode c s
  | split | dropRing | dropProducer | dropConsumer => exact whenLegal_nextOrBreaksRule fun _ => .inl ⟨_, rfl⟩
  | writeEvent t e f n payload =>
    refine whenLegal_nextOrBreaksRule fun hl => ?_
    exact writeEvent_nextOrBreaksRule (hi.geometry (configured_of_dataLegal (whole_of_writeLegal hl).2)) _
  | readEvent =>
    refine whenLegal_nextOrBreaksRule fun hl => .inl ?_
    split
    · exact ⟨_, rfl⟩
    · exact readSingle_next (hi.geometry (configured_of_dataLegal (whole_of_readLegal hl).2))
  | used | free | isEmpty => exact whenLegal_nextOrBreaksRule fun _ => .inl (queryStatus_next _ s)
  | headerSize | totalSize | headerNew | encodeHeader | decodeHeader | reservedCode => exact .inl ⟨_, rfl⟩
  | frameHeader | rspOk | rspNone | rspInvalidCapacity | rspNotEnoughSpace | rspBadCommand | reasonTooSmall | reasonNotPowerOfTwo =>
    cases hc

/-! ## Responses that are due -/

theorem handOver_of_due {due : PortState} {s : State} (h : s.portState s.port = due) (r : Response) :
    handOver due r s = .next (s.deliver r) := if_pos h

/-- The row of the response that is due has a next state: it hands the response over, or makes its reason code due. -/
theorem exec_rowOfResponse_next {s : State} {r : Response} (h : s.portState s.port = .responding r) :
    ∃ t, exec (rowOfResponse r) s = .next t := by
  cases r with
  | invalidCapacity => exact ⟨_, if_pos h⟩
  | ok | none | notEnoughSpace | badCommand => exact ⟨_, handOver_of_due h _⟩

/-- The row of the reason code that is due hands the response over. -/
theorem exec_rowOfReason_next {s : State} {c : Word} {reason : Reason} (h : s.portState s.port = .reasonDue c reason) :
    ∃ t, exec (rowOfReason reason) s = .next t := by
  cases reason <;> exact ⟨_, handOverReason_of_due h⟩

/-- Settles O49: the response that is due is handed over, which leaves its port idle and is recorded. -/
theorem responsesAreHandedOver : Obligations.ResponsesAreHandedOver := by
  refine fun s => ⟨fun fields h => ?_, fun h => ?_, fun required available h => ?_, fun cmd h => ?_⟩
  all_goals exact ⟨_, handOver_of_due h _, deliver_onlyPort s _⟩

/-! ## Steps -/

/-- A port that goes on has a next state, whatever it is doing. -/
theorem advance_next_of_inv {s : State} (hi : BlockInv s) : ∃ t, advance s = .next t := by
  cases hx : s.portState s.port with
  | idle => exact ⟨_, advance_idle hx⟩
  | responding r =>
    rw [advance_responding hx]
    exact exec_rowOfResponse_next hx
  | reasonDue c reason =>
    rw [advance_reasonDue hx]
    exact exec_rowOfReason_next hx
  | p1 | p2 | p3 | p4 | c1 | c2 | c3 | c4 | c5 | q1 | q2 => exact advance_next hi (by simp [hx, stepsLeft])

/-- Settles O4: a request is refused as early or malformed, or it is a command; a port that goes on has a next state. -/
theorem stepStopsOnlyOnBrokenRulesOfUse : Obligations.StepStopsOnlyOnBrokenRulesOfUse := by
  intro s hi
  cases hb : s.inbox with
  | nil => exact .inl ⟨s, step_idle hb⟩
  | cons input rest =>
    cases input with
    | advance p =>
      rw [step_advance hb]
      exact .inl (advance_next_of_inv (inv_at hi p rest))
    | request p bytes =>
      rw [step_request hb]
      by_cases hready : (s.at p rest).ready (s.at p rest).port = true
      · cases hd : decode .cmd bytes with
        | error e => exact .inr (.inr (.inr (.inr (request_malformed hready hd))))
        | ok i =>
          rw [request_ready hready hd]
          rcases exec_nextOrBreaksRule (inv_log (inv_at hi p rest) (.request i)) (format_decode_cmd hd) with h | h | h
          · exact .inl h
          · exact .inr (.inl h)
          · exact .inr (.inr (.inl h))
      · exact .inr (.inr (.inr (.inl (request_early hready))))

end Sys2Proof.Safety
end

section
/-! SUPPORT. Which operation answers with which status, and what an operation leaves alone that does not answer `OK` (spec/60_exceptions.md
R201, R204). -/

namespace Sys2Proof.Safety

open Machine

/-! ## Statuses -/

/-- The response at a port is the one set there. -/
theorem eq_of_setPort_responding {u : State} {p : Port} {r r' : Response}
    (h : (u.setPort p (.responding r')).portState p = .responding r) : r' = r := by
  simpa using h

/-- What a command starts is no response. -/
theorem Starts.ne_responding {s : State} {x : PortState} (h : Starts s x) (r : Response) : x ≠ .responding r := by
  cases h <;> nofun

/-- What a command answers at once is a status of its row: only a reserved code cannot be answered `OK`. -/
theorem CommandEffect.mayAnswer {i : Instr} {s t : State} {r : Response} (h : CommandEffect i s t)
    (hr : t.portState s.port = .responding r) : mayAnswer i r := by
  cases h with
  | answers r' hm =>
    obtain rfl := eq_of_setPort_responding hr
    exact hm
  | starts x _ hx => exact absurd (by simpa using hr) (hx.ne_responding r)
  | findsNoFrame _ _ hi =>
    obtain rfl := eq_of_setPort_responding hr
    exact hi
  | creates _ _ hi | splits hi | dropsRing hi | dropsProducer hi | dropsLastProducer hi | dropsConsumer hi | dropsLastConsumer hi
  | writes _ _ _ _ _ hi | reads _ _ _ _ _ _ _ _ hi =>
    obtain rfl := eq_of_setPort_responding hr
    subst hi
    exact nofun

/-- Settles O14: a command by its effect; of the steps of mode `SPSC`, those that post a response each post their own. -/
theorem commandsAnswerTheirStatuses : Obligations.CommandsAnswerTheirStatuses := by
  refine ⟨fun i s t r hc h hr => (exec_command hc h).mayAnswer hr, fun s t r _ h _ hr => ?_⟩
  cases advance_effect h with
  | idle hx => simp [hx] at hr
  | handsOver | owesReason | handsOverReason | p1 | p2Fits | p3 | c1 | c2Some | c3Some | c4 | q1Prod | q1Cons => simp at hr
  | p2Fails _ _ hx | p4 _ _ _ hx | c2None _ hx | c3None _ _ _ _ hx | c5 _ _ _ _ hx =>
    obtain rfl := eq_of_setPort_responding hr
    rw [hx]
    trivial
  | q2Prod q _ hx | q2Cons q _ hx =>
    obtain rfl := eq_of_setPort_responding hr
    rw [hx]
    cases q <;> trivial

/-! ## What stays -/

/-- The configuration, both pointers, the bytes, the snapshots, the histories, the other ports and the inputs are as before. -/
def RingUnchanged (s t : State) : Prop :=
  SameConfig s t ∧ SamePointers s t ∧ SameBytes s t ∧ SameProducerSide s t ∧ SameConsumerSide s t ∧ SameElsewhere s t

theorem SameCore.ringUnchanged {s t : State} (h : SameCore s t) (he : SameElsewhere s t) : RingUnchanged s t :=
  ⟨⟨h.phase, h.mode, h.capacity, h.mask, h.prodAlive, h.consAlive⟩, ⟨h.writePos, h.readPos, h.published, h.released⟩, h.byteAt,
    ⟨h.pSeenR, h.pSeenAt, h.histW⟩, ⟨h.cSeenW, h.cSeenAt, h.histR⟩, he⟩

theorem ringUnchanged_setPort (s : State) (x : PortState) : RingUnchanged s (s.setPort s.port x) :=
  (sameCore_setPort s s.port x).ringUnchanged (.of_setPort rfl (fun _ => rfl) rfl rfl)

theorem ringUnchanged_log_setPort (s : State) (a : Action) (x : PortState) : RingUnchanged s ((s.log a).setPort s.port x) :=
  (sameCore_log_setPort s a s.port x).ringUnchanged (.of_setPort rfl (fun q => by cases q <;> rfl) rfl rfl)

/-- A command that answers at once and not with `OK` has answered without doing anything, or has read a header. -/
theorem CommandEffect.ringUnchanged {i : Instr} {s t : State} {r : Response} (h : CommandEffect i s t)
    (hr : t.portState s.port = .responding r) (hne : ∀ fields, r ≠ .ok fields) : RingUnchanged s t := by
  cases h with
  | answers | starts => exact ringUnchanged_setPort s _
  | findsNoFrame => exact ringUnchanged_log_setPort s _ _
  | creates | splits | dropsRing | dropsProducer | dropsLastProducer | dropsConsumer | dropsLastConsumer | writes | reads =>
    exact absurd (eq_of_setPort_responding hr).symm (hne _)

/-- A step that posts a response other than `OK` has loaded its own pointer or read a header. -/
theorem AdvanceEffect.ringUnchanged {s t : State} {r : Response} (h : AdvanceEffect s t)
    (hr : t.portState s.port = .responding r) (hne : ∀ fields, r ≠ .ok fields) : RingUnchanged s t := by
  cases h with
  | idle hx => simp [hx] at hr
  | handsOver | owesReason | handsOverReason | p1 | p2Fits | p3 | c1 | c2Some | c3Some | c4 | q1Prod | q1Cons => simp at hr
  | p2Fails | c2None | c3None => exact ringUnchanged_log_setPort s _ _
  | p4 | c5 | q2Prod | q2Cons => exact absurd (eq_of_setPort_responding hr).symm (hne _)

/-- Settles O15: what answers otherwise than with `OK` has set its port, after at most a load or a read. -/
theorem errorResponsesChangeNothing : Obligations.ErrorResponsesChangeNothing :=
  ⟨fun _ _ _ _ hc h hr hne => (exec_command hc h).ringUnchanged hr hne,
    fun _ _ _ h _ hr hne => (advance_effect h).ringUnchanged hr hne⟩

end Sys2Proof.Safety
end

section
/-! SUPPORT. Which capability exists when (spec/60_exceptions.md R206, R207). -/

namespace Sys2Proof.Safety

open Machine

theorem exists_producer_iff (s : State) : s.exists_ .producer = true ↔ s.phase = .split ∧ s.prodAlive = true := by simp [State.exists_]

theorem exists_consumer_iff (s : State) : s.exists_ .consumer = true ↔ s.phase = .split ∧ s.consAlive = true := by simp [State.exists_]

/-- Outside phase `Split` the one capability is `Owner`. -/
theorem owner_only {s : State} (h : s.phase ≠ .split) :
    s.exists_ .owner = true ∧ s.exists_ .producer = false ∧ s.exists_ .consumer = false := by
  simp [State.exists_, h]

/-- Settles O20: `Owner` goes with phase `Split`, `Producer` and `Consumer` are there in it with their handle flags. -/
theorem capabilitiesComeAndGo : Obligations.CapabilitiesComeAndGo := by
  refine ⟨fun s t mode c _ ht _ => owner_only (by simp [ht]), fun s t hp h ht => ?_, fun s t he hport h => ?_, fun s t he hport h => ?_,
    fun s hi ho => ?_⟩
  · rcases whenLegal_cases (show execSplit s = .next t from h) with ⟨-, h⟩ | ⟨-, rfl⟩
    · cases h
      simp [State.exists_]
    · simp [hp] at ht
  · obtain ⟨hp, ha⟩ := (exists_producer_iff s).1 he
    rw [exec_dropProducer_legal hport hp ha] at h
    cases h
    cases hca : s.consAlive <;> simp [State.exists_, State.loseRing, hca]
  · obtain ⟨hp, ha⟩ := (exists_consumer_iff s).1 he
    rw [exec_dropConsumer_legal hport hp ha] at h
    cases h
    cases hpa : s.prodAlive <;> simp [State.exists_, State.loseRing, hpa]
  · have hp : s.phase = .split := by simpa [State.exists_] using ho
    rw [exists_producer_iff, exists_consumer_iff]
    exact (hi.split_handle hp).imp (⟨hp, ·⟩) (⟨hp, ·⟩)

end Sys2Proof.Safety
end

section
/-! SUPPORT. Reset, and the rules of use that a step enforces: requests wait for responses, a payload is as long as its header says
(spec/70_reset_and_hazards.md R220, R226, R232). -/

namespace Sys2Proof.Safety

open Machine

/-! ## Reset -/

/-- While there is no ring the invariant asks for dropped handles and ports with nothing but responses in progress. -/
theorem inv_of_unconfigured {s : State} (hp : s.phase = .unconfigured) (hwf : Memory.wf s.region = true) (hprod : s.prodAlive = false)
    (hcons : s.consAlive = false) (hquiet : ∀ p, Quiet (s.portState p)) : BlockInv s where
  region_wf := hwf
  geometry hc := absurd hp hc
  framed hc := absurd hp hc
  seed_used hc := absurd hp hc
  split_spsc h := nomatch hp.symm.trans h
  split_handle h := nomatch hp.symm.trans h
  whole_handles _ := ⟨hprod, hcons⟩
  unsplit_fresh h := nomatch hp.symm.trans h
  histories hc := absurd hp hc
  cfg_ok := (hquiet .cfg).cfg
  prod_ok := (hquiet .prod).prod s
  cons_ok := (hquiet .cons).cons s
  counts hc := absurd hp hc

/-- Before the first event, idle ports owe nothing. -/
theorem balanced_of_idle {s : State} (hevents : s.events = []) (hidle : ∀ p, s.portState p = .idle) : Balanced s := by
  intro p
  simp [hevents, hidle, owed_idle]

theorem reset_idle (p : Port) : State.reset.portState p = .idle := by cases p <;> rfl

/-- Settles O1: each field has its value at reset, and outside phase `Split` the one capability is `Owner`. -/
theorem resetIsUnconfigured : Obligations.ResetIsUnconfigured :=
  ⟨rfl, rfl, rfl, reset_idle, fun _ => rfl, rfl, owner_only (s := State.reset) nofun⟩

/-- Settles O2: there is no ring at reset, nothing is in progress and nothing has happened. -/
theorem resetMeetsInvariants : Obligations.ResetMeetsInvariants :=
  ⟨inv_of_unconfigured rfl rfl rfl rfl fun p => quiet_of_idle (reset_idle p), balanced_of_idle rfl reset_idle⟩

/-! ## Rules of use -/

/-- A request at a port that is not ready is refused. -/
theorem step_early {s : State} {p : Port} {bytes : List Byte} {rest : List Input} (hb : s.inbox = .request p bytes :: rest)
    (hr : ¬ s.ready p = true) : step s = .refused .requestBeforeResponse := by
  rw [step_request hb]
  exact request_early (by rwa [State.at_port, ready_at])

/-- Settles O8: a port is ready when all ports are idle in mode `SINGLE`, and otherwise when it is idle itself. -/
theorem requestsWaitForResponses : Obligations.RequestsWaitForResponses := by
  refine ⟨fun s p bytes rest i hb hd hall hown => ?_, fun s p bytes rest q hb hp hm hbusy => ?_, fun s p bytes rest hb hns hbusy => ?_⟩
  · have hready : s.ready p = true := by
      by_cases hs : s.phase = .whole ∧ s.mode = .single
      · exact (ready_single hs p).2 (hall hs)
      · exact (ready_other hs p).2 (hown hs)
    exact (stepRunsDecodedRequest s p bytes rest hb hready).1 i hd
  · exact step_early hb fun hr => hbusy ((ready_single ⟨hp, hm⟩ p).1 hr q)
  · exact step_early hb fun hr => hbusy ((ready_other hns p).1 hr)

/-- Settles O28: the precondition is tested once the command is legal, before the mode matters. -/
theorem mismatchedPayloadIsRefused : Obligations.MismatchedPayloadIsRefused := by
  intro s ts e fl n payload hlegal hne
  have hagrees : (Frame.mk ts e fl n payload).agrees = false := decide_eq_false hne
  calc exec (.writeEvent ts e fl n payload) s
      = writeEvent ⟨ts, e, fl, n, payload⟩ s := whenLegal_of_legal ((writeLegal_iff ts e fl n payload s).2 hlegal) _ _ s
    _ = .refused .payloadLengthMismatch := if_pos (by simp [hagrees])

end Sys2Proof.Safety
end

section
/-! SUPPORT. What a side concludes from its snapshot stays true: a load draws nothing older, and the other side's steps leave the
snapshot and the side's own pointer alone (spec/70_reset_and_hazards.md R230). -/

namespace Sys2Proof.Safety

open Machine

/-- Unread bytes seen from a snapshot `c` are unread seen from a value `v` between it and `write_pos`. -/
theorem w_used_le_loaded {c w r v : Word} (hv : v - c ≤ w - c) (hc : c - r ≤ w - r) : c - r ≤ v - r := by bv_omega

/-- An element from the snapshot on is one of the history's rest. -/
theorem mem_drop_of_getElem? {L : List Word} {j k : Nat} {v : Word} (hjk : j ≤ k) (hk : L[k]? = some v) : v ∈ L.drop j := by
  refine List.mem_of_getElem? (i := k - j) ?_
  rwa [List.getElem?_drop, Nat.add_sub_cancel' hjk]

/-- An element of the history of `read_pos` from the snapshot on lies between the snapshot and `read_pos`. -/
theorem Histories.readPos_between {s : State} (H : Histories s) {k : Nat} {v : Word} (hk : s.pSeenAt ≤ k) (hv : s.histR[k]? = some v) :
    v - s.pSeenR ≤ s.readPos - s.pSeenR :=
  le_last H.rising_r H.seen_r H.last_r (mem_drop_of_getElem? hk hv)

/-- An element of the history of `write_pos` from the snapshot on lies between the snapshot and `write_pos`. -/
theorem Histories.writePos_between {s : State} (H : Histories s) {k : Nat} {v : Word} (hk : s.cSeenAt ≤ k)
    (hv : s.histW[k]? = some v) : v - s.cSeenW ≤ s.writePos - s.cSeenW :=
  le_last H.rising_w H.seen_w H.last_w (mem_drop_of_getElem? hk hv)

/-- Step P1 leaves no less room by the value it draws than the snapshot showed. -/
theorem p1_room {s : State} {f : Frame} (hi : BlockInv s) (hport : s.port = .prod) (hx : s.prod = .p1 f) :
    ∃ t r, advance s = .next t ∧ t.prod = .p2 f r ∧ s.capacity - (s.writePos - s.pSeenR) ≤ t.capacity - (t.writePos - r) := by
  obtain ⟨-, -, hp, -⟩ := hi.at_prod (portState_of_prod hport hx) id id
  have H := hi.hist hp
  obtain ⟨hseen, -⟩ := List.getElem?_eq_some_iff.1 H.seen_r
  obtain ⟨t, k, v, hnext, hx', hk, hv, -, -, -, hconfig, hpointers, -⟩ := writeLoadsAndTests.1 s f hport hx hseen
  refine ⟨t, v, hnext, hx', ?_⟩
  rw [hconfig.capacity, hpointers.writePos]
  exact w_free_le (BitVec.le_trans (H.readPos_between hk hv) H.behind_r) H.room_r

/-- Step C1 draws a value that shows no fewer bytes than the snapshot did. -/
theorem c1_used {s : State} (hi : BlockInv s) (hport : s.port = .cons) (hx : s.cons = .c1) :
    ∃ t w, advance s = .next t ∧ t.cons = .c2 w ∧ s.cSeenW - s.readPos ≤ w - t.readPos := by
  obtain ⟨-, -, hp, -⟩ := hi.at_cons (portState_of_cons hport hx) id id
  have H := hi.hist hp
  obtain ⟨hseen, -⟩ := List.getElem?_eq_some_iff.1 H.seen_w
  obtain ⟨t, k, v, hnext, hx', hk, hv, -, -, -, -, hpointers, -⟩ := readLoadsAndTests.1 s hport hx hseen
  refine ⟨t, v, hnext, hx', ?_⟩
  rw [hpointers.readPos]
  exact w_used_le_loaded (H.writePos_between hk hv) H.behind_w

/-- Settles O53: a load draws a value between the snapshot and the pointer, and a step changes what its own port owns. -/
theorem advisoryStatusIsSafe : Obligations.AdvisoryStatusIsSafe := by
  refine ⟨fun s f hi hport hx hfits => ?_, fun s => c1_used, fun s t hi hp h ht => ?_⟩
  · obtain ⟨t, r, hnext, hx', hroom⟩ := p1_room hi hport hx
    exact ⟨t, r, hnext, hx', BitVec.le_trans hfits hroom⟩
  · have owners := step_ownersChanges hi (split_configured hp) h (split_configured ht)
    exact ⟨fun hne => ⟨not_imp_comm.1 owners.pSeenR hne, not_imp_comm.1 owners.writePos hne⟩,
      fun hne => ⟨not_imp_comm.1 owners.cSeenW hne, not_imp_comm.1 owners.readPos hne⟩⟩

end Sys2Proof.Safety
end
